-- ==== Sys2Proof/Word.lean ====
section
/-! DEFINITION. The word type: every datum this hardware moves is an unsigned byte (R10, R67). -/

namespace Sys2Proof

/-- One unsigned byte, bit 7 the most significant (R9, R10). -/
abbrev Byte := BitVec 8

end Sys2Proof
end

