-- ==== Sys2Proof/Syntax.lean ====
section
/-! DEFINITION. The command model the two engines share (R2, R3, R90): kinds, commands as their
headers give them, and the candidate record of the match finders (R191). -/

namespace Sys2Proof

/-- The closed set of seven command kinds (R3), in tag order. -/
inductive Kind where
  | directCopy
  | byteFill
  | wordFill
  | sigmaFill
  | libraryCopy
  | xorCopy
  | minusCopy
deriving DecidableEq, Repr, Inhabited

/-- A command as its header gives it, one constructor per row of the opcode table (R96). `len` is
the command length `val + 1` (R94). The payload (R97) is read from STREAM by the command's handler,
byte by byte (R127, R128), so it is no field here (log entry 1). -/
inductive Instr where
  /-- format N, `000vvvvv` -/
  | directCopy (len : Nat)
  /-- format N, `001vvvvv` -/
  | byteFill (len : Nat)
  /-- format N, `010vvvvv` -/
  | wordFill (len : Nat)
  /-- format N, `011vvvvv` -/
  | sigmaFill (len : Nat)
  /-- format N, `100vvvvv` -/
  | libraryCopy (len : Nat)
  /-- format N, `101vvvvv` -/
  | xorCopy (len : Nat)
  /-- format N, `110vvvvv` -/
  | minusCopy (len : Nat)
  /-- format X, `111000hh llllllll` -/
  | directCopyX (len : Nat)
  /-- format X, `111001hh llllllll` -/
  | byteFillX (len : Nat)
  /-- format X, `111010hh llllllll` -/
  | wordFillX (len : Nat)
  /-- format X, `111011hh llllllll` -/
  | sigmaFillX (len : Nat)
  /-- format X, `111100hh llllllll` -/
  | libraryCopyX (len : Nat)
  /-- format X, `111101hh llllllll` -/
  | xorCopyX (len : Nat)
  /-- format X, `111110hh llllllll` -/
  | minusCopyX (len : Nat)
  /-- the reserved first byte `0xFC` (R101) -/
  | reservedFC
  /-- the reserved first byte `0xFD` (R101) -/
  | reservedFD
  /-- the reserved first byte `0xFE` (R101) -/
  | reservedFE
  /-- the terminator `0xFF` (R93, R130) -/
  | endOfStream
deriving DecidableEq, Repr

/-- A match finder's result (R191). The empty candidate has length 0 and no other field, because
"when `length = 0` the other fields are meaningless" (log entry 15). -/
inductive Candidate where
  | empty
  /-- `backOffset` is the absolute start `j` for LibraryCopy and XorCopy, the distance `m` for
  MinusCopy and 0 for the fill kinds (R191). -/
  | found (kind : Kind) (length : Nat) (sourceSequence : List Byte) (backOffset : Nat)
deriving DecidableEq, Repr, Inhabited

/-- The length of a candidate; 0 says that nothing is compressible (R191). -/
def Candidate.length : Candidate → Nat
  | .empty => 0
  | .found _ len _ _ => len

end Sys2Proof
end

