-- ==== Sys2Proof/WellFormed.lean ====
section
/-! DEFINITION. Which commands have an encoding: lengths 1 to 32 in format N, 1 to 1024 in format X
(R91, R92, R94, R103). -/

namespace Sys2Proof

/-- The lengths format N can carry (R91). -/
def normalLength (len : Nat) : Bool := 1 ≤ len && len ≤ 32

/-- The lengths format X can carry, the redundant 1 to 32 among them (R92, R103). -/
def extendedLength (len : Nat) : Bool := 1 ≤ len && len ≤ 1024

/-- A command is well formed when its format can carry its length. -/
def WellFormed : Instr → Bool
  | .directCopy len => normalLength len
  | .byteFill len => normalLength len
  | .wordFill len => normalLength len
  | .sigmaFill len => normalLength len
  | .libraryCopy len => normalLength len
  | .xorCopy len => normalLength len
  | .minusCopy len => normalLength len
  | .directCopyX len => extendedLength len
  | .byteFillX len => extendedLength len
  | .wordFillX len => extendedLength len
  | .sigmaFillX len => extendedLength len
  | .libraryCopyX len => extendedLength len
  | .xorCopyX len => extendedLength len
  | .minusCopyX len => extendedLength len
  | .reservedFC => true
  | .reservedFD => true
  | .reservedFE => true
  | .endOfStream => true

end Sys2Proof
end

