-- ==== Sys2Proof/Decode.lean ====
section
/-! DEFINITION. The command encoding (30_encoding.md): the decoder of headers, total on any bytes,
and the encoder written from the same tables. -/

namespace Sys2Proof

/-- Why no header could be read: the bytes ran out. Every byte string that is long enough decodes
(R96, R104). -/
inductive HeaderError where
  /-- no first byte -/
  | noHeader
  /-- the first byte announces format X and the extension byte is missing -/
  | noExtension (h0 : Byte)
deriving DecidableEq, Repr

/-- The tag of a kind (R3, D1). -/
def Kind.tag : Kind → BitVec 3
  | .directCopy => 0
  | .byteFill => 1
  | .wordFill => 2
  | .sigmaFill => 3
  | .libraryCopy => 4
  | .xorCopy => 5
  | .minusCopy => 6

/-- The kind of a tag; 7 is the escape and no kind (R3). -/
def Kind.ofTag (t : BitVec 3) : Option Kind :=
  if t = 0 then some .directCopy
  else if t = 1 then some .byteFill
  else if t = 2 then some .wordFill
  else if t = 3 then some .sigmaFill
  else if t = 4 then some .libraryCopy
  else if t = 5 then some .xorCopy
  else if t = 6 then some .minusCopy
  else none

/-- The format N command of a kind (R91). -/
def normalInstr (kind : Kind) (len : Nat) : Instr :=
  match kind with
  | .directCopy => .directCopy len
  | .byteFill => .byteFill len
  | .wordFill => .wordFill len
  | .sigmaFill => .sigmaFill len
  | .libraryCopy => .libraryCopy len
  | .xorCopy => .xorCopy len
  | .minusCopy => .minusCopy len

/-- The format X command of a kind (R92). -/
def extendedInstr (kind : Kind) (len : Nat) : Instr :=
  match kind with
  | .directCopy => .directCopyX len
  | .byteFill => .byteFillX len
  | .wordFill => .wordFillX len
  | .sigmaFill => .sigmaFillX len
  | .libraryCopy => .libraryCopyX len
  | .xorCopy => .xorCopyX len
  | .minusCopy => .minusCopyX len

/-- The reserved command of a first byte with extended tag 7 that is not `0xFF` (R101). -/
def reservedInstr (h0 : Byte) : Instr :=
  if h0.extractLsb' 0 2 = 0 then .reservedFC
  else if h0.extractLsb' 0 2 = 1 then .reservedFD
  else .reservedFE

/-- Format X once `h0` is read: tag in `h0[4:2]`, `val = 256·h0[1:0] + h1` (R92, R94, R125). A
reserved first byte is recognised by itself; its handler reads the extension byte (R126). -/
def decodeExtended (h0 : Byte) (rest : List Byte) : Except HeaderError (Instr × List Byte) :=
  match Kind.ofTag (h0.extractLsb' 2 3) with
  | none => .ok (reservedInstr h0, rest)
  | some kind =>
    match rest with
    | [] => .error (.noExtension h0)
    | h1 :: rest => .ok (extendedInstr kind (256 * (h0.extractLsb' 0 2).toNat + h1.toNat + 1), rest)

/-- A header read from the bytes at the stream pointer, with the bytes after it. The order of tests
is R95's: `0xFF` on the whole byte, then the escape, then format N. -/
def decode : List Byte → Except HeaderError (Instr × List Byte)
  | [] => .error .noHeader
  | h0 :: rest =>
    if h0 = 0xFF then .ok (.endOfStream, rest)
    else
      match Kind.ofTag (h0.extractLsb' 5 3) with
      | some kind => .ok (normalInstr kind ((h0.extractLsb' 0 5).toNat + 1), rest)
      | none => decodeExtended h0 rest

/-- A first byte that sends the Decoder to `ReadExt`: the escape in bits 7:5, but not `0xFF` (R123). -/
def escapes (h0 : Byte) : Bool :=
  h0 != 0xFF && h0.extractLsb' 5 3 == 7

/-- How many header bytes a command has; of a reserved one, the byte that identifies it (R95). -/
def headerSize : Instr → Nat
  | .directCopy _ => 1
  | .byteFill _ => 1
  | .wordFill _ => 1
  | .sigmaFill _ => 1
  | .libraryCopy _ => 1
  | .xorCopy _ => 1
  | .minusCopy _ => 1
  | .directCopyX _ => 2
  | .byteFillX _ => 2
  | .wordFillX _ => 2
  | .sigmaFillX _ => 2
  | .libraryCopyX _ => 2
  | .xorCopyX _ => 2
  | .minusCopyX _ => 2
  | .reservedFC => 1
  | .reservedFD => 1
  | .reservedFE => 1
  | .endOfStream => 1

/-- Format N: `tag ‖ val`, 3 and 5 bits (R91). -/
def normalHeader (kind : Kind) (len : Nat) : List Byte :=
  [(kind.tag ++ BitVec.ofNat 5 (len - 1) : BitVec (3 + 5))]

/-- Format X as the 16-bit quantity `111 ‖ tag ‖ val` (R92). -/
def extendedWord (kind : Kind) (len : Nat) : BitVec 16 :=
  ((0b111 : BitVec 3) ++ kind.tag ++ BitVec.ofNat 10 (len - 1) : BitVec (3 + 3 + 10))

/-- Format X in stream order, big-endian (R63, R92). -/
def extendedHeader (kind : Kind) (len : Nat) : List Byte :=
  [(extendedWord kind len).extractLsb' 8 8, (extendedWord kind len).extractLsb' 0 8]

/-- The header bytes of a well-formed command, in stream order. -/
def encode : Instr → List Byte
  | .directCopy len => normalHeader .directCopy len
  | .byteFill len => normalHeader .byteFill len
  | .wordFill len => normalHeader .wordFill len
  | .sigmaFill len => normalHeader .sigmaFill len
  | .libraryCopy len => normalHeader .libraryCopy len
  | .xorCopy len => normalHeader .xorCopy len
  | .minusCopy len => normalHeader .minusCopy len
  | .directCopyX len => extendedHeader .directCopy len
  | .byteFillX len => extendedHeader .byteFill len
  | .wordFillX len => extendedHeader .wordFill len
  | .sigmaFillX len => extendedHeader .sigmaFill len
  | .libraryCopyX len => extendedHeader .libraryCopy len
  | .xorCopyX len => extendedHeader .xorCopy len
  | .minusCopyX len => extendedHeader .minusCopy len
  | .reservedFC => [0xFC]
  | .reservedFD => [0xFD]
  | .reservedFE => [0xFE]
  | .endOfStream => [0xFF]

/-- The bytes of an opcode-table word in stream order. A row of 8 bits is one byte; a row of 16 bits
is one big-endian word, its first stream byte in bits 15:8, as the table's own byte order says (R92,
log entry 12). -/
def tableBytes (nbits w : Nat) : List Byte :=
  if nbits ≤ 8 then [BitVec.ofNat 8 w] else [BitVec.ofNat 8 (w / 256), BitVec.ofNat 8 w]

/-- The length in bytes of the longest command: an extended header and 1024 raw bytes (R97). -/
def longestCommand : Nat := 1026

/-- What the decoder reads from an opcode-table word followed by zero bytes. -/
def decodeTableWord (nbits w : Nat) : Option Instr :=
  match decode (tableBytes nbits w ++ List.replicate longestCommand 0) with
  | .ok (i, _) => some i
  | .error _ => none

end Sys2Proof
end

