-- ==== Sys2Proof/Config.lean ====
section
/-! DEFINITION. What an implementation fixes, and the free values. None has a body: no statement can
rest on a particular value. -/

namespace Sys2Proof

/-- The width `AW` of every pointer and size (R8, D16). `none` is an implementation with unbounded
sizes; `some w` refuses at the start every call whose sizes are not below `2 ^ w` (R80), log entry 7. -/
opaque Config.addressWidth : Option Nat

/-- Free bytes: the contents of the latches R42 leaves unspecified at a decode start (log entry 5). -/
opaque Config.freeByte : Nat → Byte

/-- Free values of the `kind` latch, a tag 0 to 6 (R27, R42, log entry 5). -/
opaque Config.freeKind : Nat → Kind

/-- Free values of the two 11-bit latches `len` and `k` (R27, R42, log entry 5). -/
opaque Config.freeCount : Nat → BitVec 11

/-- Free values of the `base` latch (R27, R42, log entry 5). -/
opaque Config.freeIndex : Nat → Int

/-- Free candidate records: `cand` and `best` at an encode start (R34, R42, log entry 5). -/
opaque Config.freeCandidate : Nat → Candidate

end Sys2Proof
end

