-- ==== Sys2Proof/Machine/State.lean ====
section
/-! DEFINITION. The state of the machine as plain data: everything 10_state.md names (R20 to R35,
R42), and the four fields of the model's own (host, refused, turn, draws). -/

namespace Sys2Proof.Machine

/-- One of the four byte spaces (R60): address and byte pairs, addresses strictly rising, no byte
equal to what an unlisted address reads as (`Memory.wf`). -/
abbrev Memory := List Host.Cell

/-- The Decoder's control state `dstate` (R26). -/
inductive DState where
  | idle
  | readHeader
  | readExt
  | execute
  | done
  | fault
deriving DecidableEq, Repr

/-- The Encoder's control state `estate` (R33). -/
inductive EState where
  | idle
  | scan
  | done
deriving DecidableEq, Repr

/-- Why a decode call ended in `Done` (R28). -/
inductive StopReason where
  /-- the termination byte was consumed -/
  | terminator
  /-- `olen` reached `MAXOUT` -/
  | cap
deriving DecidableEq, Repr

/-- The cause of a decode failure, all of the one class `CorruptStream` (R250, R254). -/
inductive Cause where
  /-- a stream byte was needed at `sp = SLEN` (R251) -/
  | bufferUnderrun
  /-- an output index negative or not below `olen` (R253) -/
  | invalidBackReference
  /-- a reserved first byte (R252) -/
  | invalidCommand
deriving DecidableEq, Repr

/-- The Decoder (R22 to R28). -/
structure Decoder where
  /-- control state `dstate` (R26) -/
  dstate : DState
  /-- `S`, the compressed stream (R22) -/
  stream : Memory
  /-- `SLEN` (R22) -/
  slen : Nat
  /-- `sp`, the stream pointer, this hardware's program counter (R23) -/
  sp : Nat
  /-- `O`, the output buffer (R24) -/
  out : Memory
  /-- `olen` (R24) -/
  olen : Nat
  /-- `MAXOUT` (R25) -/
  maxOut : Nat
  /-- latch `h0`, the first header byte (R27) -/
  h0 : Byte
  /-- latch `kind` (R27) -/
  kind : Kind
  /-- latch `len` (R27) -/
  len : Nat
  /-- latch `k`, the bytes of this command already appended (R27) -/
  k : Nat
  /-- latch `v`, the ByteFill value or SigmaFill seed (R27) -/
  v : Byte
  /-- latch `lo` of the WordFill pair (R27) -/
  lo : Byte
  /-- latch `hi` of the WordFill pair (R27) -/
  hi : Byte
  /-- latch `base`, negative when MinusCopy reaches before the output (R27, R127) -/
  base : Int
  /-- latch `xm`, the mask of a copy (R27) -/
  xm : Byte
  /-- `DSTATUS.stop`; `none` is "not valid" (R28) -/
  stop : Option StopReason
  /-- `DSTATUS.cause`; `none` is code 0, "not valid" (R28, R254) -/
  cause : Option Cause
  /-- `DSTATUS.info`; `none` is "not valid" (R28, R256) -/
  info : Option Int
deriving DecidableEq, Repr

/-- `cand[0 .. 4]`, in the fixed enumeration order of the finders (R34). -/
structure Candidates where
  /-- finder 0, ByteFill or SigmaFill (R194) -/
  byteSigma : Candidate
  /-- finder 1 (R195) -/
  word : Candidate
  /-- finder 2 (R197) -/
  library : Candidate
  /-- finder 3 (R198) -/
  xor : Candidate
  /-- finder 4 (R199) -/
  minus : Candidate
deriving DecidableEq, Repr

/-- The Encoder (R29 to R35). -/
structure Encoder where
  /-- control state `estate` (R33) -/
  estate : EState
  /-- `SRC`, the source buffer (R29) -/
  src : Memory
  /-- `n`, the source length (R29) -/
  n : Nat
  /-- `cur`, the cursor (R30) -/
  cur : Nat
  /-- `lit`, the pending literal run; `litlen` is its length (R31) -/
  lit : List Byte
  /-- `C`, the compressed output (R32) -/
  comp : Memory
  /-- `clen` (R32) -/
  clen : Nat
  /-- the five finder results of the current iteration (R34) -/
  cand : Candidates
  /-- the selected candidate (R34) -/
  best : Candidate
deriving DecidableEq, Repr

/-- A start the Host gives (R36, R38), with the operands it supplies. -/
inductive HostCommand where
  /-- `Decode(S, MAXOUT)` (R36) -/
  | startDecode (stream : List Byte) (maxOut : Nat)
  /-- `Encode(SRC)` (R38) -/
  | startEncode (source : List Byte)
deriving DecidableEq, Repr

/-- The two engines (R21). -/
inductive Engine where
  | decoder
  | encoder
deriving DecidableEq, Repr

/-- Faults that would stop the machine: there are none. A decode failure is a NEXT state with
`dstate = fault` (R256), the Encoder has no failure (R261), and no rule names another stop, so no
step raises one (safe: nothing is claimed of a stop). -/
inductive Fault where
deriving DecidableEq, Repr

/-- What the model has no next state for: nothing. A call that R80 refuses at its start is a NEXT state,
in which that start is taken off and recorded (log entry 7). -/
inductive Refusal where
  /-- raised by `exec` for an instruction not modelled yet; no arm does so (safe) -/
  | notModelled (mnemonic : String)
deriving DecidableEq, Repr

/-- The whole block: two engines that share nothing (R21), and the Host's pending starts. -/
structure State where
  /-- the Decoder -/
  dec : Decoder
  /-- the Encoder -/
  enc : Encoder
  /-- the Host's starts not yet given, oldest first; the model's own field (log entry 8) -/
  host : List HostCommand
  /-- the starts R80 refused, oldest first: the Host's answer to them; the model's own field
  (log entry 7) -/
  refused : List HostCommand
  /-- which engine moves when both can; the model's own field (log entry 9) -/
  turn : Engine
  /-- how many times free values were drawn; the model's own field (log entry 5) -/
  draws : Nat
deriving DecidableEq, Repr

/-- The Decoder after hardware reset: `Idle` (R280); every other value is one the spec leaves
unspecified and log entry 4 names. -/
def Decoder.reset : Decoder where
  dstate := .idle
  stream := []
  slen := 0
  sp := 0
  out := []
  olen := 0
  maxOut := 0
  h0 := 0
  kind := .directCopy
  len := 0
  k := 0
  v := 0
  lo := 0
  hi := 0
  base := 0
  xm := 0
  stop := none
  cause := none
  info := none

/-- The Encoder after hardware reset: `Idle` (R280); the rest as log entry 4 names it. -/
def Encoder.reset : Encoder where
  estate := .idle
  src := []
  n := 0
  cur := 0
  lit := []
  comp := []
  clen := 0
  cand := ⟨.empty, .empty, .empty, .empty, .empty⟩
  best := .empty

/-- The machine right after hardware reset (R42, R280). -/
def State.reset : State where
  dec := Decoder.reset
  enc := Encoder.reset
  host := []
  refused := []
  turn := .decoder
  draws := 0

end Sys2Proof.Machine
end

