-- ==== Sys2Proof/Machine/Ops.lean ====
section
/-! DEFINITION. The named operations: memory, the Decoder's stream read, output read and append, the
end of a call and fault entry, the Encoder's append, and the start of a call (R11, R36, R38, R256). -/

namespace Sys2Proof.Machine

/-! ### The byte spaces -/

/-- What an address that memory does not list reads as. No step looks at an address at or past its
space's length, so only bytes that were written as zero are read this way (log entry 6). -/
def Memory.unlisted : Byte := 0

/-- One byte of a space. -/
def Memory.read : Memory → Nat → Byte
  | [], _ => Memory.unlisted
  | (a, b) :: m, x => if a = x then b else Memory.read m x

/-- A space without address `x`. -/
def Memory.erase (m : Memory) (x : Nat) : Memory :=
  m.filter fun c => c.1 ≠ x

/-- A space with one pair put before the first greater address. -/
def Memory.insert : Memory → Nat → Byte → Memory
  | [], x, b => [(x, b)]
  | (a, c) :: m, x, b => if x < a then (x, b) :: (a, c) :: m else (a, c) :: Memory.insert m x b

/-- One byte written; a byte equal to what an unlisted address reads as is not listed. -/
def Memory.write (m : Memory) (x : Nat) (b : Byte) : Memory :=
  if b = Memory.unlisted then m.erase x else (m.erase x).insert x b

/-- Bytes written one after the other from address `x`. -/
def Memory.load (m : Memory) (x : Nat) : List Byte → Memory
  | [] => m
  | b :: bs => (m.write x b).load (x + 1) bs

/-- A space that holds a byte sequence from address 0. -/
def Memory.ofBytes (bs : List Byte) : Memory :=
  Memory.load [] 0 bs

/-- The bytes from address `x`, `count` of them. -/
def Memory.slice (m : Memory) (x count : Nat) : List Byte :=
  (List.range' x count).map m.read

/-- The part of a space below address `x`. -/
def Memory.below (m : Memory) (x : Nat) : Memory :=
  m.filter fun c => c.1 < x

/-- The canonical form: addresses strictly rising, nothing listed that an unlisted address reads as. -/
abbrev Memory.wf (m : Memory) : Prop :=
  m.Pairwise (fun p q => p.1 < q.1) ∧ ∀ c ∈ m, c.2 ≠ Memory.unlisted

/-- Nothing is listed at or past a length. -/
abbrev Memory.within (m : Memory) (len : Nat) : Prop :=
  ∀ c ∈ m, c.1 < len

/-! ### The Decoder: end of a call -/

/-- Fault entry, `raise E(info)`: cause, info and control state, nothing else (R256). There is no
return from a fault (R257): the way on is a new start. -/
def Decoder.raise (d : Decoder) (cause : Cause) (info : Int) : Decoder :=
  { d with cause := some cause, info := some info, dstate := .fault }

/-- The normal end of a call, at the terminator or at the cap (R122, R128, R130). -/
def Decoder.finish (d : Decoder) (reason : StopReason) : Decoder :=
  { d with stop := some reason, dstate := .done }

/-! ### The Decoder: reading and appending -/

/-- The stream pointer moved past one byte (R11, R23). -/
def Decoder.advance (d : Decoder) : Decoder :=
  { d with sp := d.sp + 1 }

/-- `StreamRead()`, and what is done with the byte; past the end it raises `BufferUnderrun(sp)`
and the pointer stays (R11, R76, R251). -/
def Decoder.fetchByte (d : Decoder) (next : Byte → Decoder → Decoder) : Decoder :=
  if d.sp < d.slen then next (d.stream.read d.sp) d.advance else d.raise .bufferUnderrun d.sp

/-- `OutRead(i)`, and what is done with the byte; an index that is negative or not below `olen`
raises `InvalidBackReference(i)` (R11, R79, R253). -/
def Decoder.outRead (d : Decoder) (i : Int) (next : Byte → Decoder) : Decoder :=
  if i < 0 ∨ d.olen ≤ i then d.raise .invalidBackReference i else next (d.out.read i.toNat)

/-- `Emit(b)`: the byte is appended at `olen` (R11, R24). -/
def Decoder.emit (d : Decoder) (b : Byte) : Decoder :=
  { d with out := d.out.write d.olen b, olen := d.olen + 1 }

/-- `k <- k + 1` (R128). -/
def Decoder.countByte (d : Decoder) : Decoder :=
  { d with k := d.k + 1 }

/-! ### The Decoder: latches -/

/-- Kind and length latched, on to `Execute` (R124, R125). -/
def Decoder.latchHeader (d : Decoder) (kind : Kind) (len : Nat) : Decoder :=
  { d with kind := kind, len := len, dstate := .execute }

/-- `k <- 0` on entry to `Execute` (R127). -/
def Decoder.clearCount (d : Decoder) : Decoder :=
  { d with k := 0 }

/-- The fill value or seed latched (R127). -/
def Decoder.latchValue (d : Decoder) (v : Byte) : Decoder :=
  { d with v := v }

/-- The first byte of the pair latched (R127). -/
def Decoder.latchLo (d : Decoder) (b : Byte) : Decoder :=
  { d with lo := b }

/-- The second byte of the pair latched (R127). -/
def Decoder.latchHi (d : Decoder) (b : Byte) : Decoder :=
  { d with hi := b }

/-- Copy start and mask latched (R127). -/
def Decoder.latchCopy (d : Decoder) (base : Int) (xm : Byte) : Decoder :=
  { d with base := base, xm := xm }

/-- The command has appended all its bytes: back to `ReadHeader` (R129). -/
def Decoder.complete (d : Decoder) : Decoder :=
  { d with dstate := .readHeader }

/-! ### The Encoder -/

/-- `Put(b)`: the byte is appended at `clen` (R11, R32). -/
def Encoder.put (e : Encoder) (b : Byte) : Encoder :=
  { e with comp := e.comp.write e.clen b, clen := e.clen + 1 }

/-- Bytes put one after the other. -/
def Encoder.putAll (e : Encoder) : List Byte → Encoder
  | [] => e
  | b :: bs => (e.put b).putAll bs

/-! ### Starts -/

/-- The Decoder at a decode start (R36, R42, R121, R281): stream and cap are the Host's operands,
the pointers are 0, OUT is empty, the status is cleared. The latches are unspecified, so each is a
free value drawn at `draws` (log entry 5). -/
def Decoder.start (stream : List Byte) (maxOut draws : Nat) : Decoder where
  dstate := .readHeader
  stream := Memory.ofBytes stream
  slen := stream.length
  sp := 0
  out := []
  olen := 0
  maxOut := maxOut
  h0 := Config.freeByte (5 * draws)
  kind := Config.freeKind draws
  len := (Config.freeCount (2 * draws)).toNat
  k := (Config.freeCount (2 * draws + 1)).toNat
  v := Config.freeByte (5 * draws + 1)
  lo := Config.freeByte (5 * draws + 2)
  hi := Config.freeByte (5 * draws + 3)
  base := Config.freeIndex draws
  xm := Config.freeByte (5 * draws + 4)
  stop := none
  cause := none
  info := none

/-- The Encoder at an encode start (R38, R42, R221, R282). The candidate records are unspecified, so
each is a free value drawn at `draws` (log entry 5). -/
def Encoder.start (source : List Byte) (draws : Nat) : Encoder where
  estate := .scan
  src := Memory.ofBytes source
  n := source.length
  cur := 0
  lit := []
  comp := []
  clen := 0
  cand := {
    byteSigma := Config.freeCandidate (6 * draws)
    word := Config.freeCandidate (6 * draws + 1)
    library := Config.freeCandidate (6 * draws + 2)
    xor := Config.freeCandidate (6 * draws + 3)
    minus := Config.freeCandidate (6 * draws + 4) }
  best := Config.freeCandidate (6 * draws + 5)

/-! ### The whole state -/

/-- A Decoder operation on the whole state; the rest is not touched (R21). -/
def State.onDec (s : State) (f : Decoder → Decoder) : State :=
  { s with dec := f s.dec }

end Sys2Proof.Machine
end

