-- ==== Sys2Proof/Machine/Operands.lean ====
section
/-! DEFINITION. The operand forms (R97, R127): each reads its bytes from STREAM in order, latches
them and goes on; a missing byte raises `BufferUnderrun`. Operand bytes are always fetched in full. -/

namespace Sys2Proof.Machine

/-- One byte `v`: ByteFill's value, SigmaFill's seed (R127). -/
def Decoder.fetchValue (d : Decoder) (next : Decoder → Decoder) : Decoder :=
  d.fetchByte fun b d => next (d.latchValue b)

/-- Two bytes `lo`, `hi`, in stream order, never assembled (R65, R127). -/
def Decoder.fetchPair (d : Decoder) (next : Decoder → Decoder) : Decoder :=
  d.fetchByte fun b d => (d.latchLo b).fetchByte fun b d => next (d.latchHi b)

/-- A 16-bit offset, little-endian: `b0 + 256·b1` (R64, R99). -/
def offsetOf (b0 b1 : Byte) : Nat :=
  b0.toNat + 256 * b1.toNat

/-- Two offset bytes, the absolute start and the mask of the copy latched (R127). -/
def Decoder.fetchOffset (d : Decoder) (xm : Byte) (next : Decoder → Decoder) : Decoder :=
  d.fetchByte fun b0 d => d.fetchByte fun b1 d => next (d.latchCopy (offsetOf b0 b1) xm)

/-- One distance byte `m`; the start is `olen − m` in the integers, `olen` as it stands when the
command starts (R100, R127). -/
def Decoder.fetchDistance (d : Decoder) (next : Decoder → Decoder) : Decoder :=
  d.fetchByte fun m d => next (d.latchCopy ((d.olen : Int) - m.toNat) 0)

end Sys2Proof.Machine
end

