-- ==== Sys2Proof/Machine/ByteLoop.lean ====
section
/-! DEFINITION. The byte loop all commands share (R128, R129), with the copy or literal multiplexer
that chooses the source of each byte. -/

namespace Sys2Proof.Machine

/-- Byte `k` of the command, from the stream, the fill latches or the output buffer (R128). -/
def Decoder.nextByte (d : Decoder) (next : Byte → Decoder → Decoder) : Decoder :=
  match d.kind with
  | .directCopy => d.fetchByte next
  | .byteFill => next d.v d
  | .wordFill => next (if d.k % 2 = 0 then d.lo else d.hi) d
  | .sigmaFill => next (d.v + BitVec.ofNat 8 d.k) d
  | .libraryCopy => d.outRead (d.base + d.k) fun b => next (b ^^^ d.xm) d
  | .xorCopy => d.outRead (d.base + d.k) fun b => next (b ^^^ d.xm) d
  | .minusCopy => d.outRead (d.base + d.k) fun b => next (b ^^^ d.xm) d

/-- `remaining` bytes, one at a time: the cap is tested before each byte, then the byte is obtained,
appended and counted (R128); after the last one the command is complete (R129). -/
def Decoder.byteLoop : Nat → Decoder → Decoder
  | 0, d => d.complete
  | remaining + 1, d =>
    if d.olen = d.maxOut then d.finish .cap
    else d.nextByte fun b d => Decoder.byteLoop remaining (d.emit b).countByte

/-- The loop over the latched length (R128). -/
def Decoder.copyAll (d : Decoder) : Decoder :=
  Decoder.byteLoop d.len d

end Sys2Proof.Machine
end

