-- ==== Sys2Proof/Machine/BackReference.lean ====
section
/-! DEFINITION. LibraryCopy, XorCopy and MinusCopy (42_backref_copy.md): the handler of each kind
from its entry to `Execute`, and the meaning of each of its two forms. -/

namespace Sys2Proof.Machine

/-- LibraryCopy: absolute offset, bytes unchanged (R171). -/
def Decoder.runLibraryCopy (d : Decoder) : Decoder :=
  d.clearCount.fetchOffset 0x00 Decoder.copyAll

/-- XorCopy: absolute offset, each byte complemented (R172). -/
def Decoder.runXorCopy (d : Decoder) : Decoder :=
  d.clearCount.fetchOffset 0xFF Decoder.copyAll

/-- MinusCopy: distance back from the frontier, bytes unchanged (R173). -/
def Decoder.runMinusCopy (d : Decoder) : Decoder :=
  d.clearCount.fetchDistance Decoder.copyAll

/-- LibraryCopy, format N (R124, R171). -/
def execLibraryCopy (len : Nat) (s : State) : Host.Outcome State Fault Refusal :=
  .next (s.onDec fun d => (d.latchHeader .libraryCopy len).runLibraryCopy)

/-- XorCopy, format N (R124, R172). -/
def execXorCopy (len : Nat) (s : State) : Host.Outcome State Fault Refusal :=
  .next (s.onDec fun d => (d.latchHeader .xorCopy len).runXorCopy)

/-- MinusCopy, format N (R124, R173). -/
def execMinusCopy (len : Nat) (s : State) : Host.Outcome State Fault Refusal :=
  .next (s.onDec fun d => (d.latchHeader .minusCopy len).runMinusCopy)

/-- LibraryCopy, format X (R125, R171). -/
def execLibraryCopyX (len : Nat) (s : State) : Host.Outcome State Fault Refusal :=
  .next (s.onDec fun d => (d.latchHeader .libraryCopy len).runLibraryCopy)

/-- XorCopy, format X (R125, R172). -/
def execXorCopyX (len : Nat) (s : State) : Host.Outcome State Fault Refusal :=
  .next (s.onDec fun d => (d.latchHeader .xorCopy len).runXorCopy)

/-- MinusCopy, format X (R125, R173). -/
def execMinusCopyX (len : Nat) (s : State) : Host.Outcome State Fault Refusal :=
  .next (s.onDec fun d => (d.latchHeader .minusCopy len).runMinusCopy)

end Sys2Proof.Machine
end

