-- ==== Sys2Proof/Machine/Flags.lean ====
section
/-! DEFINITION. Status. No command reads or writes a flag (R28); what the Host can read is the
engines' control state and DSTATUS, whose codes stand here (R28, R35, R254), and which control
states are busy or terminal (R26, R40). -/

namespace Sys2Proof.Machine

/-- The code of `DSTATUS.stop` (R28). -/
def StopReason.code : StopReason → Nat
  | .terminator => 1
  | .cap => 2

/-- The code of `DSTATUS.cause` (R254). -/
def Cause.code : Cause → Nat
  | .bufferUnderrun => 1
  | .invalidBackReference => 2
  | .invalidCommand => 3

/-- `DSTATUS.cause` as the Host reads it; 0 is "none" (R254). -/
def Decoder.causeCode (d : Decoder) : Nat :=
  match d.cause with
  | none => 0
  | some c => c.code

/-- A decode call is running (R40). -/
def Decoder.busy (d : Decoder) : Bool :=
  match d.dstate with
  | .readHeader => true
  | .readExt => true
  | .execute => true
  | .idle => false
  | .done => false
  | .fault => false

/-- A decode call has ended (R44). -/
def Decoder.ended (d : Decoder) : Bool :=
  match d.dstate with
  | .done => true
  | .fault => true
  | .idle => false
  | .readHeader => false
  | .readExt => false
  | .execute => false

/-- An encode call is running (R40). -/
def Encoder.busy (e : Encoder) : Bool :=
  match e.estate with
  | .scan => true
  | .idle => false
  | .done => false

end Sys2Proof.Machine
end

