-- ==== Sys2Proof/Machine/LiteralFill.lean ====
section
/-! DEFINITION. DirectCopy, ByteFill, WordFill and SigmaFill (41_literal_and_fill.md): the handler of
each kind from its entry to `Execute`, and the meaning of each of its two forms. -/

namespace Sys2Proof.Machine

/-- DirectCopy: no operand, the raw bytes are read in the loop (R151). -/
def Decoder.runDirectCopy (d : Decoder) : Decoder :=
  d.clearCount.copyAll

/-- ByteFill (R152). -/
def Decoder.runByteFill (d : Decoder) : Decoder :=
  d.clearCount.fetchValue Decoder.copyAll

/-- WordFill (R153). -/
def Decoder.runWordFill (d : Decoder) : Decoder :=
  d.clearCount.fetchPair Decoder.copyAll

/-- SigmaFill (R154). -/
def Decoder.runSigmaFill (d : Decoder) : Decoder :=
  d.clearCount.fetchValue Decoder.copyAll

/-- DirectCopy, format N (R124, R151). -/
def execDirectCopy (len : Nat) (s : State) : Host.Outcome State Fault Refusal :=
  .next (s.onDec fun d => (d.latchHeader .directCopy len).runDirectCopy)

/-- ByteFill, format N (R124, R152). -/
def execByteFill (len : Nat) (s : State) : Host.Outcome State Fault Refusal :=
  .next (s.onDec fun d => (d.latchHeader .byteFill len).runByteFill)

/-- WordFill, format N (R124, R153). -/
def execWordFill (len : Nat) (s : State) : Host.Outcome State Fault Refusal :=
  .next (s.onDec fun d => (d.latchHeader .wordFill len).runWordFill)

/-- SigmaFill, format N (R124, R154). -/
def execSigmaFill (len : Nat) (s : State) : Host.Outcome State Fault Refusal :=
  .next (s.onDec fun d => (d.latchHeader .sigmaFill len).runSigmaFill)

/-- DirectCopy, format X (R125, R151). -/
def execDirectCopyX (len : Nat) (s : State) : Host.Outcome State Fault Refusal :=
  .next (s.onDec fun d => (d.latchHeader .directCopy len).runDirectCopy)

/-- ByteFill, format X (R125, R152). -/
def execByteFillX (len : Nat) (s : State) : Host.Outcome State Fault Refusal :=
  .next (s.onDec fun d => (d.latchHeader .byteFill len).runByteFill)

/-- WordFill, format X (R125, R153). -/
def execWordFillX (len : Nat) (s : State) : Host.Outcome State Fault Refusal :=
  .next (s.onDec fun d => (d.latchHeader .wordFill len).runWordFill)

/-- SigmaFill, format X (R125, R154). -/
def execSigmaFillX (len : Nat) (s : State) : Host.Outcome State Fault Refusal :=
  .next (s.onDec fun d => (d.latchHeader .sigmaFill len).runSigmaFill)

end Sys2Proof.Machine
end

