-- ==== Sys2Proof/Machine/Control.lean ====
section
/-! DEFINITION. Decoder control (40_decoder_control.md): the terminator, the reserved first bytes,
the dispatch by kind, and the fetch of a header at the stream pointer. -/

namespace Sys2Proof.Machine

/-- A reserved first byte: the extension byte is read first, then `InvalidCommand(h0)` (R126, R252). -/
def Decoder.runReserved (d : Decoder) (h0 : Byte) : Decoder :=
  d.fetchByte fun _ d => d.raise .invalidCommand h0.toNat

/-- The reserved first byte `0xFC` (R101, R126). -/
def execReservedFC (s : State) : Host.Outcome State Fault Refusal :=
  .next (s.onDec fun d => d.runReserved 0xFC)

/-- The reserved first byte `0xFD` (R101, R126). -/
def execReservedFD (s : State) : Host.Outcome State Fault Refusal :=
  .next (s.onDec fun d => d.runReserved 0xFD)

/-- The reserved first byte `0xFE` (R101, R126). -/
def execReservedFE (s : State) : Host.Outcome State Fault Refusal :=
  .next (s.onDec fun d => d.runReserved 0xFE)

/-- END: the call ends at the terminator (R130). -/
def execEndOfStream (s : State) : Host.Outcome State Fault Refusal :=
  .next (s.onDec fun d => d.finish .terminator)

/-- The dispatch on the latched kind, on entry to `Execute` (R127). -/
def Decoder.execute (d : Decoder) : Decoder :=
  match d.kind with
  | .directCopy => d.runDirectCopy
  | .byteFill => d.runByteFill
  | .wordFill => d.runWordFill
  | .sigmaFill => d.runSigmaFill
  | .libraryCopy => d.runLibraryCopy
  | .xorCopy => d.runXorCopy
  | .minusCopy => d.runMinusCopy

/-- What a fetch leads to. -/
inductive Fetched where
  /-- the move is complete: the call ended, or nothing was to be fetched -/
  | settled (d : Decoder)
  /-- a command to execute, with the Decoder past its header -/
  | command (i : Instr) (d : Decoder)
deriving DecidableEq, Repr

/-- The next `count` stream bytes, or as many as are left. -/
def Decoder.window (d : Decoder) (count : Nat) : List Byte :=
  d.stream.slice d.sp (min count (d.slen - d.sp))

/-- The Decoder past a header of `size` bytes, the first of them latched; an escape has sent it to
`ReadExt` (R123, R125). -/
def Decoder.takeHeader (d : Decoder) (size : Nat) : Decoder :=
  { d with
    h0 := d.stream.read d.sp
    sp := d.sp + size
    dstate := if escapes (d.stream.read d.sp) then .readExt else d.dstate }

/-- `ReadHeader` (R122, R123): the cap is tested before anything is fetched; then the header is
decoded at the stream pointer. A missing first byte, or a missing extension byte, is a
`BufferUnderrun` at the pointer of the failed read. -/
def Decoder.fetchHeader (d : Decoder) : Fetched :=
  if d.olen = d.maxOut then .settled (d.finish .cap)
  else
    match decode (d.window 2) with
    | .error .noHeader => .settled (d.raise .bufferUnderrun d.sp)
    | .error (.noExtension _) =>
      .settled ((d.takeHeader 1).raise .bufferUnderrun ((d.sp + 1 : Nat) : Int))
    | .ok (i, _) => .command i (d.takeHeader (headerSize i))

/-- `ReadExt` (R125), when a step begins there: `h0` is latched, its extension byte is next. -/
def Decoder.fetchExtension (d : Decoder) : Fetched :=
  match decodeExtended d.h0 (d.window 1) with
  | .error _ => .settled (d.raise .bufferUnderrun d.sp)
  | .ok (i, _) => .command i { d with sp := d.sp + (headerSize i - 1) }

/-- The Decoder's next move from each control state (R120). `Execute` at the beginning of a step is
its entry (log entry 3); without a running call nothing moves. -/
def Decoder.fetch (d : Decoder) : Fetched :=
  match d.dstate with
  | .readHeader => d.fetchHeader
  | .readExt => d.fetchExtension
  | .execute => .settled d.execute
  | .idle => .settled d
  | .done => .settled d
  | .fault => .settled d

end Sys2Proof.Machine
end

