-- ==== Sys2Proof/Machine/Dispatch.lean ====
section
/-! DEFINITION. The meaning of every command, one arm per row of the opcode table (R96). A meaning
starts from the Decoder past the command's header. -/

namespace Sys2Proof.Machine

def exec (i : Instr) (s : State) : Host.Outcome State Fault Refusal :=
  match i with
  | .directCopy len => Sys2Proof.Machine.execDirectCopy len s
  | .byteFill len => Sys2Proof.Machine.execByteFill len s
  | .wordFill len => Sys2Proof.Machine.execWordFill len s
  | .sigmaFill len => Sys2Proof.Machine.execSigmaFill len s
  | .libraryCopy len => Sys2Proof.Machine.execLibraryCopy len s
  | .xorCopy len => Sys2Proof.Machine.execXorCopy len s
  | .minusCopy len => Sys2Proof.Machine.execMinusCopy len s
  | .directCopyX len => Sys2Proof.Machine.execDirectCopyX len s
  | .byteFillX len => Sys2Proof.Machine.execByteFillX len s
  | .wordFillX len => Sys2Proof.Machine.execWordFillX len s
  | .sigmaFillX len => Sys2Proof.Machine.execSigmaFillX len s
  | .libraryCopyX len => Sys2Proof.Machine.execLibraryCopyX len s
  | .xorCopyX len => Sys2Proof.Machine.execXorCopyX len s
  | .minusCopyX len => Sys2Proof.Machine.execMinusCopyX len s
  | .reservedFC => Sys2Proof.Machine.execReservedFC s
  | .reservedFD => Sys2Proof.Machine.execReservedFD s
  | .reservedFE => Sys2Proof.Machine.execReservedFE s
  | .endOfStream => Sys2Proof.Machine.execEndOfStream s

end Sys2Proof.Machine
end

