-- ==== Sys2Proof/Machine/Finders.lean ====
section
/-! DEFINITION. The five match finders (43_match_finders.md): pure functions of the source bytes,
the source length `n` and the cursor `c` (R190). -/

namespace Sys2Proof.Machine

/-- `MAXRUN`: the cap of a candidate's length and of the literal run (R7). -/
def maxRun : Nat := 1023

/-- How many start positions a 16-bit offset can name (R7, R197, D15). -/
def offsetReach : Nat := 65536

/-- `MINUS_REACH`: the greatest distance of a MinusCopy (R7). -/
def minusReach : Nat := 255

/-- `MIN_WORD` (R7, R195). -/
def minWord : Nat := 4

/-- `MIN_LIB` (R7, R197). -/
def minLibrary : Nat := 3

/-- `MIN_XOR` (R7, R198). -/
def minXor : Nat := 3

/-- `MIN_MINUS` (R7, R199). -/
def minMinus : Nat := 2

/-- `lim = min(1023, n − c)`, the greatest length of a candidate (R192). -/
def runLimit (n c : Nat) : Nat :=
  min maxRun (n - c)

/-- "while the next position fits, extend": at most `fuel` more positions from length `len`. -/
def extendWhile (fits : Nat → Bool) : Nat → Nat → Nat
  | 0, len => len
  | fuel + 1, len => if fits len then extendWhile fits fuel (len + 1) else len

/-- A non-empty candidate covers the source bytes from the cursor (R191). -/
def candidateAt (src : Nat → Byte) (c : Nat) (kind : Kind) (len backOffset : Nat) : Candidate :=
  .found kind len ((List.range' c len).map src) backOffset

/-- Finder 0, ByteFill or SigmaFill: the pair at the cursor fixes the mode; the increment is an
integer sum and does not wrap (R194). -/
def byteSigmaFinder (src : Nat → Byte) (n c : Nat) : Candidate :=
  if n ≤ c + 1 then .empty
  else if src (c + 1) = src c then
    candidateAt src c .byteFill
      (extendWhile (fun len => src (c + len) = src (c + len - 1)) (runLimit n c - 2) 2) 0
  else if (src (c + 1)).toNat = (src c).toNat + 1 then
    candidateAt src c .sigmaFill
      (extendWhile (fun len => (src (c + len)).toNat = (src (c + len - 1)).toNat + 1)
        (runLimit n c - 2) 2) 0
  else .empty

/-- Finder 1, WordFill: bytes that match their counterpart two positions back, in total at least
one full extra pair (R195). -/
def wordFinder (src : Nat → Byte) (n c : Nat) : Candidate :=
  if n ≤ c + 1 then .empty
  else
    let len := extendWhile (fun len => src (c + len) = src (c + len - 2)) (runLimit n c - 2) 2
    if len < minWord then .empty else candidateAt src c .wordFill len 0

/-- The match length from start `j` under mask `x` (R196). -/
def matchLength (src : Nat → Byte) (n c : Nat) (x : Byte) (j : Nat) : Nat :=
  extendWhile (fun k => src (j + k) ^^^ x = src (c + k)) (runLimit n c) 0

/-- The backward search over the starts `lowest + count − 1` down to `lowest`: a strictly longer
match replaces the best one, so that ties keep the rightmost start (R197). The pair is start and
length. -/
def searchBack (lengthAt : Nat → Nat) (lowest : Nat) : Nat → Nat × Nat → Nat × Nat
  | 0, best => best
  | count + 1, best =>
    searchBack lengthAt lowest count
      (if best.2 < lengthAt (lowest + count) then (lowest + count, lengthAt (lowest + count)) else best)

/-- Finder 2, LibraryCopy: starts `min(c − 1, 65535)` down to 0 (R197). -/
def libraryFinder (src : Nat → Byte) (n c : Nat) : Candidate :=
  let best := searchBack (matchLength src n c 0x00) 0 (min c offsetReach) (0, 0)
  if best.2 < minLibrary then .empty else candidateAt src c .libraryCopy best.2 best.1

/-- Finder 3, XorCopy: the same search against the complement (R198). -/
def xorFinder (src : Nat → Byte) (n c : Nat) : Candidate :=
  let best := searchBack (matchLength src n c 0xFF) 0 (min c offsetReach) (0, 0)
  if best.2 < minXor then .empty else candidateAt src c .xorCopy best.2 best.1

/-- Finder 4, MinusCopy: starts `c − 1` down to `max(0, c − 255)`; the candidate carries the
distance (R199). -/
def minusFinder (src : Nat → Byte) (n c : Nat) : Candidate :=
  let best := searchBack (matchLength src n c 0x00) (c - minusReach) (min c minusReach) (0, 0)
  if best.2 < minMinus then .empty else candidateAt src c .minusCopy best.2 (c - best.1)

/-- All five results for one cursor; the join of R223. -/
def findAll (src : Nat → Byte) (n c : Nat) : Candidates where
  byteSigma := byteSigmaFinder src n c
  word := wordFinder src n c
  library := libraryFinder src n c
  xor := xorFinder src n c
  minus := minusFinder src n c

/-- The later candidate replaces the best one only when strictly longer (R224). -/
def longer (best later : Candidate) : Candidate :=
  if best.length < later.length then later else best

/-- The greedy selector: the strictly longest candidate, ties to the earliest finder (R224). -/
def selectBest (cand : Candidates) : Candidate :=
  longer (longer (longer (longer cand.byteSigma cand.word) cand.library) cand.xor) cand.minus

end Sys2Proof.Machine
end

