-- ==== Sys2Proof/Machine/EncoderLoop.lean ====
section
/-! DEFINITION. The Encoder (44_encoder.md): cap flush, evaluation, selection, literal run, emission
in the canonical form of R105, and the end of the call. -/

namespace Sys2Proof.Machine

/-- `EmitHeader(t, L)`: format N for `L − 1 ≤ 31`, else format X, as R105 writes it. -/
def headerBytes (kind : Kind) (len : Nat) : List Byte :=
  let val := len - 1
  if val ≤ 31 then [BitVec.ofNat 8 (kind.tag.toNat <<< 5 ||| val)]
  else [BitVec.ofNat 8 (0xE0 ||| kind.tag.toNat <<< 2 ||| val >>> 8), BitVec.ofNat 8 (val &&& 0xFF)]

/-- The payload bytes of a candidate's command, by kind, in stream order (R230). The Encoder makes
no candidate of kind DirectCopy (R191): its payload is the literal run's business (R228). -/
def payloadBytes (src : Nat → Byte) (cur : Nat) (kind : Kind) (backOffset : Nat) : List Byte :=
  match kind with
  | .directCopy => []
  | .byteFill => [src cur]
  | .sigmaFill => [src cur]
  | .wordFill => [src cur, src (cur + 1)]
  | .libraryCopy => [BitVec.ofNat 8 (backOffset &&& 0xFF), BitVec.ofNat 8 (backOffset >>> 8)]
  | .xorCopy => [BitVec.ofNat 8 (backOffset &&& 0xFF), BitVec.ofNat 8 (backOffset >>> 8)]
  | .minusCopy => [BitVec.ofNat 8 backOffset]

/-- The bytes of one candidate's command: header, then payload (R229, R230). -/
def candidateBytes (src : Nat → Byte) (cur : Nat) : Candidate → List Byte
  | .empty => []
  | .found kind len _ backOffset => headerBytes kind len ++ payloadBytes src cur kind backOffset

/-- The bytes of a literal run's command (R228). -/
def literalBytes (lit : List Byte) : List Byte :=
  headerBytes .directCopy lit.length ++ lit

/-- `Flush()`: the pending run is put as one DirectCopy and emptied; an empty run puts nothing
(R228). -/
def Encoder.flush (e : Encoder) : Encoder :=
  if e.lit = [] then e else { e.putAll (literalBytes e.lit) with lit := [] }

/-- Step 1: a literal run at its cap is flushed (R222). -/
def Encoder.capFlush (e : Encoder) : Encoder :=
  if e.lit.length = maxRun then e.flush else e

/-- Step 2: the five finders at the cursor (R223). -/
def Encoder.evaluate (e : Encoder) : Encoder :=
  { e with cand := findAll e.src.read e.n e.cur }

/-- The selection (R224). -/
def Encoder.select (e : Encoder) : Encoder :=
  { e with best := selectBest e.cand }

/-- Step 3: the source byte joins the literal run (R225). -/
def Encoder.takeLiteral (e : Encoder) : Encoder :=
  { e with lit := e.lit ++ [e.src.read e.cur], cur := e.cur + 1 }

/-- `EmitCandidate(best)` (R230). -/
def Encoder.emitBest (e : Encoder) : Encoder :=
  e.putAll (candidateBytes e.src.read e.cur e.best)

/-- The cursor moved past the emitted candidate (R226). -/
def Encoder.skipBest (e : Encoder) : Encoder :=
  { e with cur := e.cur + e.best.length }

/-- Step 3 or step 4, as the selected length says (R225, R226): the flush comes before the
candidate's command. -/
def Encoder.commit (e : Encoder) : Encoder :=
  if e.best.length = 0 then e.takeLiteral else e.flush.emitBest.skipBest

/-- One iteration of `Scan` with `cur < n` (R222 to R226). -/
def Encoder.iterate (e : Encoder) : Encoder :=
  e.capFlush.evaluate.select.commit

/-- Step 5, the end of input: the remaining run, then the terminator (R227). -/
def Encoder.finish (e : Encoder) : Encoder :=
  { e.flush.put 0xFF with estate := .done }

/-- The Encoder's next move (R220). -/
def Encoder.move (e : Encoder) : Encoder :=
  match e.estate with
  | .scan => if e.cur < e.n then e.iterate else e.finish
  | .idle => e
  | .done => e

end Sys2Proof.Machine
end

