-- ==== Sys2Proof/Machine/HostMoves.lean ====
section
/-! DEFINITION. The Host: the starts it gives (R36, R38, R40, R80), the results it reads (R37, R39,
R258), and which agent moves next. -/

namespace Sys2Proof.Machine

/-- A size the implementation's pointers can hold (R8, R80). -/
def addressable (size : Nat) : Bool :=
  match Config.addressWidth with
  | none => true
  | some width => size < 2 ^ width

/-- A call whose sizes the implementation can hold: `SLEN` and `MAXOUT`, or `n` and `2·n + 1` (R8,
R80, D16). -/
def HostCommand.fits : HostCommand → Bool
  | .startDecode stream maxOut => addressable stream.length && addressable maxOut
  | .startEncode source => addressable source.length && addressable (2 * source.length + 1)

/-- A start is admitted when its engine runs no call (R36, R38, R40). -/
def State.admits (s : State) : HostCommand → Bool
  | .startDecode _ _ => !s.dec.busy
  | .startEncode _ => !s.enc.busy

/-- The oldest pending start, if it is admitted now. -/
def State.readyCommand (s : State) : Option HostCommand :=
  match s.host with
  | [] => none
  | c :: _ => if s.admits c then some c else none

/-- A decode start (R36, R121). -/
def State.startDecode (s : State) (stream : List Byte) (maxOut : Nat) : State :=
  { s with dec := Decoder.start stream maxOut s.draws, draws := s.draws + 1 }

/-- An encode start (R38, R221). -/
def State.startEncode (s : State) (source : List Byte) : State :=
  { s with enc := Encoder.start source s.draws, draws := s.draws + 1 }

/-- The effect of a start. -/
def State.begin (s : State) : HostCommand → State
  | .startDecode stream maxOut => s.startDecode stream maxOut
  | .startEncode source => s.startEncode source

/-- The oldest pending start taken off the Host's list. -/
def State.popStart (s : State) : State :=
  { s with host := s.host.tail }

/-- A start refused (R80): it does not run, and it is recorded for the Host. -/
def State.refuseStart (s : State) (c : HostCommand) : State :=
  { s with refused := s.refused ++ [c] }

/-- The Host gives its oldest pending start; a call too large is refused at the start (R80). What a
refusal does beside that is the model's choice (log entry 7): only that call is refused, both engines
keep their state and a running call goes on, and the later starts stay pending. -/
def State.hostMove (s : State) (c : HostCommand) : State :=
  if c.fits then s.popStart.begin c else s.popStart.refuseStart c

/-- Which engine moves: the one whose turn it is, or the other when only that one runs a call
(log entry 9). -/
def State.mover (s : State) : Option Engine :=
  match s.dec.busy, s.enc.busy with
  | true, true => some s.turn
  | true, false => some .decoder
  | false, true => some .encoder
  | false, false => none

/-- The turn handed on. -/
def State.handTo (s : State) (engine : Engine) : State :=
  { s with turn := engine }

/-- The Encoder's move on the whole state; the turn goes to the Decoder. -/
def State.encoderMove (s : State) : State :=
  { s with enc := s.enc.move, turn := .decoder }

/-- What a decode call returns (R37, R134, R258): nothing yet, the bytes, or the failure alone. -/
def Decoder.result (d : Decoder) : Option (Except Cause (List Byte)) :=
  match d.dstate, d.cause with
  | .done, _ => some (.ok (d.out.slice 0 d.olen))
  | .fault, some c => some (.error c)
  | _, _ => none

/-- What an encode call returns (R39): the compressed bytes once it is done. -/
def Encoder.result (e : Encoder) : Option (List Byte) :=
  match e.estate with
  | .done => some (e.comp.slice 0 e.clen)
  | .scan => none
  | .idle => none

/-- The Decoder with a header and zero payload bytes at its stream pointer, in `ReadHeader` and with
room for the longest command below the cap: what a load from outside sets (log entry 13). -/
def Decoder.loadHeader (d : Decoder) (header : List Byte) : Decoder :=
  { d with
    dstate := .readHeader
    stream := (d.stream.below d.sp).load d.sp header
    slen := d.sp + longestCommand
    maxOut := d.olen + 1024 }

/-- A state in which the Decoder moves next and fetches the given header. -/
def State.loadHeader (s : State) (header : List Byte) : State :=
  { s with dec := s.dec.loadHeader header, host := [], turn := .decoder }

end Sys2Proof.Machine
end

