-- ==== Sys2Proof/Machine/Step.lean ====
section
/-! DEFINITION. One step of the block: a start of the Host that can be given now, else a move of an
engine that runs a call, else nothing (R20, R40, R120, R220). -/

namespace Sys2Proof.Machine

/-- The Decoder's move: fetch, then the command. The turn goes to the Encoder first, so that the
command's own outcome is the step's. -/
def decoderMove (s : State) : Host.Outcome State Fault Refusal :=
  match s.dec.fetch with
  | .settled d => .next { s.handTo .encoder with dec := d }
  | .command i d => exec i { s.handTo .encoder with dec := d }

/-- One step. With no start to give and no call running nothing changes (R120, log entry 10). -/
def step (s : State) : Host.Outcome State Fault Refusal :=
  match s.readyCommand with
  | some c => .next (s.hostMove c)
  | none =>
    match s.mover with
    | some .decoder => decoderMove s
    | some .encoder => .next s.encoderMove
    | none => .next s

/-- A state in which the next step fetches and runs the command of an opcode-table word, its payload
bytes zero (log entry 13). -/
def State.withFetchWord (s : State) (nbits w : Nat) : State :=
  s.loadHeader (tableBytes nbits w)

end Sys2Proof.Machine
end

