-- ==== Sys2Proof/Safety.lean ====
section
/-! DEFINITION. What the statements say of states and values: bytes appended to a space, the
invariant of each engine, and the validity contract of the finders (R193). -/

namespace Sys2Proof.Machine

/-! ### Bytes appended -/

/-- `m'` is `m` with `count` bytes written from address `first`, byte `j` of them `byte j`, and every
other address reading as before. -/
structure Memory.Appended (m m' : Memory) (first count : Nat) (byte : Nat → Byte) : Prop where
  /-- the appended bytes -/
  new : ∀ j < count, m'.read (first + j) = byte j
  /-- the rest of the space -/
  old : ∀ a, a < first ∨ first + count ≤ a → m'.read a = m.read a

/-! ### The Decoder's invariant -/

/-- DSTATUS is valid exactly as R28 says: `stop` in `Done`, `cause` and `info` in `Fault`, none of
them elsewhere; and a stop at the cap means `olen = MAXOUT` (R131). -/
def Decoder.StatusInv (d : Decoder) : Prop :=
  match d.dstate with
  | .done => d.stop ≠ none ∧ d.cause = none ∧ d.info = none ∧ (d.stop = some .cap → d.olen = d.maxOut)
  | .fault => d.stop = none ∧ d.cause ≠ none ∧ d.info ≠ none
  | .idle => d.stop = none ∧ d.cause = none ∧ d.info = none
  | .readHeader => d.stop = none ∧ d.cause = none ∧ d.info = none
  | .readExt => d.stop = none ∧ d.cause = none ∧ d.info = none
  | .execute => d.stop = none ∧ d.cause = none ∧ d.info = none

/-- What every Decoder state keeps. -/
structure Decoder.Inv (d : Decoder) : Prop where
  /-- STREAM is in canonical form -/
  streamWf : d.stream.wf
  /-- nothing of STREAM is listed at or past `SLEN` -/
  streamWithin : d.stream.within d.slen
  /-- OUT is in canonical form -/
  outWf : d.out.wf
  /-- OUT is a sequence of length `olen` (U4) -/
  outWithin : d.out.within d.olen
  /-- `sp ≤ SLEN` (R23) -/
  pointer : d.sp ≤ d.slen
  /-- `olen ≤ MAXOUT` (R24, R131) -/
  cap : d.olen ≤ d.maxOut
  /-- DSTATUS (R28) -/
  status : d.StatusInv

/-! ### The Encoder's invariant -/

/-- The size bound of R234, and how a call ends (R44): before the end the bytes put cost at most two
for each source byte they cover; at the end `cur = n`, the literal run is empty and the terminator
has been put. -/
def Encoder.SizeInv (e : Encoder) : Prop :=
  match e.estate with
  | .done => e.clen ≤ 2 * e.n + 1 ∧ e.cur = e.n ∧ e.lit = [] ∧ 1 ≤ e.clen ∧
      e.comp.read (e.clen - 1) = 0xFF
  | .idle => e.clen ≤ 2 * (e.cur - e.lit.length)
  | .scan => e.clen ≤ 2 * (e.cur - e.lit.length)

/-- What every Encoder state keeps. -/
structure Encoder.Inv (e : Encoder) : Prop where
  /-- SRC is in canonical form -/
  srcWf : e.src.wf
  /-- nothing of SRC is listed at or past `n` -/
  srcWithin : e.src.within e.n
  /-- COMP is in canonical form -/
  compWf : e.comp.wf
  /-- COMP is a sequence of length `clen` -/
  compWithin : e.comp.within e.clen
  /-- `cur ≤ n` (R30) -/
  cursor : e.cur ≤ e.n
  /-- `litlen ≤ 1023` (R31, R222) -/
  litCap : e.lit.length ≤ 1023
  /-- the run is no longer than what the cursor has passed -/
  litPassed : e.lit.length ≤ e.cur
  /-- `lit = SRC[cur − litlen .. cur − 1]` (R31) -/
  litBytes : e.lit = e.src.slice (e.cur - e.lit.length) e.lit.length
  /-- size of the output, and the end of a call (R44, R234) -/
  size : e.SizeInv

/-- The invariant of the block. -/
def State.Inv (s : State) : Prop :=
  s.dec.Inv ∧ s.enc.Inv

/-! ### Candidates -/

/-- The condition of R193 for one kind, position by position, with its bounds on the offset and on
the least length. -/
def CandidateFits (src : Nat → Byte) (c : Nat) (kind : Kind) (len backOffset : Nat) : Prop :=
  match kind with
  | .directCopy => False
  | .byteFill => ∀ i < len, src (c + i) = src c
  | .sigmaFill => ∀ i < len, (src (c + i)).toNat = ((src c).toNat + i) % 256
  | .wordFill => (∀ i < len, src (c + i) = src (c + i % 2)) ∧ 4 ≤ len
  | .libraryCopy => (∀ i < len, src (c + i) = src (backOffset + i)) ∧ backOffset < c ∧
      backOffset ≤ 65535 ∧ 3 ≤ len
  | .xorCopy => (∀ i < len, src (c + i) = src (backOffset + i) ^^^ 0xFF) ∧ backOffset < c ∧
      backOffset ≤ 65535 ∧ 3 ≤ len
  | .minusCopy => (∀ i < len, src (c + i) = src (c - backOffset + i)) ∧ 1 ≤ backOffset ∧
      backOffset ≤ 255 ∧ backOffset ≤ c

/-- Candidate validity (R193): a non-empty candidate has `2 ≤ L ≤ lim`, fits its kind, and carries
the source bytes it covers (R191). -/
def CandidateValid (src : Nat → Byte) (n c : Nat) : Candidate → Prop
  | .empty => True
  | .found kind len seq backOffset =>
    2 ≤ len ∧ len ≤ 1023 ∧ len ≤ n - c ∧ CandidateFits src c kind len backOffset ∧
      seq = (List.range' c len).map src

end Sys2Proof.Machine
end

