-- ==== Sys2Proof/Certificates/Slice0/Obligations.lean ====
section
/-! DEFINITION. The statements for the provers. Each docstring names the rule of spec/ a statement
formalises. In a statement about a command, `s` is the state its meaning starts from: the Decoder
past the command's header, so that `s.dec.sp` points at the payload. -/

open Sys2Proof Sys2Proof.Machine

/-! ### Encoding -/

/-- R91 to R95: every well-formed command is read back from its header bytes, whatever follows.
That the header of a reserved command is its first byte alone is log entry 1. -/
def Obligations.HeaderRoundTrip : Prop :=
  ∀ (i : Instr) (rest : List Byte), WellFormed i = true → decode (encode i ++ rest) = .ok (i, rest)

/-- R94, R96: whatever the decoder reads is a well-formed command, read from exactly its own header
bytes: no two byte strings carry the same header.
That the header of a reserved command is its first byte alone is log entry 1. -/
def Obligations.DecodedHeaderIsItsEncoding : Prop :=
  ∀ (bs rest : List Byte) (i : Instr), decode bs = .ok (i, rest) →
    WellFormed i = true ∧ bs = encode i ++ rest

/-- R91, R92, R93, R101: a format N header of each kind, two format X headers, the reserved byte `0xFC`
and the terminator, written out from the spec's bit fields. That the extension byte after `0xFC` is
left in the rest is the model's choice, log entry 1. -/
def Obligations.SampleHeaderWords : Prop :=
  decode [0b00000010, 0x41] = .ok (.directCopy 3, [0x41]) ∧
  decode [0b00100011] = .ok (.byteFill 4, []) ∧
  decode [0b01000100] = .ok (.wordFill 5, []) ∧
  decode [0b01100010] = .ok (.sigmaFill 3, []) ∧
  decode [0b10000100] = .ok (.libraryCopy 5, []) ∧
  decode [0b10100011] = .ok (.xorCopy 4, []) ∧
  decode [0b11000101] = .ok (.minusCopy 6, []) ∧
  decode [0b11100011, 0b11111110] = .ok (.directCopyX 1023, []) ∧
  decode [0b11111011, 0b11111111] = .ok (.minusCopyX 1024, []) ∧
  decode [0b11111100, 0x00] = .ok (.reservedFC, [0x00]) ∧
  decode [0b11111111, 0x00] = .ok (.endOfStream, [0x00])

/-- R96: the map of the first byte, by numbers: `32·tag + v` is format N with length `v + 1`,
`0xE0 + 4·tag + hh` is format X with length `256·hh + h1 + 1`, then the reserved bytes and END.
That a reserved command is its first byte alone is the model's choice, log entry 1. -/
def Obligations.FirstByteMap : Prop :=
  (∀ (kind : Kind) (v : Nat) (rest : List Byte), v < 32 →
    decode (BitVec.ofNat 8 (32 * kind.tag.toNat + v) :: rest) =
      .ok (normalInstr kind (v + 1), rest)) ∧
  (∀ (kind : Kind) (hh : Nat) (h1 : Byte) (rest : List Byte), hh < 4 →
    decode (BitVec.ofNat 8 (0xE0 + 4 * kind.tag.toNat + hh) :: h1 :: rest) =
      .ok (extendedInstr kind (256 * hh + h1.toNat + 1), rest)) ∧
  (∀ rest : List Byte, decode (0xFC :: rest) = .ok (.reservedFC, rest) ∧
    decode (0xFD :: rest) = .ok (.reservedFD, rest) ∧
    decode (0xFE :: rest) = .ok (.reservedFE, rest) ∧
    decode (0xFF :: rest) = .ok (.endOfStream, rest))

/-- R95, R96, R104: every two bytes begin with a command; only a missing byte keeps a header from being
read, and a single byte `0xE0` to `0xFB` needs a second one. That a single `0xFC` to `0xFE` needs none
is the model's choice, log entry 1: R95 and R126 give it an extension byte, which its meaning reads. -/
def Obligations.EveryByteStringDecodes : Prop :=
  (∀ (h0 h1 : Byte) (rest : List Byte), ∃ i tail, decode (h0 :: h1 :: rest) = .ok (i, tail)) ∧
  decode [] = .error .noHeader ∧
  (∀ h0 : Byte, (h0.toNat < 0xE0 ∨ 0xFB < h0.toNat → ∃ i, decode [h0] = .ok (i, [])) ∧
    (0xE0 ≤ h0.toNat ∧ h0.toNat ≤ 0xFB → decode [h0] = .error (.noExtension h0)))

/-- R105: the header the Encoder emits is the format N encoding up to length 32 and the format X
encoding from 33 to 1023. -/
def Obligations.EmittedHeaderIsCanonical : Prop :=
  ∀ (kind : Kind) (len : Nat), 1 ≤ len → len ≤ 1023 →
    headerBytes kind len =
      encode (if len ≤ 32 then normalInstr kind len else extendedInstr kind len)

/-- R106, R233: the first byte of an emitted header is at most `0xFB`, so it is never reserved and
never the terminator. -/
def Obligations.EmittedHeaderNeverReserved : Prop :=
  ∀ (kind : Kind) (len : Nat), 1 ≤ len → len ≤ 1023 →
    ∃ h0 tail, headerBytes kind len = h0 :: tail ∧ h0.toNat ≤ 0xFB

/-! ### Reset and starts -/

/-- R280: after hardware reset both engines are idle. -/
def Obligations.ResetIsIdle : Prop :=
  State.reset.dec.dstate = .idle ∧ State.reset.enc.estate = .idle

/-- R36, R121, R80: a decode start that is admitted loads the call, or is refused when the
implementation cannot address its sizes; a refused start leaves both engines as they are.
The pending list is the model's own, log entry 8; the width, and what a refusal does beside not
running the call, are log entry 7. -/
def Obligations.DecodeStartLoadsCall : Prop :=
  ∀ (s : State) (bs : List Byte) (m : Nat) (rest : List HostCommand),
    s.host = .startDecode bs m :: rest → s.dec.busy = false →
    if (HostCommand.startDecode bs m).fits = true then
      ∃ t, step s = .next t ∧ t.dec.dstate = .readHeader ∧ t.dec.sp = 0 ∧ t.dec.olen = 0 ∧
        t.dec.maxOut = m ∧ t.dec.slen = bs.length ∧ t.dec.stream.slice 0 t.dec.slen = bs ∧
        t.dec.stop = none ∧ t.dec.cause = none ∧ t.dec.info = none ∧ t.enc = s.enc ∧
        t.host = rest ∧ t.refused = s.refused
    else step s = .next { s with host := rest, refused := s.refused ++ [.startDecode bs m] }

/-- R38, R221, R80: an encode start that is admitted loads the call, or is refused when the
implementation cannot address its sizes; a refused start leaves both engines as they are.
The pending list is the model's own, log entry 8; the width, and what a refusal does beside not
running the call, are log entry 7. -/
def Obligations.EncodeStartLoadsCall : Prop :=
  ∀ (s : State) (bs : List Byte) (rest : List HostCommand),
    s.host = .startEncode bs :: rest → s.enc.busy = false →
    if (HostCommand.startEncode bs).fits = true then
      ∃ t, step s = .next t ∧ t.enc.estate = .scan ∧ t.enc.cur = 0 ∧ t.enc.lit = [] ∧
        t.enc.clen = 0 ∧ t.enc.n = bs.length ∧ t.enc.src.slice 0 t.enc.n = bs ∧
        t.dec = s.dec ∧ t.host = rest ∧ t.refused = s.refused
    else step s = .next { s with host := rest, refused := s.refused ++ [.startEncode bs] }

/-- R40: while an engine runs a call, a step changes neither that call's operands nor the Host's
pending start of the same engine.
The pending list is the model's own, log entry 8. -/
def Obligations.RunningCallKeepsItsOperands : Prop :=
  ∀ s t : State, step s = .next t →
    (s.dec.busy = true → t.dec.stream = s.dec.stream ∧ t.dec.slen = s.dec.slen ∧
      t.dec.maxOut = s.dec.maxOut ∧
      (∀ bs m rest, s.host = .startDecode bs m :: rest → t.host = s.host)) ∧
    (s.enc.busy = true → t.enc.src = s.enc.src ∧ t.enc.n = s.enc.n ∧
      (∀ bs rest, s.host = .startEncode bs :: rest → t.host = s.host))

/-! ### The step -/

/-- A step runs the decoded command. That one step runs the whole of it is the model's choice, log
entry 2; how its header is read and latched is R120 and R123 to R125. With the Decoder to move, in `ReadHeader`
and below the cap, when the bytes at the stream pointer decode to `i`, the step is `exec i` on the
state with the header consumed, its first byte latched, and the turn handed on (the model's
choice, log entry 9); of a reserved command the header is its first byte (log entry 1). -/
def Obligations.StepRunsDecodedCommand : Prop :=
  ∀ (s : State) (i : Instr) (tail : List Byte),
    s.readyCommand = none → s.mover = some .decoder → s.dec.dstate = .readHeader →
    s.dec.olen ≠ s.dec.maxOut → decode (s.dec.window 2) = .ok (i, tail) →
    step s = exec i { s with
      dec := { s.dec with
        h0 := s.dec.stream.read s.dec.sp
        sp := s.dec.sp + headerSize i
        dstate := if escapes (s.dec.stream.read s.dec.sp) then .readExt else .readHeader }
      turn := .encoder }

/-- R122: in `ReadHeader` with `olen = MAXOUT` the call is done with `stop = CAP`, and no stream byte
is consumed.
The turn handed on is the model's choice, log entry 9. -/
def Obligations.StepStopsAtCap : Prop :=
  ∀ s : State, s.readyCommand = none → s.mover = some .decoder → s.dec.dstate = .readHeader →
    s.dec.olen = s.dec.maxOut →
    step s = .next { s with
      dec := { s.dec with stop := some .cap, dstate := .done }
      turn := .encoder }

/-- R123: below the cap, with no byte left, the header fetch raises `BufferUnderrun(sp)`.
The turn handed on is the model's choice, log entry 9. -/
def Obligations.StepHeaderUnderrun : Prop :=
  ∀ s : State, s.readyCommand = none → s.mover = some .decoder → s.dec.dstate = .readHeader →
    s.dec.olen ≠ s.dec.maxOut → s.dec.slen ≤ s.dec.sp →
    step s = .next { s with
      dec := { s.dec with
        cause := some .bufferUnderrun
        info := some (s.dec.sp : Int)
        dstate := .fault }
      turn := .encoder }

/-- R125: a first byte `0xE0` to `0xFB` that is the last of the stream raises `BufferUnderrun` at the
missing extension byte; the first byte has been consumed and latched.
The turn handed on is the model's choice, log entry 9. -/
def Obligations.StepExtensionUnderrun : Prop :=
  ∀ s : State, s.readyCommand = none → s.mover = some .decoder → s.dec.dstate = .readHeader →
    s.dec.olen ≠ s.dec.maxOut → s.dec.sp + 1 = s.dec.slen →
    0xE0 ≤ (s.dec.stream.read s.dec.sp).toNat → (s.dec.stream.read s.dec.sp).toNat ≤ 0xFB →
    step s = .next { s with
      dec := { s.dec with
        h0 := s.dec.stream.read s.dec.sp
        sp := s.dec.sp + 1
        cause := some .bufferUnderrun
        info := some ((s.dec.sp + 1 : Nat) : Int)
        dstate := .fault }
      turn := .encoder }

/-- R28, R257: without a running call the Decoder's state is held, until a decode start replaces all
of it. -/
def Obligations.EndedDecoderIsHeld : Prop :=
  ∀ s t : State, step s = .next t → s.dec.busy = false →
    t.dec = s.dec ∨
      ∃ bs m, s.readyCommand = some (.startDecode bs m) ∧ t.dec = Decoder.start bs m s.draws

/-- R80, R261: every state has a next state, and a step refuses a start exactly when it is the ready
one and the implementation cannot address its sizes; that step changes neither engine, so a call
that the other engine runs goes on. Width and refusal are log entry 7, a step with nothing to do log
entry 10. -/
def Obligations.OnlyTooLargeCallsAreRefused : Prop :=
  ∀ s : State, ∃ t, step s = .next t ∧
    match s.readyCommand with
    | none => t.refused = s.refused
    | some c =>
      if c.fits = true then t.refused = s.refused
      else t = { s with host := s.host.tail, refused := s.refused ++ [c] }

/-! ### The terminator and the reserved first bytes -/

/-- R130: END writes `DSTATUS.stop` and the control state, and nothing else. -/
def Obligations.EndOfStreamEndsCall : Prop :=
  ∀ s : State, exec .endOfStream s =
    .next { s with dec := { s.dec with stop := some .terminator, dstate := .done } }

/-- R126, R252, R256: a reserved first byte raises `InvalidCommand(h0)` after its extension byte has
been read. -/
def Obligations.ReservedByteRaisesInvalidCommand : Prop :=
  ∀ (s : State) (i : Instr) (h0 : Int),
    (i = .reservedFC ∧ h0 = 0xFC) ∨ (i = .reservedFD ∧ h0 = 0xFD) ∨ (i = .reservedFE ∧ h0 = 0xFE) →
    s.dec.sp < s.dec.slen →
    exec i s = .next { s with dec := { s.dec with
      sp := s.dec.sp + 1
      cause := some .invalidCommand
      info := some h0
      dstate := .fault } }

/-- R126, R255: when the extension byte is missing, `BufferUnderrun` wins over `InvalidCommand`. -/
def Obligations.ReservedByteUnderrun : Prop :=
  ∀ (s : State) (i : Instr), i = .reservedFC ∨ i = .reservedFD ∨ i = .reservedFE →
    s.dec.slen ≤ s.dec.sp →
    exec i s = .next { s with dec := { s.dec with
      cause := some .bufferUnderrun
      info := some (s.dec.sp : Int)
      dstate := .fault } }

/-! ### DirectCopy and the fills -/

/-- R151: with its raw bytes present and room below the cap, DirectCopy appends them all. -/
def Obligations.DirectCopyCompletes : Prop :=
  ∀ (s : State) (len : Nat) (i : Instr), i = .directCopy len ∨ i = .directCopyX len →
    s.dec.sp + len ≤ s.dec.slen → s.dec.olen + len ≤ s.dec.maxOut →
    ∃ out, exec i s = .next { s with dec := { s.dec with
        dstate := .readHeader
        sp := s.dec.sp + len
        out := out
        olen := s.dec.olen + len
        kind := .directCopy
        len := len
        k := len } } ∧
      s.dec.out.Appended out s.dec.olen len (fun j => s.dec.stream.read (s.dec.sp + j))

/-- R128, R151: when the cap stops a DirectCopy, exactly as many raw bytes are consumed as were
appended, and the missing rest is no fault. -/
def Obligations.DirectCopyStopsAtCap : Prop :=
  ∀ (s : State) (len room : Nat) (i : Instr), i = .directCopy len ∨ i = .directCopyX len →
    s.dec.olen + room = s.dec.maxOut → room < len → s.dec.sp + room ≤ s.dec.slen →
    ∃ out, exec i s = .next { s with dec := { s.dec with
        dstate := .done
        sp := s.dec.sp + room
        out := out
        olen := s.dec.maxOut
        kind := .directCopy
        len := len
        k := room
        stop := some .cap } } ∧
      s.dec.out.Appended out s.dec.olen room (fun j => s.dec.stream.read (s.dec.sp + j))

/-- R151, R251, R255: a DirectCopy whose raw bytes run out first raises `BufferUnderrun` at the end of
the stream; the bytes before stay appended. -/
def Obligations.DirectCopyUnderrun : Prop :=
  ∀ (s : State) (len present : Nat) (i : Instr), i = .directCopy len ∨ i = .directCopyX len →
    s.dec.sp + present = s.dec.slen → present < len → s.dec.olen + present < s.dec.maxOut →
    ∃ out, exec i s = .next { s with dec := { s.dec with
        dstate := .fault
        sp := s.dec.slen
        out := out
        olen := s.dec.olen + present
        kind := .directCopy
        len := len
        k := present
        cause := some .bufferUnderrun
        info := some (s.dec.slen : Int) } } ∧
      s.dec.out.Appended out s.dec.olen present (fun j => s.dec.stream.read (s.dec.sp + j))

/-- R152: ByteFill appends its value `len` times. -/
def Obligations.ByteFillCompletes : Prop :=
  ∀ (s : State) (len : Nat) (i : Instr), i = .byteFill len ∨ i = .byteFillX len →
    s.dec.sp < s.dec.slen → s.dec.olen + len ≤ s.dec.maxOut →
    ∃ out, exec i s = .next { s with dec := { s.dec with
        dstate := .readHeader
        sp := s.dec.sp + 1
        out := out
        olen := s.dec.olen + len
        kind := .byteFill
        len := len
        k := len
        v := s.dec.stream.read s.dec.sp } } ∧
      s.dec.out.Appended out s.dec.olen len (fun _ => s.dec.stream.read s.dec.sp)

/-- R153: WordFill appends `lo` and `hi` alternately, `lo` at even counts, and stops exactly at its
length, even mid-pair. -/
def Obligations.WordFillCompletes : Prop :=
  ∀ (s : State) (len : Nat) (i : Instr), i = .wordFill len ∨ i = .wordFillX len →
    s.dec.sp + 1 < s.dec.slen → s.dec.olen + len ≤ s.dec.maxOut →
    ∃ out, exec i s = .next { s with dec := { s.dec with
        dstate := .readHeader
        sp := s.dec.sp + 2
        out := out
        olen := s.dec.olen + len
        kind := .wordFill
        len := len
        k := len
        lo := s.dec.stream.read s.dec.sp
        hi := s.dec.stream.read (s.dec.sp + 1) } } ∧
      s.dec.out.Appended out s.dec.olen len (fun j =>
        if j % 2 = 0 then s.dec.stream.read s.dec.sp else s.dec.stream.read (s.dec.sp + 1))

/-- R154: SigmaFill appends `v`, `v + 1`, `v + 2`, … modulo 256. -/
def Obligations.SigmaFillCompletes : Prop :=
  ∀ (s : State) (len : Nat) (i : Instr), i = .sigmaFill len ∨ i = .sigmaFillX len →
    s.dec.sp < s.dec.slen → s.dec.olen + len ≤ s.dec.maxOut →
    ∃ out, exec i s = .next { s with dec := { s.dec with
        dstate := .readHeader
        sp := s.dec.sp + 1
        out := out
        olen := s.dec.olen + len
        kind := .sigmaFill
        len := len
        k := len
        v := s.dec.stream.read s.dec.sp } } ∧
      s.dec.out.Appended out s.dec.olen len (fun j =>
        BitVec.ofNat 8 (((s.dec.stream.read s.dec.sp).toNat + j) % 256))

/-- R128, R150: when the cap stops a fill, its operands have been read, the bytes up to the cap are
those of the whole command, and the call is done with `stop = CAP`. -/
def Obligations.FillStopsAtCap : Prop :=
  ∀ (s : State) (len room : Nat), s.dec.olen + room = s.dec.maxOut → room < len →
    (∀ i, i = .byteFill len ∨ i = .byteFillX len → s.dec.sp < s.dec.slen →
      ∃ t, exec i s = .next t ∧ t.dec.dstate = .done ∧ t.dec.stop = some .cap ∧
        t.dec.sp = s.dec.sp + 1 ∧ t.dec.olen = s.dec.maxOut ∧
        s.dec.out.Appended t.dec.out s.dec.olen room (fun _ => s.dec.stream.read s.dec.sp)) ∧
    (∀ i, i = .wordFill len ∨ i = .wordFillX len → s.dec.sp + 1 < s.dec.slen →
      ∃ t, exec i s = .next t ∧ t.dec.dstate = .done ∧ t.dec.stop = some .cap ∧
        t.dec.sp = s.dec.sp + 2 ∧ t.dec.olen = s.dec.maxOut ∧
        s.dec.out.Appended t.dec.out s.dec.olen room (fun j =>
          if j % 2 = 0 then s.dec.stream.read s.dec.sp else s.dec.stream.read (s.dec.sp + 1))) ∧
    (∀ i, i = .sigmaFill len ∨ i = .sigmaFillX len → s.dec.sp < s.dec.slen →
      ∃ t, exec i s = .next t ∧ t.dec.dstate = .done ∧ t.dec.stop = some .cap ∧
        t.dec.sp = s.dec.sp + 1 ∧ t.dec.olen = s.dec.maxOut ∧
        s.dec.out.Appended t.dec.out s.dec.olen room (fun j =>
          BitVec.ofNat 8 (((s.dec.stream.read s.dec.sp).toNat + j) % 256)))

/-- R127, R251, R256: a missing operand byte raises `BufferUnderrun(sp)` at that byte: nothing is
appended, and the operand bytes before it have been consumed. Every command with operands is here. -/
def Obligations.MissingOperandUnderrun : Prop :=
  ∀ (s : State) (len : Nat) (i : Instr),
    (i = .byteFill len ∨ i = .byteFillX len ∨ i = .sigmaFill len ∨ i = .sigmaFillX len ∨
      i = .minusCopy len ∨ i = .minusCopyX len ∨
      i = .wordFill len ∨ i = .wordFillX len ∨ i = .libraryCopy len ∨ i = .libraryCopyX len ∨
      i = .xorCopy len ∨ i = .xorCopyX len →
      s.dec.slen ≤ s.dec.sp →
      ∃ t, exec i s = .next t ∧ t.dec.dstate = .fault ∧ t.dec.cause = some .bufferUnderrun ∧
        t.dec.info = some (s.dec.sp : Int) ∧ t.dec.sp = s.dec.sp ∧ t.dec.olen = s.dec.olen ∧
        t.dec.out = s.dec.out) ∧
    (i = .wordFill len ∨ i = .wordFillX len ∨ i = .libraryCopy len ∨ i = .libraryCopyX len ∨
      i = .xorCopy len ∨ i = .xorCopyX len →
      s.dec.sp + 1 = s.dec.slen →
      ∃ t, exec i s = .next t ∧ t.dec.dstate = .fault ∧ t.dec.cause = some .bufferUnderrun ∧
        t.dec.info = some (s.dec.slen : Int) ∧ t.dec.sp = s.dec.slen ∧ t.dec.olen = s.dec.olen ∧
        t.dec.out = s.dec.out)

/-! ### The back references -/

/-- R171, R170: LibraryCopy appends, for each `j`, the byte that stands at `o + j` in the output, the
bytes it appended itself among them. -/
def Obligations.LibraryCopyCompletes : Prop :=
  ∀ (s : State) (len o : Nat) (i : Instr), i = .libraryCopy len ∨ i = .libraryCopyX len →
    s.dec.sp + 1 < s.dec.slen →
    o = (s.dec.stream.read s.dec.sp).toNat + 256 * (s.dec.stream.read (s.dec.sp + 1)).toNat →
    o < s.dec.olen → s.dec.olen + len ≤ s.dec.maxOut →
    ∃ out, exec i s = .next { s with dec := { s.dec with
        dstate := .readHeader
        sp := s.dec.sp + 2
        out := out
        olen := s.dec.olen + len
        kind := .libraryCopy
        len := len
        k := len
        base := (o : Int)
        xm := 0x00 } } ∧
      s.dec.out.Appended out s.dec.olen len (fun j => out.read (o + j))

/-- R172, R170: XorCopy appends, for each `j`, the complement of the byte that stands at `o + j`. -/
def Obligations.XorCopyCompletes : Prop :=
  ∀ (s : State) (len o : Nat) (i : Instr), i = .xorCopy len ∨ i = .xorCopyX len →
    s.dec.sp + 1 < s.dec.slen →
    o = (s.dec.stream.read s.dec.sp).toNat + 256 * (s.dec.stream.read (s.dec.sp + 1)).toNat →
    o < s.dec.olen → s.dec.olen + len ≤ s.dec.maxOut →
    ∃ out, exec i s = .next { s with dec := { s.dec with
        dstate := .readHeader
        sp := s.dec.sp + 2
        out := out
        olen := s.dec.olen + len
        kind := .xorCopy
        len := len
        k := len
        base := (o : Int)
        xm := 0xFF } } ∧
      s.dec.out.Appended out s.dec.olen len (fun j => out.read (o + j) ^^^ 0xFF)

/-- R173, R170: MinusCopy copies from `olen − m`, with `olen` as it stands when the command starts. -/
def Obligations.MinusCopyCompletes : Prop :=
  ∀ (s : State) (len m : Nat) (i : Instr), i = .minusCopy len ∨ i = .minusCopyX len →
    s.dec.sp < s.dec.slen → m = (s.dec.stream.read s.dec.sp).toNat → 1 ≤ m → m ≤ s.dec.olen →
    s.dec.olen + len ≤ s.dec.maxOut →
    ∃ out, exec i s = .next { s with dec := { s.dec with
        dstate := .readHeader
        sp := s.dec.sp + 1
        out := out
        olen := s.dec.olen + len
        kind := .minusCopy
        len := len
        k := len
        base := (s.dec.olen : Int) - m
        xm := 0x00 } } ∧
      s.dec.out.Appended out s.dec.olen len (fun j => out.read (s.dec.olen - m + j))

/-- R128: when the cap stops a copy, its operands have been read and the bytes up to the cap are
those of the whole command. -/
def Obligations.BackReferenceStopsAtCap : Prop :=
  ∀ (s : State) (len room : Nat), s.dec.olen + room = s.dec.maxOut → room < len →
    (∀ i o, i = .libraryCopy len ∨ i = .libraryCopyX len → s.dec.sp + 1 < s.dec.slen →
      o = (s.dec.stream.read s.dec.sp).toNat + 256 * (s.dec.stream.read (s.dec.sp + 1)).toNat →
      o < s.dec.olen →
      ∃ t, exec i s = .next t ∧ t.dec.dstate = .done ∧ t.dec.stop = some .cap ∧
        t.dec.sp = s.dec.sp + 2 ∧ t.dec.olen = s.dec.maxOut ∧
        s.dec.out.Appended t.dec.out s.dec.olen room (fun j => t.dec.out.read (o + j))) ∧
    (∀ i o, i = .xorCopy len ∨ i = .xorCopyX len → s.dec.sp + 1 < s.dec.slen →
      o = (s.dec.stream.read s.dec.sp).toNat + 256 * (s.dec.stream.read (s.dec.sp + 1)).toNat →
      o < s.dec.olen →
      ∃ t, exec i s = .next t ∧ t.dec.dstate = .done ∧ t.dec.stop = some .cap ∧
        t.dec.sp = s.dec.sp + 2 ∧ t.dec.olen = s.dec.maxOut ∧
        s.dec.out.Appended t.dec.out s.dec.olen room (fun j => t.dec.out.read (o + j) ^^^ 0xFF)) ∧
    (∀ i m, i = .minusCopy len ∨ i = .minusCopyX len → s.dec.sp < s.dec.slen →
      m = (s.dec.stream.read s.dec.sp).toNat → 1 ≤ m → m ≤ s.dec.olen →
      ∃ t, exec i s = .next t ∧ t.dec.dstate = .done ∧ t.dec.stop = some .cap ∧
        t.dec.sp = s.dec.sp + 1 ∧ t.dec.olen = s.dec.maxOut ∧
        s.dec.out.Appended t.dec.out s.dec.olen room (fun j => t.dec.out.read (s.dec.olen - m + j)))

/-- R171, R172, R253: an absolute offset not below the output length raises `InvalidBackReference(o)`
at the first byte; the offset has been consumed and nothing is appended. -/
def Obligations.AbsoluteOffsetOutOfRange : Prop :=
  ∀ (s : State) (len o : Nat) (i : Instr),
    i = .libraryCopy len ∨ i = .libraryCopyX len ∨ i = .xorCopy len ∨ i = .xorCopyX len →
    1 ≤ len → s.dec.sp + 1 < s.dec.slen →
    o = (s.dec.stream.read s.dec.sp).toNat + 256 * (s.dec.stream.read (s.dec.sp + 1)).toNat →
    s.dec.olen ≤ o → s.dec.olen ≠ s.dec.maxOut →
    ∃ t, exec i s = .next t ∧ t.dec.dstate = .fault ∧ t.dec.cause = some .invalidBackReference ∧
      t.dec.info = some (o : Int) ∧ t.dec.sp = s.dec.sp + 2 ∧ t.dec.olen = s.dec.olen ∧
      t.dec.out = s.dec.out

/-- R173, R253: a distance of 0, or beyond the output's beginning, raises `InvalidBackReference` with
the index `olen − m`, negative in the second case. -/
def Obligations.DistanceOutOfRange : Prop :=
  ∀ (s : State) (len m : Nat) (i : Instr), i = .minusCopy len ∨ i = .minusCopyX len →
    1 ≤ len → s.dec.sp < s.dec.slen → m = (s.dec.stream.read s.dec.sp).toNat →
    m = 0 ∨ s.dec.olen < m → s.dec.olen ≠ s.dec.maxOut →
    ∃ t, exec i s = .next t ∧ t.dec.dstate = .fault ∧ t.dec.cause = some .invalidBackReference ∧
      t.dec.info = some ((s.dec.olen : Int) - m) ∧ t.dec.sp = s.dec.sp + 1 ∧
      t.dec.olen = s.dec.olen ∧ t.dec.out = s.dec.out

/-- R174: an overlapping LibraryCopy or MinusCopy repeats the last `p` bytes before the frontier, an
overlapping XorCopy their complement and themselves in turn; whether the command completes or the
cap stops it, each appended byte is the one of R174. -/
def Obligations.OverlapRepeats : Prop :=
  ∀ (s t : State) (len start : Nat) (i : Instr), exec i s = .next t → t.dec.dstate ≠ .fault →
    start < s.dec.olen → t.dec.base = (start : Int) →
    (i = .libraryCopy len ∨ i = .libraryCopyX len ∨ i = .minusCopy len ∨ i = .minusCopyX len →
      ∀ j, s.dec.olen + j < t.dec.olen → t.dec.out.read (s.dec.olen + j) =
        s.dec.out.read (start + j % (s.dec.olen - start))) ∧
    (i = .xorCopy len ∨ i = .xorCopyX len →
      ∀ j, s.dec.olen + j < t.dec.olen → t.dec.out.read (s.dec.olen + j) =
        if j / (s.dec.olen - start) % 2 = 0
        then s.dec.out.read (start + j % (s.dec.olen - start)) ^^^ 0xFF
        else s.dec.out.read (start + j % (s.dec.olen - start)))

/-- R175: a command that ends in `InvalidBackReference` has appended nothing. -/
def Obligations.BackReferenceFaultsAtFirstByte : Prop :=
  ∀ (s t : State) (i : Instr), s.dec.cause = none → exec i s = .next t →
    t.dec.cause = some .invalidBackReference →
    t.dec.olen = s.dec.olen ∧ t.dec.out = s.dec.out ∧ t.dec.k = 0

/-! ### Frames -/

/-- R24, R61, R67, R176, for every command and every next state: nothing is stored but bytes at the
output's end, every other address of OUT reads as before, the stream and its length, the cap and the
`h0` latch are unchanged, and the stream pointer never goes back. -/
def Obligations.CommandsOnlyAppend : Prop :=
  ∀ (i : Instr) (s t : State), exec i s = .next t →
    t.dec.stream = s.dec.stream ∧ t.dec.slen = s.dec.slen ∧ t.dec.maxOut = s.dec.maxOut ∧
    t.dec.h0 = s.dec.h0 ∧ s.dec.sp ≤ t.dec.sp ∧ s.dec.olen ≤ t.dec.olen ∧
    (∀ a, a < s.dec.olen ∨ t.dec.olen ≤ a → t.dec.out.read a = s.dec.out.read a)

/-- R21: no command touches the Encoder, the Host's pending and refused starts or the model's own fields. -/
def Obligations.CommandsTouchOnlyTheDecoder : Prop :=
  ∀ (i : Instr) (s t : State), exec i s = .next t →
    t.enc = s.enc ∧ t.host = s.host ∧ t.refused = s.refused ∧ t.turn = s.turn ∧ t.draws = s.draws

/-- R27, R127, R130: which latches a command leaves alone, in every next state, and that END and the
reserved bytes append nothing. -/
def Obligations.LatchFrame : Prop :=
  ∀ (i : Instr) (s t : State) (len : Nat), exec i s = .next t →
    (i = .directCopy len ∨ i = .directCopyX len →
      t.dec.v = s.dec.v ∧ t.dec.lo = s.dec.lo ∧ t.dec.hi = s.dec.hi ∧ t.dec.base = s.dec.base ∧
      t.dec.xm = s.dec.xm) ∧
    (i = .byteFill len ∨ i = .byteFillX len ∨ i = .sigmaFill len ∨ i = .sigmaFillX len →
      t.dec.lo = s.dec.lo ∧ t.dec.hi = s.dec.hi ∧ t.dec.base = s.dec.base ∧ t.dec.xm = s.dec.xm) ∧
    (i = .wordFill len ∨ i = .wordFillX len →
      t.dec.v = s.dec.v ∧ t.dec.base = s.dec.base ∧ t.dec.xm = s.dec.xm) ∧
    (i = .libraryCopy len ∨ i = .libraryCopyX len ∨ i = .xorCopy len ∨ i = .xorCopyX len ∨
      i = .minusCopy len ∨ i = .minusCopyX len →
      t.dec.v = s.dec.v ∧ t.dec.lo = s.dec.lo ∧ t.dec.hi = s.dec.hi) ∧
    (i = .endOfStream ∨ i = .reservedFC ∨ i = .reservedFD ∨ i = .reservedFE →
      t.dec.kind = s.dec.kind ∧ t.dec.len = s.dec.len ∧ t.dec.k = s.dec.k ∧ t.dec.v = s.dec.v ∧
      t.dec.lo = s.dec.lo ∧ t.dec.hi = s.dec.hi ∧ t.dec.base = s.dec.base ∧ t.dec.xm = s.dec.xm ∧
      t.dec.out = s.dec.out ∧ t.dec.olen = s.dec.olen)

/-- R28, R256: a command writes `stop` only when it ends the call in `Done`, and `cause` and `info`
only when it ends it in `Fault`; and it ends in `ReadHeader`, `Done` or `Fault`. -/
def Obligations.StatusFrame : Prop :=
  ∀ (i : Instr) (s t : State), exec i s = .next t →
    (t.dec.dstate = .readHeader ∨ t.dec.dstate = .done ∨ t.dec.dstate = .fault) ∧
    (t.dec.dstate ≠ .done → t.dec.stop = s.dec.stop) ∧
    (t.dec.dstate ≠ .fault → t.dec.cause = s.dec.cause ∧ t.dec.info = s.dec.info)

/-! ### Invariants and the end of calls -/

/-- The invariant holds at reset (log entry 4: the values the model names). -/
def Obligations.ResetMeetsInvariant : Prop :=
  State.reset.Inv

/-- R23, R24, R28, R30, R31, R44, R131, R234: every step keeps the block's invariant: canonical
memories, `sp ≤ SLEN`, `olen ≤ MAXOUT`, DSTATUS as the control state says, `cur ≤ n`, the literal run
equal to the source bytes before the cursor and at most 1023 long, the size bound, and a finished
output that ends in `0xFF`. -/
def Obligations.StepKeepsInvariant : Prop :=
  ∀ s t : State, s.Inv → step s = .next t → t.Inv

/-- R136: each move of the Decoder from `ReadHeader` ends the call, or is back in `ReadHeader` with at
least one more stream byte consumed.
That a move is a whole command is the model's choice, log entry 2. -/
def Obligations.DecoderMoveConsumes : Prop :=
  ∀ s t : State, s.dec.dstate = .readHeader → decoderMove s = .next t →
    t.dec.ended = true ∨ (t.dec.dstate = .readHeader ∧ s.dec.sp < t.dec.sp ∧ s.dec.sp < s.dec.slen)

/-- R136: a decode call ends, whatever the Encoder runs and whatever starts are pending, those the
implementation must refuse among them: after at most one move more than there are stream bytes left,
each with at most one move of the Encoder, and one step for each pending start.
That a step is a command is log entry 2; the pending list is log entry 8, the refusal log entry 7, the
engines' turns log entry 9. -/
def Obligations.DecodeCallEnds : Prop :=
  ∀ s : State, s.dec.dstate = .readHeader →
    ∃ k t, k ≤ 2 * (s.dec.slen - s.dec.sp + 1) + s.host.length ∧
      Host.Core.run Sys2Proof.core k s = .next t ∧ t.dec.ended = true

/-- R231: an iteration takes the cursor one byte on, for a literal, or at least two, for a candidate,
never beyond `n`; so an encode call ends, whatever the Decoder runs and whatever starts are pending:
after at most one iteration for each source byte left and the end step, each with at most one move of
the Decoder, and one step for each pending start.
That a step is an iteration is log entry 2; the pending list is log entry 8, the refusal log entry 7,
the engines' turns log entry 9. -/
def Obligations.EncodeCallEnds : Prop :=
  (∀ e : Encoder, e.estate = .scan → e.cur < e.n →
    e.move.cur ≤ e.n ∧ ((e.move.best.length = 0 ∧ e.move.cur = e.cur + 1) ∨
      (2 ≤ e.move.best.length ∧ e.move.cur = e.cur + e.move.best.length))) ∧
  ∀ s : State, s.enc.estate = .scan →
    ∃ k t, k ≤ 2 * (s.enc.n - s.enc.cur + 1) + s.host.length ∧
      Host.Core.run Sys2Proof.core k s = .next t ∧ t.enc.estate = .done

/-- R21, R263: the two engines do not disturb each other: the Decoder's move and the Encoder's move
commute, whatever the state.
That a move is a whole command, or an iteration, is the model's choice, log entry 2. -/
def Obligations.EnginesCommute : Prop :=
  ∀ s t u : State, decoderMove s = .next t → decoderMove s.encoderMove = .next u →
    t.encoderMove.dec = u.dec ∧ t.encoderMove.enc = u.enc ∧ t.dec = u.dec ∧
      s.encoderMove.dec = s.dec

/-- R21, R135: what the Decoder's move does depends on the Decoder alone. -/
def Obligations.DecoderDependsOnItselfAlone : Prop :=
  ∀ s s' t : State, s.dec = s'.dec → decoderMove s = .next t →
    ∃ t', decoderMove s' = .next t' ∧ t'.dec = t.dec

/-! ### The match finders and the selector -/

/-- R193, R191, R192: every candidate any finder returns is valid. -/
def Obligations.FindersReturnValidCandidates : Prop :=
  ∀ (src : Nat → Byte) (n c : Nat), c < n →
    CandidateValid src n c (byteSigmaFinder src n c) ∧ CandidateValid src n c (wordFinder src n c) ∧
    CandidateValid src n c (libraryFinder src n c) ∧ CandidateValid src n c (xorFinder src n c) ∧
    CandidateValid src n c (minusFinder src n c)

/-- R196: `mlen(j, x)` is the greatest `k ≤ lim` all of whose positions match, and every index it
compares is below `n`. -/
def Obligations.MatchLengthIsGreatest : Prop :=
  ∀ (src : Nat → Byte) (n c j : Nat) (x : Byte), j < c → c < n →
    matchLength src n c x j ≤ min 1023 (n - c) ∧
    (∀ i < matchLength src n c x j, src (j + i) ^^^ x = src (c + i)) ∧
    (∀ k ≤ min 1023 (n - c), (∀ i < k, src (j + i) ^^^ x = src (c + i)) →
      k ≤ matchLength src n c x j) ∧
    (∀ i < min 1023 (n - c), j + i < c + i ∧ c + i < n)

/-- R194: the mode is that of the pair at the cursor, the run is the longest of that mode, and there
is no candidate when the pair is neither a repeat nor an increment or the cursor is at the last
byte. -/
def Obligations.ByteSigmaFinderFixesMode : Prop :=
  ∀ (src : Nat → Byte) (n c : Nat),
    (n ≤ c + 1 → byteSigmaFinder src n c = .empty) ∧
    (c + 1 < n → src (c + 1) = src c → ∃ len,
      byteSigmaFinder src n c = .found .byteFill len ((List.range' c len).map src) 0 ∧
      (∀ k < len, src (c + k) = src c) ∧ (len < min 1023 (n - c) → src (c + len) ≠ src (c + len - 1))) ∧
    (c + 1 < n → (src (c + 1)).toNat = (src c).toNat + 1 → ∃ len,
      byteSigmaFinder src n c = .found .sigmaFill len ((List.range' c len).map src) 0 ∧
      (∀ k < len, (src (c + k)).toNat = (src c).toNat + k) ∧
      (len < min 1023 (n - c) → (src (c + len)).toNat ≠ (src (c + len - 1)).toNat + 1)) ∧
    (src (c + 1) ≠ src c → (src (c + 1)).toNat ≠ (src c).toNat + 1 →
      byteSigmaFinder src n c = .empty)

/-- R195: the WordFill candidate is the longest run of bytes that match their counterpart two
positions back, the unit included, when that is at least 4 bytes; there is none otherwise. -/
def Obligations.WordFinderIsLongest : Prop :=
  ∀ (src : Nat → Byte) (n c : Nat),
    match wordFinder src n c with
    | .empty => min 1023 (n - c) < 4 ∨ src (c + 2) ≠ src c ∨ src (c + 3) ≠ src (c + 1)
    | .found kind len seq backOffset => kind = .wordFill ∧ 4 ≤ len ∧ len ≤ min 1023 (n - c) ∧
        (∀ k, 2 ≤ k → k < len → src (c + k) = src (c + k - 2)) ∧
        (len < min 1023 (n - c) → src (c + len) ≠ src (c + len - 2)) ∧
        seq = (List.range' c len).map src ∧ backOffset = 0

/-- R197, R198: the LibraryCopy candidate is the longest match over the admissible starts, and the
rightmost of the longest; there is none when every match is shorter than 3. The XorCopy candidate
is found in the same way against the complement. -/
def Obligations.AbsoluteFindersAreLongestRightmost : Prop :=
  ∀ (src : Nat → Byte) (n c : Nat),
    (match libraryFinder src n c with
    | .empty => ∀ j, j < c → j ≤ 65535 → matchLength src n c 0x00 j < 3
    | .found kind len _ j => kind = .libraryCopy ∧ 3 ≤ len ∧ j < c ∧ j ≤ 65535 ∧
        len = matchLength src n c 0x00 j ∧
        ∀ j', j' < c → j' ≤ 65535 → matchLength src n c 0x00 j' ≤ len ∧
          (j < j' → matchLength src n c 0x00 j' < len)) ∧
    (match xorFinder src n c with
    | .empty => ∀ j, j < c → j ≤ 65535 → matchLength src n c 0xFF j < 3
    | .found kind len _ j => kind = .xorCopy ∧ 3 ≤ len ∧ j < c ∧ j ≤ 65535 ∧
        len = matchLength src n c 0xFF j ∧
        ∀ j', j' < c → j' ≤ 65535 → matchLength src n c 0xFF j' ≤ len ∧
          (j < j' → matchLength src n c 0xFF j' < len))

/-- R199: the MinusCopy candidate is found as the LibraryCopy one, among starts at most 255 back; it
carries the distance. -/
def Obligations.MinusFinderIsLongestRightmost : Prop :=
  ∀ (src : Nat → Byte) (n c : Nat),
    match minusFinder src n c with
    | .empty => ∀ j, j < c → c ≤ j + 255 → matchLength src n c 0x00 j < 2
    | .found kind len _ m => kind = .minusCopy ∧ 2 ≤ len ∧ 1 ≤ m ∧ m ≤ 255 ∧ m ≤ c ∧
        len = matchLength src n c 0x00 (c - m) ∧
        ∀ j, j < c → c ≤ j + 255 → matchLength src n c 0x00 j ≤ len ∧
          (c - m < j → matchLength src n c 0x00 j < len)

/-- R224: the selected candidate is one of the five, none is longer, and every earlier finder's is
strictly shorter. -/
def Obligations.SelectorTakesFirstLongest : Prop :=
  ∀ cand : Candidates,
    let five := [cand.byteSigma, cand.word, cand.library, cand.xor, cand.minus]
    ∃ i, five[i]? = some (selectBest cand) ∧
      ∀ (j : Nat) (other : Candidate), five[j]? = some other →
        other.length ≤ (selectBest cand).length ∧ (j < i → other.length < (selectBest cand).length)

/-! ### The Encoder -/

/-- R228: `Flush()` puts the header of a DirectCopy and the run, and empties the run; an empty run
puts nothing. -/
def Obligations.FlushPutsLiteralRun : Prop :=
  ∀ e : Encoder, (e.lit = [] → e.flush = e) ∧
    (e.lit ≠ [] → ∃ comp,
      e.flush = { e with lit := [], comp := comp, clen := e.clen + (literalBytes e.lit).length } ∧
      literalBytes e.lit = headerBytes .directCopy e.lit.length ++ e.lit ∧
      e.comp.Appended comp e.clen (literalBytes e.lit).length
        (fun j => (literalBytes e.lit).getD j 0))

/-- R222: with the run at its cap an iteration is the iteration of the flushed Encoder. -/
def Obligations.FullRunIsFlushedFirst : Prop :=
  ∀ e : Encoder, e.estate = .scan → e.cur < e.n → e.lit.length = 1023 →
    e.move = e.flush.move ∧ e.flush.lit = []

/-- R225: with no candidate the source byte joins the run, the cursor moves by 1 and nothing is put. -/
def Obligations.LiteralIteration : Prop :=
  ∀ e : Encoder, e.estate = .scan → e.cur < e.n → e.lit.length ≠ 1023 →
    (selectBest (findAll e.src.read e.n e.cur)).length = 0 →
    e.move = { e with
      lit := e.lit ++ [e.src.read e.cur]
      cur := e.cur + 1
      cand := findAll e.src.read e.n e.cur
      best := selectBest (findAll e.src.read e.n e.cur) }

/-- R226, R229, R230: with a candidate the pending run is put first, then the candidate's command,
and the cursor moves by the candidate's length. -/
def Obligations.CandidateIteration : Prop :=
  ∀ (e : Encoder) (kind : Kind) (len backOffset : Nat) (seq put : List Byte),
    e.estate = .scan → e.cur < e.n → e.lit.length ≠ 1023 →
    selectBest (findAll e.src.read e.n e.cur) = .found kind len seq backOffset → len ≠ 0 →
    put = (if e.lit = [] then [] else headerBytes .directCopy e.lit.length ++ e.lit) ++
      (headerBytes kind len ++ payloadBytes e.src.read e.cur kind backOffset) →
    ∃ comp, e.move = { e with
        lit := []
        comp := comp
        clen := e.clen + put.length
        cur := e.cur + len
        cand := findAll e.src.read e.n e.cur
        best := .found kind len seq backOffset } ∧
      e.comp.Appended comp e.clen put.length (fun j => put.getD j 0)

/-- R227: at the end of input the remaining run is put, then the terminator, and the call is done. -/
def Obligations.EndIteration : Prop :=
  ∀ (e : Encoder) (put : List Byte), e.estate = .scan → e.cur = e.n →
    put = (if e.lit = [] then [] else headerBytes .directCopy e.lit.length ++ e.lit) ++ [0xFF] →
    ∃ comp, e.move = { e with
        estate := .done, lit := [], comp := comp, clen := e.clen + put.length } ∧
      e.comp.Appended comp e.clen put.length (fun j => put.getD j 0)

/-! ### The headline -/

/-- R14, R232: the round trip. From any state with no pending start and no decode call running, an
encode call of any bytes ends with a compressed stream, and a decode call of that stream with any cap
at least the source length ends normally and returns the source: at the cap when the cap is the
source length, else at the terminator.
The pending list is the model's own, log entry 8. -/
def Obligations.RoundTrip : Prop :=
  ∀ (s : State) (source : List Byte), s.host = [] → s.dec.busy = false →
    ∃ k t packed, Host.Core.run Sys2Proof.core k (s.startEncode source) = .next t ∧
      t.enc.result = some packed ∧
      ∀ cap, source.length ≤ cap →
        ∃ k' u, Host.Core.run Sys2Proof.core k' (t.startDecode packed cap) = .next u ∧
          u.dec.result = some (.ok source) ∧
          u.dec.stop = some (if cap = source.length then .cap else .terminator)
end

