-- ==== Sys2Proof/Laws/Memory.lean ====
section
/-! SUPPORT. The laws of the byte spaces: what a read gives after each operation, and that every
operation keeps the canonical form. -/

namespace Sys2Proof.Machine

/-! ### Reads -/

@[simp] theorem Memory.read_nil (x : Nat) : Memory.read [] x = Memory.unlisted := rfl

theorem Memory.read_cons (a : Nat) (b : Byte) (m : Memory) (x : Nat) :
    Memory.read ((a, b) :: m) x = if a = x then b else Memory.read m x := rfl

theorem Memory.read_filter_pos (keep : Host.Cell → Bool) (m : Memory) (x : Nat)
    (h : ∀ b, keep (x, b) = true) : Memory.read (m.filter keep) x = Memory.read m x := by
  induction m with
  | nil => rfl
  | cons c m ih =>
    obtain ⟨a, b⟩ := c
    by_cases ha : a = x
    · subst ha
      simp [h b, Memory.read_cons]
    · by_cases hk : keep (a, b) = true
      · simp [hk, Memory.read_cons, ha, ih]
      · simp [hk, Memory.read_cons, ha, ih]

theorem Memory.read_filter_neg (keep : Host.Cell → Bool) (m : Memory) (x : Nat)
    (h : ∀ b, keep (x, b) = false) : Memory.read (m.filter keep) x = Memory.unlisted := by
  induction m with
  | nil => rfl
  | cons c m ih =>
    obtain ⟨a, b⟩ := c
    by_cases hk : keep (a, b) = true
    · have ha : a ≠ x := by
        rintro rfl
        simp [h b] at hk
      simp [hk, Memory.read_cons, ha, ih]
    · simp [hk, ih]

theorem Memory.read_erase_self (m : Memory) (x : Nat) : (m.erase x).read x = Memory.unlisted :=
  Memory.read_filter_neg _ m x (by simp)

theorem Memory.read_erase_other (m : Memory) {x y : Nat} (h : y ≠ x) :
    (m.erase x).read y = m.read y :=
  Memory.read_filter_pos _ m y (by simp [h])

theorem Memory.read_below_of_lt (m : Memory) {x y : Nat} (h : y < x) :
    (m.below x).read y = m.read y :=
  Memory.read_filter_pos _ m y (by simp [h])

theorem Memory.read_below_of_le (m : Memory) {x y : Nat} (h : x ≤ y) :
    (m.below x).read y = Memory.unlisted :=
  Memory.read_filter_neg _ m y (by simp [h])

theorem Memory.read_insert_other (m : Memory) {x y : Nat} (b : Byte) (h : y ≠ x) :
    (m.insert x b).read y = m.read y := by
  induction m with
  | nil => simp [Memory.insert, Memory.read_cons, Ne.symm h]
  | cons c m ih =>
    obtain ⟨a, c⟩ := c
    unfold Memory.insert
    split
    · simp [Memory.read_cons, Ne.symm h]
    · simp [Memory.read_cons, ih]

theorem Memory.read_insert_self (m : Memory) (x : Nat) (b : Byte) (h : ∀ c ∈ m, c.1 ≠ x) :
    (m.insert x b).read x = b := by
  induction m with
  | nil => simp [Memory.insert, Memory.read_cons]
  | cons c m ih =>
    obtain ⟨a, c⟩ := c
    unfold Memory.insert
    split
    · simp [Memory.read_cons]
    · have ha : a ≠ x := h (a, c) (by simp)
      simp [Memory.read_cons, ha, ih fun c hc => h c (by simp [hc])]

/-- Read after write, same address. -/
@[simp] theorem Memory.read_write_self (m : Memory) (x : Nat) (b : Byte) :
    (m.write x b).read x = b := by
  unfold Memory.write
  split
  · next h => rw [Memory.read_erase_self, h]
  · exact Memory.read_insert_self _ _ _ (by simp [Memory.erase])

/-- Read after write, another address. -/
theorem Memory.read_write_other (m : Memory) {x y : Nat} (b : Byte) (h : y ≠ x) :
    (m.write x b).read y = m.read y := by
  unfold Memory.write
  split
  · exact Memory.read_erase_other m h
  · rw [Memory.read_insert_other _ _ h, Memory.read_erase_other m h]

theorem Memory.read_write (m : Memory) (x y : Nat) (b : Byte) :
    (m.write x b).read y = if y = x then b else m.read y := by
  split
  · next h => rw [h, Memory.read_write_self]
  · next h => exact Memory.read_write_other m b h

theorem Memory.read_load (m : Memory) (x : Nat) (bs : List Byte) (y : Nat) :
    (m.load x bs).read y =
      if x ≤ y ∧ y < x + bs.length then bs.getD (y - x) Memory.unlisted else m.read y := by
  induction bs generalizing m x with
  | nil => simp [Memory.load]
  | cons b bs ih =>
    rw [Memory.load, ih, Memory.read_write, List.length_cons]
    by_cases h1 : x + 1 ≤ y ∧ y < x + 1 + bs.length
    · have h2 : x ≤ y ∧ y < x + (bs.length + 1) := by omega
      have h3 : y - x = (y - (x + 1)) + 1 := by omega
      simp only [h1, h2, and_self, if_true, h3, List.getD_cons_succ]
    · by_cases h2 : y = x
      · subst h2
        simp
      · have h3 : ¬(x ≤ y ∧ y < x + (bs.length + 1)) := by omega
        rw [if_neg h1, if_neg h2, if_neg h3]

theorem Memory.read_ofBytes (bs : List Byte) (y : Nat) :
    (Memory.ofBytes bs).read y = bs.getD y Memory.unlisted := by
  rw [Memory.ofBytes, Memory.read_load]
  by_cases h : y < bs.length
  · simp [h]
  · simp [h]

/-! ### Slices -/

@[simp] theorem Memory.length_slice (m : Memory) (x count : Nat) :
    (m.slice x count).length = count := by
  simp [Memory.slice]

theorem Memory.slice_zero (m : Memory) (x : Nat) : m.slice x 0 = [] := rfl

theorem Memory.slice_succ (m : Memory) (x count : Nat) :
    m.slice x (count + 1) = m.slice x count ++ [m.read (x + count)] := by
  simp [Memory.slice, List.range'_concat]

theorem Memory.slice_cons (m : Memory) (x count : Nat) :
    m.slice x (count + 1) = m.read x :: m.slice (x + 1) count := by
  simp [Memory.slice, List.range'_succ]

theorem Memory.slice_append (m : Memory) (x a b : Nat) :
    m.slice x (a + b) = m.slice x a ++ m.slice (x + a) b := by
  induction b with
  | zero => simp [Memory.slice_zero]
  | succ b ih => rw [← Nat.add_assoc, Memory.slice_succ, ih, Memory.slice_succ, List.append_assoc,
      Nat.add_assoc]

theorem Memory.slice_congr {m m' : Memory} {x count : Nat}
    (h : ∀ j < count, m.read (x + j) = m'.read (x + j)) : m.slice x count = m'.slice x count := by
  induction count with
  | zero => rfl
  | succ count ih =>
    rw [Memory.slice_succ, Memory.slice_succ, h count (by omega), ih fun j hj => h j (by omega)]

theorem Memory.slice_ofBytes (bs : List Byte) :
    (Memory.ofBytes bs).slice 0 bs.length = bs := by
  apply List.ext_getElem
  · simp
  · intro i h1 h2
    simp [Memory.slice, Memory.read_ofBytes, h2]

/-! ### The canonical form -/

theorem Memory.wf_nil : Memory.wf [] := by simp [Memory.wf]

theorem Memory.wf_filter (keep : Host.Cell → Bool) {m : Memory} (h : m.wf) :
    Memory.wf (m.filter keep) :=
  ⟨h.1.filter _, fun c hc => h.2 c (List.mem_of_mem_filter hc)⟩

theorem Memory.wf_erase {m : Memory} (x : Nat) (h : m.wf) : (m.erase x).wf :=
  Memory.wf_filter _ h

theorem Memory.wf_below {m : Memory} (x : Nat) (h : m.wf) : (m.below x).wf :=
  Memory.wf_filter _ h

theorem Memory.mem_insert {m : Memory} {x : Nat} {b : Byte} {c : Host.Cell} :
    c ∈ m.insert x b ↔ c = (x, b) ∨ c ∈ m := by
  induction m with
  | nil => simp [Memory.insert]
  | cons d m ih =>
    obtain ⟨a, d⟩ := d
    unfold Memory.insert
    split
    · simp
    · simp only [List.mem_cons, ih]
      tauto

theorem Memory.rising_insert {m : Memory} {x : Nat} {b : Byte}
    (h : m.Pairwise fun p q => p.1 < q.1) (hx : ∀ c ∈ m, c.1 ≠ x) :
    (m.insert x b).Pairwise fun p q => p.1 < q.1 := by
  induction m with
  | nil => simp [Memory.insert]
  | cons c m ih =>
    obtain ⟨a, c⟩ := c
    rw [List.pairwise_cons] at h
    unfold Memory.insert
    split
    · next hlt =>
      simp only [List.pairwise_cons, List.mem_cons]
      refine ⟨?_, h.1, h.2⟩
      rintro d (rfl | hd)
      · exact hlt
      · exact lt_trans hlt (h.1 d hd)
    · next hge =>
      have ha : a ≠ x := hx (a, c) (by simp)
      rw [List.pairwise_cons]
      refine ⟨?_, ih h.2 fun d hd => hx d (by simp [hd])⟩
      intro d hd
      rcases Memory.mem_insert.mp hd with rfl | hd
      · simp only; omega
      · exact h.1 d hd

/-- A write keeps the canonical form. -/
theorem Memory.wf_write {m : Memory} (x : Nat) (b : Byte) (h : m.wf) : (m.write x b).wf := by
  unfold Memory.write
  split
  · exact Memory.wf_erase x h
  · next hb =>
    refine ⟨Memory.rising_insert (Memory.wf_erase x h).1 (by simp [Memory.erase]), ?_⟩
    intro c hc
    rcases Memory.mem_insert.mp hc with rfl | hc
    · exact hb
    · exact (Memory.wf_erase x h).2 c hc

theorem Memory.wf_load {m : Memory} (x : Nat) (bs : List Byte) (h : m.wf) : (m.load x bs).wf := by
  induction bs generalizing m x with
  | nil => exact h
  | cons b bs ih => exact ih (x + 1) (Memory.wf_write x b h)

theorem Memory.wf_ofBytes (bs : List Byte) : (Memory.ofBytes bs).wf :=
  Memory.wf_load 0 bs Memory.wf_nil

/-! ### Nothing listed past a length -/

theorem Memory.within_nil (len : Nat) : Memory.within [] len := by simp [Memory.within]

theorem Memory.within_mono {m : Memory} {len len' : Nat} (h : m.within len) (hl : len ≤ len') :
    m.within len' :=
  fun c hc => lt_of_lt_of_le (h c hc) hl

theorem Memory.within_write {m : Memory} {len : Nat} (x : Nat) (b : Byte) (h : m.within len)
    (hx : x < len) : (m.write x b).within len := by
  intro c hc
  unfold Memory.write at hc
  split at hc
  · exact h c (List.mem_of_mem_filter hc)
  · rcases Memory.mem_insert.mp hc with rfl | hc
    · exact hx
    · exact h c (List.mem_of_mem_filter hc)

theorem Memory.within_append {m : Memory} {len : Nat} (b : Byte) (h : m.within len) :
    (m.write len b).within (len + 1) :=
  Memory.within_write len b (Memory.within_mono h (Nat.le_succ _)) (Nat.lt_succ_self _)

theorem Memory.within_load {m : Memory} {len : Nat} (x : Nat) (bs : List Byte) (h : m.within len)
    (hx : x + bs.length ≤ len) : (m.load x bs).within len := by
  induction bs generalizing m x with
  | nil => exact h
  | cons b bs ih =>
    rw [List.length_cons] at hx
    exact ih (x + 1) (Memory.within_write x b h (by omega)) (by omega)

theorem Memory.within_ofBytes (bs : List Byte) : (Memory.ofBytes bs).within bs.length :=
  Memory.within_load 0 bs (Memory.within_nil _) (by omega)

/-- Equal bytes make equal canonical memories. -/
theorem Memory.ext_of_read {m m' : Memory} (h : m.wf) (h' : m'.wf)
    (hr : ∀ x, m.read x = m'.read x) : m = m' := by
  have key : ∀ {m : Memory}, m.wf → ∀ x b, (x, b) ∈ m ↔ m.read x = b ∧ b ≠ Memory.unlisted := by
    intro m
    induction m with
    | nil => intro _ x b; simp; intro h; exact h.symm
    | cons c m ih =>
      obtain ⟨a, c⟩ := c
      intro hw x b
      have hw' : Memory.wf m :=
        ⟨(List.pairwise_cons.mp hw.1).2, fun c hc => hw.2 c (by simp [hc])⟩
      have hlt := (List.pairwise_cons.mp hw.1).1
      have hc := hw.2 (a, c) (by simp)
      rw [List.mem_cons, Memory.read_cons]
      by_cases hax : a = x
      · subst hax
        have hn : (a, b) ∉ m := fun hm => absurd (hlt _ hm) (by simp)
        simp only [Prod.mk.injEq, true_and, hn, or_false, if_true]
        constructor
        · rintro rfl; exact ⟨rfl, hc⟩
        · rintro ⟨rfl, _⟩; rfl
      · simp only [Prod.mk.injEq, Ne.symm hax, false_and, false_or, hax, if_false]
        exact ih hw' x b
  have hp : m.Perm m' := by
    refine (List.perm_ext_iff_of_nodup ?_ ?_).mpr ?_
    · exact h.1.imp fun hlt heq => absurd hlt (by simp [heq])
    · exact h'.1.imp fun hlt heq => absurd hlt (by simp [heq])
    · rintro ⟨x, b⟩
      rw [key h, key h', hr]
  exact hp.eq_of_pairwise (fun p q _ _ hpq hqp => absurd hpq (by omega)) h.1 h'.1

end Sys2Proof.Machine
end

