-- ==== Sys2Proof/Laws/State.lean ====
section
/-! SUPPORT. What each named update does to each field: one lemma per field per update. -/

namespace Sys2Proof.Machine

/-! ### `Decoder.raise` -/

@[simp] theorem Decoder.raise_dstate (d : Decoder) (c : Cause) (i : Int) :
    (d.raise c i).dstate = .fault := rfl

@[simp] theorem Decoder.raise_stream (d : Decoder) (c : Cause) (i : Int) :
    (d.raise c i).stream = d.stream := rfl

@[simp] theorem Decoder.raise_slen (d : Decoder) (c : Cause) (i : Int) :
    (d.raise c i).slen = d.slen := rfl

@[simp] theorem Decoder.raise_sp (d : Decoder) (c : Cause) (i : Int) :
    (d.raise c i).sp = d.sp := rfl

@[simp] theorem Decoder.raise_out (d : Decoder) (c : Cause) (i : Int) :
    (d.raise c i).out = d.out := rfl

@[simp] theorem Decoder.raise_olen (d : Decoder) (c : Cause) (i : Int) :
    (d.raise c i).olen = d.olen := rfl

@[simp] theorem Decoder.raise_maxOut (d : Decoder) (c : Cause) (i : Int) :
    (d.raise c i).maxOut = d.maxOut := rfl

@[simp] theorem Decoder.raise_h0 (d : Decoder) (c : Cause) (i : Int) :
    (d.raise c i).h0 = d.h0 := rfl

@[simp] theorem Decoder.raise_kind (d : Decoder) (c : Cause) (i : Int) :
    (d.raise c i).kind = d.kind := rfl

@[simp] theorem Decoder.raise_len (d : Decoder) (c : Cause) (i : Int) :
    (d.raise c i).len = d.len := rfl

@[simp] theorem Decoder.raise_k (d : Decoder) (c : Cause) (i : Int) :
    (d.raise c i).k = d.k := rfl

@[simp] theorem Decoder.raise_v (d : Decoder) (c : Cause) (i : Int) :
    (d.raise c i).v = d.v := rfl

@[simp] theorem Decoder.raise_lo (d : Decoder) (c : Cause) (i : Int) :
    (d.raise c i).lo = d.lo := rfl

@[simp] theorem Decoder.raise_hi (d : Decoder) (c : Cause) (i : Int) :
    (d.raise c i).hi = d.hi := rfl

@[simp] theorem Decoder.raise_base (d : Decoder) (c : Cause) (i : Int) :
    (d.raise c i).base = d.base := rfl

@[simp] theorem Decoder.raise_xm (d : Decoder) (c : Cause) (i : Int) :
    (d.raise c i).xm = d.xm := rfl

@[simp] theorem Decoder.raise_stop (d : Decoder) (c : Cause) (i : Int) :
    (d.raise c i).stop = d.stop := rfl

@[simp] theorem Decoder.raise_cause (d : Decoder) (c : Cause) (i : Int) :
    (d.raise c i).cause = some c := rfl

@[simp] theorem Decoder.raise_info (d : Decoder) (c : Cause) (i : Int) :
    (d.raise c i).info = some i := rfl

/-! ### `Decoder.finish` -/

@[simp] theorem Decoder.finish_dstate (d : Decoder) (r : StopReason) :
    (d.finish r).dstate = .done := rfl

@[simp] theorem Decoder.finish_stream (d : Decoder) (r : StopReason) :
    (d.finish r).stream = d.stream := rfl

@[simp] theorem Decoder.finish_slen (d : Decoder) (r : StopReason) :
    (d.finish r).slen = d.slen := rfl

@[simp] theorem Decoder.finish_sp (d : Decoder) (r : StopReason) :
    (d.finish r).sp = d.sp := rfl

@[simp] theorem Decoder.finish_out (d : Decoder) (r : StopReason) :
    (d.finish r).out = d.out := rfl

@[simp] theorem Decoder.finish_olen (d : Decoder) (r : StopReason) :
    (d.finish r).olen = d.olen := rfl

@[simp] theorem Decoder.finish_maxOut (d : Decoder) (r : StopReason) :
    (d.finish r).maxOut = d.maxOut := rfl

@[simp] theorem Decoder.finish_h0 (d : Decoder) (r : StopReason) :
    (d.finish r).h0 = d.h0 := rfl

@[simp] theorem Decoder.finish_kind (d : Decoder) (r : StopReason) :
    (d.finish r).kind = d.kind := rfl

@[simp] theorem Decoder.finish_len (d : Decoder) (r : StopReason) :
    (d.finish r).len = d.len := rfl

@[simp] theorem Decoder.finish_k (d : Decoder) (r : StopReason) :
    (d.finish r).k = d.k := rfl

@[simp] theorem Decoder.finish_v (d : Decoder) (r : StopReason) :
    (d.finish r).v = d.v := rfl

@[simp] theorem Decoder.finish_lo (d : Decoder) (r : StopReason) :
    (d.finish r).lo = d.lo := rfl

@[simp] theorem Decoder.finish_hi (d : Decoder) (r : StopReason) :
    (d.finish r).hi = d.hi := rfl

@[simp] theorem Decoder.finish_base (d : Decoder) (r : StopReason) :
    (d.finish r).base = d.base := rfl

@[simp] theorem Decoder.finish_xm (d : Decoder) (r : StopReason) :
    (d.finish r).xm = d.xm := rfl

@[simp] theorem Decoder.finish_stop (d : Decoder) (r : StopReason) :
    (d.finish r).stop = some r := rfl

@[simp] theorem Decoder.finish_cause (d : Decoder) (r : StopReason) :
    (d.finish r).cause = d.cause := rfl

@[simp] theorem Decoder.finish_info (d : Decoder) (r : StopReason) :
    (d.finish r).info = d.info := rfl

/-! ### `Decoder.advance` -/

@[simp] theorem Decoder.advance_dstate (d : Decoder) :
    (d.advance).dstate = d.dstate := rfl

@[simp] theorem Decoder.advance_stream (d : Decoder) :
    (d.advance).stream = d.stream := rfl

@[simp] theorem Decoder.advance_slen (d : Decoder) :
    (d.advance).slen = d.slen := rfl

@[simp] theorem Decoder.advance_sp (d : Decoder) :
    (d.advance).sp = d.sp + 1 := rfl

@[simp] theorem Decoder.advance_out (d : Decoder) :
    (d.advance).out = d.out := rfl

@[simp] theorem Decoder.advance_olen (d : Decoder) :
    (d.advance).olen = d.olen := rfl

@[simp] theorem Decoder.advance_maxOut (d : Decoder) :
    (d.advance).maxOut = d.maxOut := rfl

@[simp] theorem Decoder.advance_h0 (d : Decoder) :
    (d.advance).h0 = d.h0 := rfl

@[simp] theorem Decoder.advance_kind (d : Decoder) :
    (d.advance).kind = d.kind := rfl

@[simp] theorem Decoder.advance_len (d : Decoder) :
    (d.advance).len = d.len := rfl

@[simp] theorem Decoder.advance_k (d : Decoder) :
    (d.advance).k = d.k := rfl

@[simp] theorem Decoder.advance_v (d : Decoder) :
    (d.advance).v = d.v := rfl

@[simp] theorem Decoder.advance_lo (d : Decoder) :
    (d.advance).lo = d.lo := rfl

@[simp] theorem Decoder.advance_hi (d : Decoder) :
    (d.advance).hi = d.hi := rfl

@[simp] theorem Decoder.advance_base (d : Decoder) :
    (d.advance).base = d.base := rfl

@[simp] theorem Decoder.advance_xm (d : Decoder) :
    (d.advance).xm = d.xm := rfl

@[simp] theorem Decoder.advance_stop (d : Decoder) :
    (d.advance).stop = d.stop := rfl

@[simp] theorem Decoder.advance_cause (d : Decoder) :
    (d.advance).cause = d.cause := rfl

@[simp] theorem Decoder.advance_info (d : Decoder) :
    (d.advance).info = d.info := rfl

/-! ### `Decoder.emit` -/

@[simp] theorem Decoder.emit_dstate (d : Decoder) (b : Byte) :
    (d.emit b).dstate = d.dstate := rfl

@[simp] theorem Decoder.emit_stream (d : Decoder) (b : Byte) :
    (d.emit b).stream = d.stream := rfl

@[simp] theorem Decoder.emit_slen (d : Decoder) (b : Byte) :
    (d.emit b).slen = d.slen := rfl

@[simp] theorem Decoder.emit_sp (d : Decoder) (b : Byte) :
    (d.emit b).sp = d.sp := rfl

@[simp] theorem Decoder.emit_out (d : Decoder) (b : Byte) :
    (d.emit b).out = d.out.write d.olen b := rfl

@[simp] theorem Decoder.emit_olen (d : Decoder) (b : Byte) :
    (d.emit b).olen = d.olen + 1 := rfl

@[simp] theorem Decoder.emit_maxOut (d : Decoder) (b : Byte) :
    (d.emit b).maxOut = d.maxOut := rfl

@[simp] theorem Decoder.emit_h0 (d : Decoder) (b : Byte) :
    (d.emit b).h0 = d.h0 := rfl

@[simp] theorem Decoder.emit_kind (d : Decoder) (b : Byte) :
    (d.emit b).kind = d.kind := rfl

@[simp] theorem Decoder.emit_len (d : Decoder) (b : Byte) :
    (d.emit b).len = d.len := rfl

@[simp] theorem Decoder.emit_k (d : Decoder) (b : Byte) :
    (d.emit b).k = d.k := rfl

@[simp] theorem Decoder.emit_v (d : Decoder) (b : Byte) :
    (d.emit b).v = d.v := rfl

@[simp] theorem Decoder.emit_lo (d : Decoder) (b : Byte) :
    (d.emit b).lo = d.lo := rfl

@[simp] theorem Decoder.emit_hi (d : Decoder) (b : Byte) :
    (d.emit b).hi = d.hi := rfl

@[simp] theorem Decoder.emit_base (d : Decoder) (b : Byte) :
    (d.emit b).base = d.base := rfl

@[simp] theorem Decoder.emit_xm (d : Decoder) (b : Byte) :
    (d.emit b).xm = d.xm := rfl

@[simp] theorem Decoder.emit_stop (d : Decoder) (b : Byte) :
    (d.emit b).stop = d.stop := rfl

@[simp] theorem Decoder.emit_cause (d : Decoder) (b : Byte) :
    (d.emit b).cause = d.cause := rfl

@[simp] theorem Decoder.emit_info (d : Decoder) (b : Byte) :
    (d.emit b).info = d.info := rfl

/-! ### `Decoder.countByte` -/

@[simp] theorem Decoder.countByte_dstate (d : Decoder) :
    (d.countByte).dstate = d.dstate := rfl

@[simp] theorem Decoder.countByte_stream (d : Decoder) :
    (d.countByte).stream = d.stream := rfl

@[simp] theorem Decoder.countByte_slen (d : Decoder) :
    (d.countByte).slen = d.slen := rfl

@[simp] theorem Decoder.countByte_sp (d : Decoder) :
    (d.countByte).sp = d.sp := rfl

@[simp] theorem Decoder.countByte_out (d : Decoder) :
    (d.countByte).out = d.out := rfl

@[simp] theorem Decoder.countByte_olen (d : Decoder) :
    (d.countByte).olen = d.olen := rfl

@[simp] theorem Decoder.countByte_maxOut (d : Decoder) :
    (d.countByte).maxOut = d.maxOut := rfl

@[simp] theorem Decoder.countByte_h0 (d : Decoder) :
    (d.countByte).h0 = d.h0 := rfl

@[simp] theorem Decoder.countByte_kind (d : Decoder) :
    (d.countByte).kind = d.kind := rfl

@[simp] theorem Decoder.countByte_len (d : Decoder) :
    (d.countByte).len = d.len := rfl

@[simp] theorem Decoder.countByte_k (d : Decoder) :
    (d.countByte).k = d.k + 1 := rfl

@[simp] theorem Decoder.countByte_v (d : Decoder) :
    (d.countByte).v = d.v := rfl

@[simp] theorem Decoder.countByte_lo (d : Decoder) :
    (d.countByte).lo = d.lo := rfl

@[simp] theorem Decoder.countByte_hi (d : Decoder) :
    (d.countByte).hi = d.hi := rfl

@[simp] theorem Decoder.countByte_base (d : Decoder) :
    (d.countByte).base = d.base := rfl

@[simp] theorem Decoder.countByte_xm (d : Decoder) :
    (d.countByte).xm = d.xm := rfl

@[simp] theorem Decoder.countByte_stop (d : Decoder) :
    (d.countByte).stop = d.stop := rfl

@[simp] theorem Decoder.countByte_cause (d : Decoder) :
    (d.countByte).cause = d.cause := rfl

@[simp] theorem Decoder.countByte_info (d : Decoder) :
    (d.countByte).info = d.info := rfl

/-! ### `Decoder.latchHeader` -/

@[simp] theorem Decoder.latchHeader_dstate (d : Decoder) (t : Kind) (n : Nat) :
    (d.latchHeader t n).dstate = .execute := rfl

@[simp] theorem Decoder.latchHeader_stream (d : Decoder) (t : Kind) (n : Nat) :
    (d.latchHeader t n).stream = d.stream := rfl

@[simp] theorem Decoder.latchHeader_slen (d : Decoder) (t : Kind) (n : Nat) :
    (d.latchHeader t n).slen = d.slen := rfl

@[simp] theorem Decoder.latchHeader_sp (d : Decoder) (t : Kind) (n : Nat) :
    (d.latchHeader t n).sp = d.sp := rfl

@[simp] theorem Decoder.latchHeader_out (d : Decoder) (t : Kind) (n : Nat) :
    (d.latchHeader t n).out = d.out := rfl

@[simp] theorem Decoder.latchHeader_olen (d : Decoder) (t : Kind) (n : Nat) :
    (d.latchHeader t n).olen = d.olen := rfl

@[simp] theorem Decoder.latchHeader_maxOut (d : Decoder) (t : Kind) (n : Nat) :
    (d.latchHeader t n).maxOut = d.maxOut := rfl

@[simp] theorem Decoder.latchHeader_h0 (d : Decoder) (t : Kind) (n : Nat) :
    (d.latchHeader t n).h0 = d.h0 := rfl

@[simp] theorem Decoder.latchHeader_kind (d : Decoder) (t : Kind) (n : Nat) :
    (d.latchHeader t n).kind = t := rfl

@[simp] theorem Decoder.latchHeader_len (d : Decoder) (t : Kind) (n : Nat) :
    (d.latchHeader t n).len = n := rfl

@[simp] theorem Decoder.latchHeader_k (d : Decoder) (t : Kind) (n : Nat) :
    (d.latchHeader t n).k = d.k := rfl

@[simp] theorem Decoder.latchHeader_v (d : Decoder) (t : Kind) (n : Nat) :
    (d.latchHeader t n).v = d.v := rfl

@[simp] theorem Decoder.latchHeader_lo (d : Decoder) (t : Kind) (n : Nat) :
    (d.latchHeader t n).lo = d.lo := rfl

@[simp] theorem Decoder.latchHeader_hi (d : Decoder) (t : Kind) (n : Nat) :
    (d.latchHeader t n).hi = d.hi := rfl

@[simp] theorem Decoder.latchHeader_base (d : Decoder) (t : Kind) (n : Nat) :
    (d.latchHeader t n).base = d.base := rfl

@[simp] theorem Decoder.latchHeader_xm (d : Decoder) (t : Kind) (n : Nat) :
    (d.latchHeader t n).xm = d.xm := rfl

@[simp] theorem Decoder.latchHeader_stop (d : Decoder) (t : Kind) (n : Nat) :
    (d.latchHeader t n).stop = d.stop := rfl

@[simp] theorem Decoder.latchHeader_cause (d : Decoder) (t : Kind) (n : Nat) :
    (d.latchHeader t n).cause = d.cause := rfl

@[simp] theorem Decoder.latchHeader_info (d : Decoder) (t : Kind) (n : Nat) :
    (d.latchHeader t n).info = d.info := rfl

/-! ### `Decoder.clearCount` -/

@[simp] theorem Decoder.clearCount_dstate (d : Decoder) :
    (d.clearCount).dstate = d.dstate := rfl

@[simp] theorem Decoder.clearCount_stream (d : Decoder) :
    (d.clearCount).stream = d.stream := rfl

@[simp] theorem Decoder.clearCount_slen (d : Decoder) :
    (d.clearCount).slen = d.slen := rfl

@[simp] theorem Decoder.clearCount_sp (d : Decoder) :
    (d.clearCount).sp = d.sp := rfl

@[simp] theorem Decoder.clearCount_out (d : Decoder) :
    (d.clearCount).out = d.out := rfl

@[simp] theorem Decoder.clearCount_olen (d : Decoder) :
    (d.clearCount).olen = d.olen := rfl

@[simp] theorem Decoder.clearCount_maxOut (d : Decoder) :
    (d.clearCount).maxOut = d.maxOut := rfl

@[simp] theorem Decoder.clearCount_h0 (d : Decoder) :
    (d.clearCount).h0 = d.h0 := rfl

@[simp] theorem Decoder.clearCount_kind (d : Decoder) :
    (d.clearCount).kind = d.kind := rfl

@[simp] theorem Decoder.clearCount_len (d : Decoder) :
    (d.clearCount).len = d.len := rfl

@[simp] theorem Decoder.clearCount_k (d : Decoder) :
    (d.clearCount).k = 0 := rfl

@[simp] theorem Decoder.clearCount_v (d : Decoder) :
    (d.clearCount).v = d.v := rfl

@[simp] theorem Decoder.clearCount_lo (d : Decoder) :
    (d.clearCount).lo = d.lo := rfl

@[simp] theorem Decoder.clearCount_hi (d : Decoder) :
    (d.clearCount).hi = d.hi := rfl

@[simp] theorem Decoder.clearCount_base (d : Decoder) :
    (d.clearCount).base = d.base := rfl

@[simp] theorem Decoder.clearCount_xm (d : Decoder) :
    (d.clearCount).xm = d.xm := rfl

@[simp] theorem Decoder.clearCount_stop (d : Decoder) :
    (d.clearCount).stop = d.stop := rfl

@[simp] theorem Decoder.clearCount_cause (d : Decoder) :
    (d.clearCount).cause = d.cause := rfl

@[simp] theorem Decoder.clearCount_info (d : Decoder) :
    (d.clearCount).info = d.info := rfl

/-! ### `Decoder.latchValue` -/

@[simp] theorem Decoder.latchValue_dstate (d : Decoder) (b : Byte) :
    (d.latchValue b).dstate = d.dstate := rfl

@[simp] theorem Decoder.latchValue_stream (d : Decoder) (b : Byte) :
    (d.latchValue b).stream = d.stream := rfl

@[simp] theorem Decoder.latchValue_slen (d : Decoder) (b : Byte) :
    (d.latchValue b).slen = d.slen := rfl

@[simp] theorem Decoder.latchValue_sp (d : Decoder) (b : Byte) :
    (d.latchValue b).sp = d.sp := rfl

@[simp] theorem Decoder.latchValue_out (d : Decoder) (b : Byte) :
    (d.latchValue b).out = d.out := rfl

@[simp] theorem Decoder.latchValue_olen (d : Decoder) (b : Byte) :
    (d.latchValue b).olen = d.olen := rfl

@[simp] theorem Decoder.latchValue_maxOut (d : Decoder) (b : Byte) :
    (d.latchValue b).maxOut = d.maxOut := rfl

@[simp] theorem Decoder.latchValue_h0 (d : Decoder) (b : Byte) :
    (d.latchValue b).h0 = d.h0 := rfl

@[simp] theorem Decoder.latchValue_kind (d : Decoder) (b : Byte) :
    (d.latchValue b).kind = d.kind := rfl

@[simp] theorem Decoder.latchValue_len (d : Decoder) (b : Byte) :
    (d.latchValue b).len = d.len := rfl

@[simp] theorem Decoder.latchValue_k (d : Decoder) (b : Byte) :
    (d.latchValue b).k = d.k := rfl

@[simp] theorem Decoder.latchValue_v (d : Decoder) (b : Byte) :
    (d.latchValue b).v = b := rfl

@[simp] theorem Decoder.latchValue_lo (d : Decoder) (b : Byte) :
    (d.latchValue b).lo = d.lo := rfl

@[simp] theorem Decoder.latchValue_hi (d : Decoder) (b : Byte) :
    (d.latchValue b).hi = d.hi := rfl

@[simp] theorem Decoder.latchValue_base (d : Decoder) (b : Byte) :
    (d.latchValue b).base = d.base := rfl

@[simp] theorem Decoder.latchValue_xm (d : Decoder) (b : Byte) :
    (d.latchValue b).xm = d.xm := rfl

@[simp] theorem Decoder.latchValue_stop (d : Decoder) (b : Byte) :
    (d.latchValue b).stop = d.stop := rfl

@[simp] theorem Decoder.latchValue_cause (d : Decoder) (b : Byte) :
    (d.latchValue b).cause = d.cause := rfl

@[simp] theorem Decoder.latchValue_info (d : Decoder) (b : Byte) :
    (d.latchValue b).info = d.info := rfl

/-! ### `Decoder.latchLo` -/

@[simp] theorem Decoder.latchLo_dstate (d : Decoder) (b : Byte) :
    (d.latchLo b).dstate = d.dstate := rfl

@[simp] theorem Decoder.latchLo_stream (d : Decoder) (b : Byte) :
    (d.latchLo b).stream = d.stream := rfl

@[simp] theorem Decoder.latchLo_slen (d : Decoder) (b : Byte) :
    (d.latchLo b).slen = d.slen := rfl

@[simp] theorem Decoder.latchLo_sp (d : Decoder) (b : Byte) :
    (d.latchLo b).sp = d.sp := rfl

@[simp] theorem Decoder.latchLo_out (d : Decoder) (b : Byte) :
    (d.latchLo b).out = d.out := rfl

@[simp] theorem Decoder.latchLo_olen (d : Decoder) (b : Byte) :
    (d.latchLo b).olen = d.olen := rfl

@[simp] theorem Decoder.latchLo_maxOut (d : Decoder) (b : Byte) :
    (d.latchLo b).maxOut = d.maxOut := rfl

@[simp] theorem Decoder.latchLo_h0 (d : Decoder) (b : Byte) :
    (d.latchLo b).h0 = d.h0 := rfl

@[simp] theorem Decoder.latchLo_kind (d : Decoder) (b : Byte) :
    (d.latchLo b).kind = d.kind := rfl

@[simp] theorem Decoder.latchLo_len (d : Decoder) (b : Byte) :
    (d.latchLo b).len = d.len := rfl

@[simp] theorem Decoder.latchLo_k (d : Decoder) (b : Byte) :
    (d.latchLo b).k = d.k := rfl

@[simp] theorem Decoder.latchLo_v (d : Decoder) (b : Byte) :
    (d.latchLo b).v = d.v := rfl

@[simp] theorem Decoder.latchLo_lo (d : Decoder) (b : Byte) :
    (d.latchLo b).lo = b := rfl

@[simp] theorem Decoder.latchLo_hi (d : Decoder) (b : Byte) :
    (d.latchLo b).hi = d.hi := rfl

@[simp] theorem Decoder.latchLo_base (d : Decoder) (b : Byte) :
    (d.latchLo b).base = d.base := rfl

@[simp] theorem Decoder.latchLo_xm (d : Decoder) (b : Byte) :
    (d.latchLo b).xm = d.xm := rfl

@[simp] theorem Decoder.latchLo_stop (d : Decoder) (b : Byte) :
    (d.latchLo b).stop = d.stop := rfl

@[simp] theorem Decoder.latchLo_cause (d : Decoder) (b : Byte) :
    (d.latchLo b).cause = d.cause := rfl

@[simp] theorem Decoder.latchLo_info (d : Decoder) (b : Byte) :
    (d.latchLo b).info = d.info := rfl

/-! ### `Decoder.latchHi` -/

@[simp] theorem Decoder.latchHi_dstate (d : Decoder) (b : Byte) :
    (d.latchHi b).dstate = d.dstate := rfl

@[simp] theorem Decoder.latchHi_stream (d : Decoder) (b : Byte) :
    (d.latchHi b).stream = d.stream := rfl

@[simp] theorem Decoder.latchHi_slen (d : Decoder) (b : Byte) :
    (d.latchHi b).slen = d.slen := rfl

@[simp] theorem Decoder.latchHi_sp (d : Decoder) (b : Byte) :
    (d.latchHi b).sp = d.sp := rfl

@[simp] theorem Decoder.latchHi_out (d : Decoder) (b : Byte) :
    (d.latchHi b).out = d.out := rfl

@[simp] theorem Decoder.latchHi_olen (d : Decoder) (b : Byte) :
    (d.latchHi b).olen = d.olen := rfl

@[simp] theorem Decoder.latchHi_maxOut (d : Decoder) (b : Byte) :
    (d.latchHi b).maxOut = d.maxOut := rfl

@[simp] theorem Decoder.latchHi_h0 (d : Decoder) (b : Byte) :
    (d.latchHi b).h0 = d.h0 := rfl

@[simp] theorem Decoder.latchHi_kind (d : Decoder) (b : Byte) :
    (d.latchHi b).kind = d.kind := rfl

@[simp] theorem Decoder.latchHi_len (d : Decoder) (b : Byte) :
    (d.latchHi b).len = d.len := rfl

@[simp] theorem Decoder.latchHi_k (d : Decoder) (b : Byte) :
    (d.latchHi b).k = d.k := rfl

@[simp] theorem Decoder.latchHi_v (d : Decoder) (b : Byte) :
    (d.latchHi b).v = d.v := rfl

@[simp] theorem Decoder.latchHi_lo (d : Decoder) (b : Byte) :
    (d.latchHi b).lo = d.lo := rfl

@[simp] theorem Decoder.latchHi_hi (d : Decoder) (b : Byte) :
    (d.latchHi b).hi = b := rfl

@[simp] theorem Decoder.latchHi_base (d : Decoder) (b : Byte) :
    (d.latchHi b).base = d.base := rfl

@[simp] theorem Decoder.latchHi_xm (d : Decoder) (b : Byte) :
    (d.latchHi b).xm = d.xm := rfl

@[simp] theorem Decoder.latchHi_stop (d : Decoder) (b : Byte) :
    (d.latchHi b).stop = d.stop := rfl

@[simp] theorem Decoder.latchHi_cause (d : Decoder) (b : Byte) :
    (d.latchHi b).cause = d.cause := rfl

@[simp] theorem Decoder.latchHi_info (d : Decoder) (b : Byte) :
    (d.latchHi b).info = d.info := rfl

/-! ### `Decoder.latchCopy` -/

@[simp] theorem Decoder.latchCopy_dstate (d : Decoder) (i : Int) (b : Byte) :
    (d.latchCopy i b).dstate = d.dstate := rfl

@[simp] theorem Decoder.latchCopy_stream (d : Decoder) (i : Int) (b : Byte) :
    (d.latchCopy i b).stream = d.stream := rfl

@[simp] theorem Decoder.latchCopy_slen (d : Decoder) (i : Int) (b : Byte) :
    (d.latchCopy i b).slen = d.slen := rfl

@[simp] theorem Decoder.latchCopy_sp (d : Decoder) (i : Int) (b : Byte) :
    (d.latchCopy i b).sp = d.sp := rfl

@[simp] theorem Decoder.latchCopy_out (d : Decoder) (i : Int) (b : Byte) :
    (d.latchCopy i b).out = d.out := rfl

@[simp] theorem Decoder.latchCopy_olen (d : Decoder) (i : Int) (b : Byte) :
    (d.latchCopy i b).olen = d.olen := rfl

@[simp] theorem Decoder.latchCopy_maxOut (d : Decoder) (i : Int) (b : Byte) :
    (d.latchCopy i b).maxOut = d.maxOut := rfl

@[simp] theorem Decoder.latchCopy_h0 (d : Decoder) (i : Int) (b : Byte) :
    (d.latchCopy i b).h0 = d.h0 := rfl

@[simp] theorem Decoder.latchCopy_kind (d : Decoder) (i : Int) (b : Byte) :
    (d.latchCopy i b).kind = d.kind := rfl

@[simp] theorem Decoder.latchCopy_len (d : Decoder) (i : Int) (b : Byte) :
    (d.latchCopy i b).len = d.len := rfl

@[simp] theorem Decoder.latchCopy_k (d : Decoder) (i : Int) (b : Byte) :
    (d.latchCopy i b).k = d.k := rfl

@[simp] theorem Decoder.latchCopy_v (d : Decoder) (i : Int) (b : Byte) :
    (d.latchCopy i b).v = d.v := rfl

@[simp] theorem Decoder.latchCopy_lo (d : Decoder) (i : Int) (b : Byte) :
    (d.latchCopy i b).lo = d.lo := rfl

@[simp] theorem Decoder.latchCopy_hi (d : Decoder) (i : Int) (b : Byte) :
    (d.latchCopy i b).hi = d.hi := rfl

@[simp] theorem Decoder.latchCopy_base (d : Decoder) (i : Int) (b : Byte) :
    (d.latchCopy i b).base = i := rfl

@[simp] theorem Decoder.latchCopy_xm (d : Decoder) (i : Int) (b : Byte) :
    (d.latchCopy i b).xm = b := rfl

@[simp] theorem Decoder.latchCopy_stop (d : Decoder) (i : Int) (b : Byte) :
    (d.latchCopy i b).stop = d.stop := rfl

@[simp] theorem Decoder.latchCopy_cause (d : Decoder) (i : Int) (b : Byte) :
    (d.latchCopy i b).cause = d.cause := rfl

@[simp] theorem Decoder.latchCopy_info (d : Decoder) (i : Int) (b : Byte) :
    (d.latchCopy i b).info = d.info := rfl

/-! ### `Decoder.complete` -/

@[simp] theorem Decoder.complete_dstate (d : Decoder) :
    (d.complete).dstate = .readHeader := rfl

@[simp] theorem Decoder.complete_stream (d : Decoder) :
    (d.complete).stream = d.stream := rfl

@[simp] theorem Decoder.complete_slen (d : Decoder) :
    (d.complete).slen = d.slen := rfl

@[simp] theorem Decoder.complete_sp (d : Decoder) :
    (d.complete).sp = d.sp := rfl

@[simp] theorem Decoder.complete_out (d : Decoder) :
    (d.complete).out = d.out := rfl

@[simp] theorem Decoder.complete_olen (d : Decoder) :
    (d.complete).olen = d.olen := rfl

@[simp] theorem Decoder.complete_maxOut (d : Decoder) :
    (d.complete).maxOut = d.maxOut := rfl

@[simp] theorem Decoder.complete_h0 (d : Decoder) :
    (d.complete).h0 = d.h0 := rfl

@[simp] theorem Decoder.complete_kind (d : Decoder) :
    (d.complete).kind = d.kind := rfl

@[simp] theorem Decoder.complete_len (d : Decoder) :
    (d.complete).len = d.len := rfl

@[simp] theorem Decoder.complete_k (d : Decoder) :
    (d.complete).k = d.k := rfl

@[simp] theorem Decoder.complete_v (d : Decoder) :
    (d.complete).v = d.v := rfl

@[simp] theorem Decoder.complete_lo (d : Decoder) :
    (d.complete).lo = d.lo := rfl

@[simp] theorem Decoder.complete_hi (d : Decoder) :
    (d.complete).hi = d.hi := rfl

@[simp] theorem Decoder.complete_base (d : Decoder) :
    (d.complete).base = d.base := rfl

@[simp] theorem Decoder.complete_xm (d : Decoder) :
    (d.complete).xm = d.xm := rfl

@[simp] theorem Decoder.complete_stop (d : Decoder) :
    (d.complete).stop = d.stop := rfl

@[simp] theorem Decoder.complete_cause (d : Decoder) :
    (d.complete).cause = d.cause := rfl

@[simp] theorem Decoder.complete_info (d : Decoder) :
    (d.complete).info = d.info := rfl

/-! ### `Decoder.takeHeader` -/

@[simp] theorem Decoder.takeHeader_dstate (d : Decoder) (size : Nat) :
    (d.takeHeader size).dstate = if escapes (d.stream.read d.sp) then .readExt else d.dstate := rfl

@[simp] theorem Decoder.takeHeader_stream (d : Decoder) (size : Nat) :
    (d.takeHeader size).stream = d.stream := rfl

@[simp] theorem Decoder.takeHeader_slen (d : Decoder) (size : Nat) :
    (d.takeHeader size).slen = d.slen := rfl

@[simp] theorem Decoder.takeHeader_sp (d : Decoder) (size : Nat) :
    (d.takeHeader size).sp = d.sp + size := rfl

@[simp] theorem Decoder.takeHeader_out (d : Decoder) (size : Nat) :
    (d.takeHeader size).out = d.out := rfl

@[simp] theorem Decoder.takeHeader_olen (d : Decoder) (size : Nat) :
    (d.takeHeader size).olen = d.olen := rfl

@[simp] theorem Decoder.takeHeader_maxOut (d : Decoder) (size : Nat) :
    (d.takeHeader size).maxOut = d.maxOut := rfl

@[simp] theorem Decoder.takeHeader_h0 (d : Decoder) (size : Nat) :
    (d.takeHeader size).h0 = d.stream.read d.sp := rfl

@[simp] theorem Decoder.takeHeader_kind (d : Decoder) (size : Nat) :
    (d.takeHeader size).kind = d.kind := rfl

@[simp] theorem Decoder.takeHeader_len (d : Decoder) (size : Nat) :
    (d.takeHeader size).len = d.len := rfl

@[simp] theorem Decoder.takeHeader_k (d : Decoder) (size : Nat) :
    (d.takeHeader size).k = d.k := rfl

@[simp] theorem Decoder.takeHeader_v (d : Decoder) (size : Nat) :
    (d.takeHeader size).v = d.v := rfl

@[simp] theorem Decoder.takeHeader_lo (d : Decoder) (size : Nat) :
    (d.takeHeader size).lo = d.lo := rfl

@[simp] theorem Decoder.takeHeader_hi (d : Decoder) (size : Nat) :
    (d.takeHeader size).hi = d.hi := rfl

@[simp] theorem Decoder.takeHeader_base (d : Decoder) (size : Nat) :
    (d.takeHeader size).base = d.base := rfl

@[simp] theorem Decoder.takeHeader_xm (d : Decoder) (size : Nat) :
    (d.takeHeader size).xm = d.xm := rfl

@[simp] theorem Decoder.takeHeader_stop (d : Decoder) (size : Nat) :
    (d.takeHeader size).stop = d.stop := rfl

@[simp] theorem Decoder.takeHeader_cause (d : Decoder) (size : Nat) :
    (d.takeHeader size).cause = d.cause := rfl

@[simp] theorem Decoder.takeHeader_info (d : Decoder) (size : Nat) :
    (d.takeHeader size).info = d.info := rfl

/-! ### `Encoder.put` -/

@[simp] theorem Encoder.put_estate (e : Encoder) (b : Byte) :
    (e.put b).estate = e.estate := rfl

@[simp] theorem Encoder.put_src (e : Encoder) (b : Byte) :
    (e.put b).src = e.src := rfl

@[simp] theorem Encoder.put_n (e : Encoder) (b : Byte) :
    (e.put b).n = e.n := rfl

@[simp] theorem Encoder.put_cur (e : Encoder) (b : Byte) :
    (e.put b).cur = e.cur := rfl

@[simp] theorem Encoder.put_lit (e : Encoder) (b : Byte) :
    (e.put b).lit = e.lit := rfl

@[simp] theorem Encoder.put_comp (e : Encoder) (b : Byte) :
    (e.put b).comp = e.comp.write e.clen b := rfl

@[simp] theorem Encoder.put_clen (e : Encoder) (b : Byte) :
    (e.put b).clen = e.clen + 1 := rfl

@[simp] theorem Encoder.put_cand (e : Encoder) (b : Byte) :
    (e.put b).cand = e.cand := rfl

@[simp] theorem Encoder.put_best (e : Encoder) (b : Byte) :
    (e.put b).best = e.best := rfl

/-! ### `Encoder.evaluate` -/

@[simp] theorem Encoder.evaluate_estate (e : Encoder) :
    (e.evaluate).estate = e.estate := rfl

@[simp] theorem Encoder.evaluate_src (e : Encoder) :
    (e.evaluate).src = e.src := rfl

@[simp] theorem Encoder.evaluate_n (e : Encoder) :
    (e.evaluate).n = e.n := rfl

@[simp] theorem Encoder.evaluate_cur (e : Encoder) :
    (e.evaluate).cur = e.cur := rfl

@[simp] theorem Encoder.evaluate_lit (e : Encoder) :
    (e.evaluate).lit = e.lit := rfl

@[simp] theorem Encoder.evaluate_comp (e : Encoder) :
    (e.evaluate).comp = e.comp := rfl

@[simp] theorem Encoder.evaluate_clen (e : Encoder) :
    (e.evaluate).clen = e.clen := rfl

@[simp] theorem Encoder.evaluate_cand (e : Encoder) :
    (e.evaluate).cand = findAll e.src.read e.n e.cur := rfl

@[simp] theorem Encoder.evaluate_best (e : Encoder) :
    (e.evaluate).best = e.best := rfl

/-! ### `Encoder.select` -/

@[simp] theorem Encoder.select_estate (e : Encoder) :
    (e.select).estate = e.estate := rfl

@[simp] theorem Encoder.select_src (e : Encoder) :
    (e.select).src = e.src := rfl

@[simp] theorem Encoder.select_n (e : Encoder) :
    (e.select).n = e.n := rfl

@[simp] theorem Encoder.select_cur (e : Encoder) :
    (e.select).cur = e.cur := rfl

@[simp] theorem Encoder.select_lit (e : Encoder) :
    (e.select).lit = e.lit := rfl

@[simp] theorem Encoder.select_comp (e : Encoder) :
    (e.select).comp = e.comp := rfl

@[simp] theorem Encoder.select_clen (e : Encoder) :
    (e.select).clen = e.clen := rfl

@[simp] theorem Encoder.select_cand (e : Encoder) :
    (e.select).cand = e.cand := rfl

@[simp] theorem Encoder.select_best (e : Encoder) :
    (e.select).best = selectBest e.cand := rfl

/-! ### `Encoder.takeLiteral` -/

@[simp] theorem Encoder.takeLiteral_estate (e : Encoder) :
    (e.takeLiteral).estate = e.estate := rfl

@[simp] theorem Encoder.takeLiteral_src (e : Encoder) :
    (e.takeLiteral).src = e.src := rfl

@[simp] theorem Encoder.takeLiteral_n (e : Encoder) :
    (e.takeLiteral).n = e.n := rfl

@[simp] theorem Encoder.takeLiteral_cur (e : Encoder) :
    (e.takeLiteral).cur = e.cur + 1 := rfl

@[simp] theorem Encoder.takeLiteral_lit (e : Encoder) :
    (e.takeLiteral).lit = e.lit ++ [e.src.read e.cur] := rfl

@[simp] theorem Encoder.takeLiteral_comp (e : Encoder) :
    (e.takeLiteral).comp = e.comp := rfl

@[simp] theorem Encoder.takeLiteral_clen (e : Encoder) :
    (e.takeLiteral).clen = e.clen := rfl

@[simp] theorem Encoder.takeLiteral_cand (e : Encoder) :
    (e.takeLiteral).cand = e.cand := rfl

@[simp] theorem Encoder.takeLiteral_best (e : Encoder) :
    (e.takeLiteral).best = e.best := rfl

/-! ### `Encoder.skipBest` -/

@[simp] theorem Encoder.skipBest_estate (e : Encoder) :
    (e.skipBest).estate = e.estate := rfl

@[simp] theorem Encoder.skipBest_src (e : Encoder) :
    (e.skipBest).src = e.src := rfl

@[simp] theorem Encoder.skipBest_n (e : Encoder) :
    (e.skipBest).n = e.n := rfl

@[simp] theorem Encoder.skipBest_cur (e : Encoder) :
    (e.skipBest).cur = e.cur + e.best.length := rfl

@[simp] theorem Encoder.skipBest_lit (e : Encoder) :
    (e.skipBest).lit = e.lit := rfl

@[simp] theorem Encoder.skipBest_comp (e : Encoder) :
    (e.skipBest).comp = e.comp := rfl

@[simp] theorem Encoder.skipBest_clen (e : Encoder) :
    (e.skipBest).clen = e.clen := rfl

@[simp] theorem Encoder.skipBest_cand (e : Encoder) :
    (e.skipBest).cand = e.cand := rfl

@[simp] theorem Encoder.skipBest_best (e : Encoder) :
    (e.skipBest).best = e.best := rfl

/-! ### `State.onDec` -/

@[simp] theorem State.onDec_dec (s : State) (f : Decoder → Decoder) :
    (s.onDec f).dec = f s.dec := rfl

@[simp] theorem State.onDec_enc (s : State) (f : Decoder → Decoder) :
    (s.onDec f).enc = s.enc := rfl

@[simp] theorem State.onDec_host (s : State) (f : Decoder → Decoder) :
    (s.onDec f).host = s.host := rfl

@[simp] theorem State.onDec_refused (s : State) (f : Decoder → Decoder) :
    (s.onDec f).refused = s.refused := rfl

@[simp] theorem State.onDec_turn (s : State) (f : Decoder → Decoder) :
    (s.onDec f).turn = s.turn := rfl

@[simp] theorem State.onDec_draws (s : State) (f : Decoder → Decoder) :
    (s.onDec f).draws = s.draws := rfl

/-! ### `State.handTo` -/

@[simp] theorem State.handTo_dec (s : State) (g : Engine) :
    (s.handTo g).dec = s.dec := rfl

@[simp] theorem State.handTo_enc (s : State) (g : Engine) :
    (s.handTo g).enc = s.enc := rfl

@[simp] theorem State.handTo_host (s : State) (g : Engine) :
    (s.handTo g).host = s.host := rfl

@[simp] theorem State.handTo_refused (s : State) (g : Engine) :
    (s.handTo g).refused = s.refused := rfl

@[simp] theorem State.handTo_turn (s : State) (g : Engine) :
    (s.handTo g).turn = g := rfl

@[simp] theorem State.handTo_draws (s : State) (g : Engine) :
    (s.handTo g).draws = s.draws := rfl

/-! ### `State.encoderMove` -/

@[simp] theorem State.encoderMove_dec (s : State) :
    (s.encoderMove).dec = s.dec := rfl

@[simp] theorem State.encoderMove_enc (s : State) :
    (s.encoderMove).enc = s.enc.move := rfl

@[simp] theorem State.encoderMove_host (s : State) :
    (s.encoderMove).host = s.host := rfl

@[simp] theorem State.encoderMove_refused (s : State) :
    (s.encoderMove).refused = s.refused := rfl

@[simp] theorem State.encoderMove_turn (s : State) :
    (s.encoderMove).turn = .decoder := rfl

@[simp] theorem State.encoderMove_draws (s : State) :
    (s.encoderMove).draws = s.draws := rfl

/-! ### `State.startDecode` -/

@[simp] theorem State.startDecode_dec (s : State) (bs : List Byte) (m : Nat) :
    (s.startDecode bs m).dec = Decoder.start bs m s.draws := rfl

@[simp] theorem State.startDecode_enc (s : State) (bs : List Byte) (m : Nat) :
    (s.startDecode bs m).enc = s.enc := rfl

@[simp] theorem State.startDecode_host (s : State) (bs : List Byte) (m : Nat) :
    (s.startDecode bs m).host = s.host := rfl

@[simp] theorem State.startDecode_refused (s : State) (bs : List Byte) (m : Nat) :
    (s.startDecode bs m).refused = s.refused := rfl

@[simp] theorem State.startDecode_turn (s : State) (bs : List Byte) (m : Nat) :
    (s.startDecode bs m).turn = s.turn := rfl

@[simp] theorem State.startDecode_draws (s : State) (bs : List Byte) (m : Nat) :
    (s.startDecode bs m).draws = s.draws + 1 := rfl

/-! ### `State.startEncode` -/

@[simp] theorem State.startEncode_dec (s : State) (bs : List Byte) :
    (s.startEncode bs).dec = s.dec := rfl

@[simp] theorem State.startEncode_enc (s : State) (bs : List Byte) :
    (s.startEncode bs).enc = Encoder.start bs s.draws := rfl

@[simp] theorem State.startEncode_host (s : State) (bs : List Byte) :
    (s.startEncode bs).host = s.host := rfl

@[simp] theorem State.startEncode_refused (s : State) (bs : List Byte) :
    (s.startEncode bs).refused = s.refused := rfl

@[simp] theorem State.startEncode_turn (s : State) (bs : List Byte) :
    (s.startEncode bs).turn = s.turn := rfl

@[simp] theorem State.startEncode_draws (s : State) (bs : List Byte) :
    (s.startEncode bs).draws = s.draws + 1 := rfl

/-! ### `State.popStart` -/

@[simp] theorem State.popStart_dec (s : State) :
    (s.popStart).dec = s.dec := rfl

@[simp] theorem State.popStart_enc (s : State) :
    (s.popStart).enc = s.enc := rfl

@[simp] theorem State.popStart_host (s : State) :
    (s.popStart).host = s.host.tail := rfl

@[simp] theorem State.popStart_refused (s : State) :
    (s.popStart).refused = s.refused := rfl

@[simp] theorem State.popStart_turn (s : State) :
    (s.popStart).turn = s.turn := rfl

@[simp] theorem State.popStart_draws (s : State) :
    (s.popStart).draws = s.draws := rfl

/-! ### `State.refuseStart` -/

@[simp] theorem State.refuseStart_dec (s : State) (c : HostCommand) :
    (s.refuseStart c).dec = s.dec := rfl

@[simp] theorem State.refuseStart_enc (s : State) (c : HostCommand) :
    (s.refuseStart c).enc = s.enc := rfl

@[simp] theorem State.refuseStart_host (s : State) (c : HostCommand) :
    (s.refuseStart c).host = s.host := rfl

@[simp] theorem State.refuseStart_refused (s : State) (c : HostCommand) :
    (s.refuseStart c).refused = s.refused ++ [c] := rfl

@[simp] theorem State.refuseStart_turn (s : State) (c : HostCommand) :
    (s.refuseStart c).turn = s.turn := rfl

@[simp] theorem State.refuseStart_draws (s : State) (c : HostCommand) :
    (s.refuseStart c).draws = s.draws := rfl

end Sys2Proof.Machine
end

