-- ==== Sys2Proof/Laws/Decoder.lean ====
section
/-! SUPPORT. What the Decoder's operations can do: the stream read, the output read, the
multiplexer, the byte loop, and each command's meaning. -/

namespace Sys2Proof.Machine

/-! ### Reads -/

theorem Decoder.fetchByte_of_lt {d : Decoder} (h : d.sp < d.slen) (next : Byte → Decoder → Decoder) :
    d.fetchByte next = next (d.stream.read d.sp) d.advance := by
  simp [Decoder.fetchByte, h]

theorem Decoder.fetchByte_of_le {d : Decoder} (h : d.slen ≤ d.sp) (next : Byte → Decoder → Decoder) :
    d.fetchByte next = d.raise .bufferUnderrun d.sp := by
  simp [Decoder.fetchByte, Nat.not_lt.mpr h]

theorem Decoder.outRead_of_valid {d : Decoder} {i : Int} (h0 : 0 ≤ i) (h1 : i < d.olen)
    (next : Byte → Decoder) : d.outRead i next = next (d.out.read i.toNat) := by
  have h : ¬(i < 0 ∨ (d.olen : Int) ≤ i) := by omega
  simp only [Decoder.outRead, h, if_false]

theorem Decoder.outRead_of_invalid {d : Decoder} {i : Int} (h : i < 0 ∨ (d.olen : Int) ≤ i)
    (next : Byte → Decoder) : d.outRead i next = d.raise .invalidBackReference i := by
  simp only [Decoder.outRead, h, if_true]

/-- The multiplexer gives a byte without touching the Decoder, gives one stream byte, or raises
(R128); which of them does not depend on what is done with the byte. -/
theorem Decoder.nextByte_cases (d : Decoder) :
    (∃ b, ∀ next, d.nextByte next = next b d) ∨
    (d.kind = .directCopy ∧ d.sp < d.slen ∧
      ∀ next, d.nextByte next = next (d.stream.read d.sp) d.advance) ∨
    (∃ c i, ∀ next, d.nextByte next = d.raise c i) := by
  have copy : ∀ i : Int, (∃ b, ∀ next : Byte → Decoder, d.outRead i next = next b) ∨
      (∀ next : Byte → Decoder, d.outRead i next = d.raise .invalidBackReference i) := by
    intro i
    by_cases h : i < 0 ∨ (d.olen : Int) ≤ i
    · exact .inr fun next => Decoder.outRead_of_invalid h next
    · exact .inl ⟨_, fun next => Decoder.outRead_of_valid (by omega) (by omega) next⟩
  unfold Decoder.nextByte
  cases hk : d.kind <;> simp only
  case directCopy =>
    by_cases h : d.sp < d.slen
    · exact .inr (.inl ⟨trivial, h, fun next => Decoder.fetchByte_of_lt h next⟩)
    · exact .inr (.inr ⟨_, _, fun next => Decoder.fetchByte_of_le (by omega) next⟩)
  case byteFill => exact .inl ⟨_, fun _ => rfl⟩
  case wordFill => exact .inl ⟨_, fun _ => rfl⟩
  case sigmaFill => exact .inl ⟨_, fun _ => rfl⟩
  all_goals
    rcases copy (d.base + d.k) with ⟨b, h⟩ | h
    · exact .inl ⟨b ^^^ d.xm, fun next => h _⟩
    · exact .inr (.inr ⟨_, _, fun next => h _⟩)

/-! ### The byte loop -/

/-- Induction over the byte loop, once: a property kept by appending a byte below the cap, with or
without a stream byte consumed, holds of the state the loop ends from, and the loop ends by
completing, by stopping at the cap, or by raising (R128, R129). -/
theorem Decoder.byteLoop_cases {P : Decoder → Prop}
    (append : ∀ d b, P d → d.olen ≠ d.maxOut → P (d.emit b).countByte)
    (read : ∀ d b, P d → d.olen ≠ d.maxOut → d.sp < d.slen → P (d.advance.emit b).countByte) :
    ∀ n d, P d → ∃ d', P d' ∧
      (Decoder.byteLoop n d = d'.complete ∨
        (d'.olen = d'.maxOut ∧ Decoder.byteLoop n d = d'.finish .cap) ∨
        (d'.olen ≠ d'.maxOut ∧ ∃ c i, Decoder.byteLoop n d = d'.raise c i)) := by
  intro n
  induction n with
  | zero => exact fun d h => ⟨d, h, .inl rfl⟩
  | succ n ih =>
    intro d h
    unfold Decoder.byteLoop
    by_cases hc : d.olen = d.maxOut
    · exact ⟨d, h, .inr (.inl ⟨hc, by simp [hc]⟩)⟩
    · simp only [hc, if_false]
      rcases d.nextByte_cases with ⟨b, hb⟩ | ⟨_, hs, hb⟩ | ⟨c, i, hb⟩
      · rw [hb]; exact ih _ (append d b h hc)
      · rw [hb]; exact ih _ (read d _ h hc hs)
      · exact ⟨d, h, .inr (.inr ⟨hc, c, i, hb _⟩)⟩

/-- The cap cuts a command (R128): if the bytes up to the cap can all be produced, a longer command
leaves exactly what they leave, and the call is done with `stop = CAP`. -/
theorem Decoder.byteLoop_capped : ∀ m n d, d.olen + m = d.maxOut → m < n →
    (Decoder.byteLoop m d).dstate = .readHeader →
    Decoder.byteLoop n d = (Decoder.byteLoop m d).finish .cap := by
  intro m
  induction m with
  | zero =>
    intro n d hc hn _
    obtain ⟨n, rfl⟩ := Nat.exists_eq_succ_of_ne_zero (by omega : n ≠ 0)
    have hc : d.olen = d.maxOut := by omega
    simp [Decoder.byteLoop, hc, Decoder.finish, Decoder.complete]
  | succ m ih =>
    intro n d hc hn hr
    obtain ⟨n, rfl⟩ := Nat.exists_eq_succ_of_ne_zero (by omega : n ≠ 0)
    have hne : d.olen ≠ d.maxOut := by omega
    unfold Decoder.byteLoop at hr ⊢
    simp only [hne, if_false] at hr ⊢
    rcases d.nextByte_cases with ⟨b, hb⟩ | ⟨_, _, hb⟩ | ⟨c, i, hb⟩
    · simp only [hb] at hr ⊢
      exact ih n _ (by simp; omega) (by omega) hr
    · simp only [hb] at hr ⊢
      exact ih n _ (by simp; omega) (by omega) hr
    · simp [hb] at hr

theorem Memory.appended_zero (m : Memory) (first : Nat) (byte : Nat → Byte) :
    m.Appended m first 0 byte :=
  ⟨fun _ hj => absurd hj (Nat.not_lt_zero _), fun _ _ => rfl⟩

/-- One more byte before an appended run makes a longer run. -/
theorem Memory.appended_cons {m m' : Memory} {first count : Nat} {byte byte' : Nat → Byte} {b : Byte}
    (h : (m.write first b).Appended m' (first + 1) count byte') (h0 : byte 0 = b)
    (hs : ∀ j < count, byte (j + 1) = byte' j) : m.Appended m' first (count + 1) byte := by
  constructor
  · intro j hj
    cases j with
    | zero => rw [Nat.add_zero, h.old first (.inl (Nat.lt_succ_self _)), Memory.read_write_self, h0]
    | succ j =>
      rw [hs j (by omega), ← h.new j (by omega)]
      congr 1; omega
  · intro a ha
    rw [h.old a (by omega), Memory.read_write_other _ _ (by omega)]

/-- A command whose bytes are values of its latches and its count appends all of them when the cap
leaves room (R128, R152 to R154). -/
theorem Decoder.byteLoop_fill (byte : Nat → Byte) : ∀ n d,
    (∀ d' : Decoder, d'.kind = d.kind → d'.v = d.v → d'.lo = d.lo → d'.hi = d.hi →
      ∀ next, d'.nextByte next = next (byte d'.k) d') →
    d.olen + n ≤ d.maxOut →
    ∃ out, Decoder.byteLoop n d =
        { d with dstate := .readHeader, out := out, olen := d.olen + n, k := d.k + n } ∧
      d.out.Appended out d.olen n (fun j => byte (d.k + j)) := by
  intro n
  induction n with
  | zero => exact fun d _ _ => ⟨d.out, rfl, Memory.appended_zero _ _ _⟩
  | succ n ih =>
    intro d hb hc
    have hne : d.olen ≠ d.maxOut := by omega
    unfold Decoder.byteLoop
    simp only [hne, if_false, hb d rfl rfl rfl rfl]
    obtain ⟨out, he, ha⟩ := ih (d.emit (byte d.k)).countByte (by simpa using hb) (by simp; omega)
    refine ⟨out, ?_, ?_⟩
    · rw [he]
      simp only [Decoder.emit, Decoder.countByte, Nat.add_assoc, Nat.add_comm 1 n]
    · refine Memory.appended_cons (b := byte d.k) ha (by simp) ?_
      intro j _
      simp only [Decoder.countByte_k, Decoder.emit_k]
      congr 1; omega

theorem Decoder.nextByte_direct {d : Decoder} (hk : d.kind = .directCopy)
    (next : Byte → Decoder → Decoder) : d.nextByte next = d.fetchByte next := by
  simp [Decoder.nextByte, hk]

/-- DirectCopy appends the raw bytes at the stream pointer (R151). -/
theorem Decoder.byteLoop_direct : ∀ n d, d.kind = .directCopy → d.olen + n ≤ d.maxOut →
    d.sp + n ≤ d.slen →
    ∃ out, Decoder.byteLoop n d =
        { d with dstate := .readHeader, sp := d.sp + n, out := out, olen := d.olen + n, k := d.k + n } ∧
      d.out.Appended out d.olen n (fun j => d.stream.read (d.sp + j)) := by
  intro n
  induction n with
  | zero => exact fun d _ _ _ => ⟨d.out, rfl, Memory.appended_zero _ _ _⟩
  | succ n ih =>
    intro d hk hc hs
    have hne : d.olen ≠ d.maxOut := by omega
    have hlt : d.sp < d.slen := by omega
    unfold Decoder.byteLoop
    simp only [hne, if_false, Decoder.nextByte_direct hk, Decoder.fetchByte_of_lt hlt]
    obtain ⟨out, he, ha⟩ := ih (d.advance.emit (d.stream.read d.sp)).countByte (by simpa using hk)
      (by simp; omega) (by simp; omega)
    refine ⟨out, ?_, ?_⟩
    · rw [he]
      simp only [Decoder.emit, Decoder.countByte, Decoder.advance, Nat.add_assoc, Nat.add_comm 1 n]
    · refine Memory.appended_cons (b := d.stream.read d.sp) ha (by simp) ?_
      intro j _
      simp only [Decoder.countByte_stream, Decoder.emit_stream, Decoder.advance_stream,
        Decoder.countByte_sp, Decoder.emit_sp, Decoder.advance_sp]
      congr 1; omega

/-- A DirectCopy whose payload ends before the cap and before its length appends what there is and
raises `BufferUnderrun` at the end of the stream (R151, R251, R255). -/
theorem Decoder.byteLoop_direct_underrun : ∀ m n d, d.kind = .directCopy → d.sp + m = d.slen →
    m < n → d.olen + m < d.maxOut →
    ∃ out, Decoder.byteLoop n d =
        { d with dstate := .fault, sp := d.slen, out := out, olen := d.olen + m, k := d.k + m,
                 cause := some .bufferUnderrun, info := some (d.slen : Int) } ∧
      d.out.Appended out d.olen m (fun j => d.stream.read (d.sp + j)) := by
  intro m
  induction m with
  | zero =>
    intro n d hk hs hn hc
    obtain ⟨n, rfl⟩ := Nat.exists_eq_succ_of_ne_zero (by omega : n ≠ 0)
    have hne : d.olen ≠ d.maxOut := by omega
    have hs' : d.sp = d.slen := by omega
    refine ⟨d.out, ?_, Memory.appended_zero _ _ _⟩
    unfold Decoder.byteLoop
    simp only [hne, if_false, Decoder.nextByte_direct hk, Decoder.fetchByte_of_le (le_of_eq hs'.symm)]
    simp [Decoder.raise, hs']
  | succ m ih =>
    intro n d hk hs hn hc
    obtain ⟨n, rfl⟩ := Nat.exists_eq_succ_of_ne_zero (by omega : n ≠ 0)
    have hne : d.olen ≠ d.maxOut := by omega
    have hlt : d.sp < d.slen := by omega
    unfold Decoder.byteLoop
    simp only [hne, if_false, Decoder.nextByte_direct hk, Decoder.fetchByte_of_lt hlt]
    obtain ⟨out, he, ha⟩ := ih n (d.advance.emit (d.stream.read d.sp)).countByte (by simpa using hk)
      (by simp; omega) (by omega) (by simp; omega)
    refine ⟨out, ?_, ?_⟩
    · rw [he]
      simp only [Decoder.emit, Decoder.countByte, Decoder.advance, Nat.add_assoc, Nat.add_comm 1 m]
    · refine Memory.appended_cons (b := d.stream.read d.sp) ha (by simp) ?_
      intro j _
      simp only [Decoder.countByte_stream, Decoder.emit_stream, Decoder.advance_stream,
        Decoder.countByte_sp, Decoder.emit_sp, Decoder.advance_sp]
      congr 1; omega

/-- The kinds that read the output buffer. -/
theorem Decoder.nextByte_copy {d : Decoder}
    (hk : d.kind = .libraryCopy ∨ d.kind = .xorCopy ∨ d.kind = .minusCopy)
    (next : Byte → Decoder → Decoder) :
    d.nextByte next = d.outRead (d.base + d.k) fun b => next (b ^^^ d.xm) d := by
  rcases hk with h | h | h <;> simp [Decoder.nextByte, h]

/-- A copy from a valid start appends, at each position, what stands in the finished output `base`
further on, masked: the read index runs over bytes the command itself appended (R170, R171 to R174).
`from0` is the read index of the first byte. -/
theorem Decoder.byteLoop_copy : ∀ n d (from0 : Nat),
    (d.kind = .libraryCopy ∨ d.kind = .xorCopy ∨ d.kind = .minusCopy) →
    d.base + d.k = (from0 : Int) → from0 < d.olen → d.olen + n ≤ d.maxOut →
    ∃ out, Decoder.byteLoop n d =
        { d with dstate := .readHeader, out := out, olen := d.olen + n, k := d.k + n } ∧
      d.out.Appended out d.olen n (fun j => out.read (from0 + j) ^^^ d.xm) := by
  intro n
  induction n with
  | zero => exact fun d _ _ _ _ _ => ⟨d.out, rfl, Memory.appended_zero _ _ _⟩
  | succ n ih =>
    intro d from0 hk hf hlt hc
    have hne : d.olen ≠ d.maxOut := by omega
    unfold Decoder.byteLoop
    simp only [hne, if_false, Decoder.nextByte_copy hk,
      Decoder.outRead_of_valid (d := d) (i := d.base + d.k) (by omega) (by omega)]
    have hr : (d.base + d.k).toNat = from0 := by omega
    obtain ⟨out, he, ha⟩ := ih (d.emit (d.out.read (d.base + d.k).toNat ^^^ d.xm)).countByte
      (from0 + 1) (by simpa using hk) (by simp; omega) (by simp; omega) (by simp; omega)
    refine ⟨out, ?_, ?_⟩
    · rw [he]
      simp only [Decoder.emit, Decoder.countByte, Nat.add_assoc, Nat.add_comm 1 n]
    · refine Memory.appended_cons (b := d.out.read (d.base + d.k).toNat ^^^ d.xm) ha ?_ ?_
      · rw [Nat.add_zero, hr, ha.old from0 (.inl (by simp; omega))]
        simp only [Decoder.countByte_out, Decoder.emit_out]
        rw [Memory.read_write_other _ _ (by omega)]
      · intro j _
        simp only [Decoder.countByte_xm, Decoder.emit_xm]
        congr 2; omega

/-- A copy from an invalid start raises at its first byte and appends nothing (R175, R253). -/
theorem Decoder.byteLoop_invalid {n : Nat} {d : Decoder}
    (hk : d.kind = .libraryCopy ∨ d.kind = .xorCopy ∨ d.kind = .minusCopy)
    (hi : d.base + d.k < 0 ∨ (d.olen : Int) ≤ d.base + d.k) (hc : d.olen ≠ d.maxOut) :
    Decoder.byteLoop (n + 1) d = d.raise .invalidBackReference (d.base + d.k) := by
  unfold Decoder.byteLoop
  simp only [hc, if_false, Decoder.nextByte_copy hk, Decoder.outRead_of_invalid hi]

end Sys2Proof.Machine
end

