-- ==== Sys2Proof/Laws/EncoderLoop.lean ====
section
/-! SUPPORT. What the Encoder's operations do: bytes put one after the other, the flush, and the
fields each leaves alone. -/

namespace Sys2Proof.Machine

/-- Bytes put are COMP loaded at its end; nothing else changes (R11, R32). -/
theorem Encoder.putAll_eq (e : Encoder) (bs : List Byte) :
    e.putAll bs = { e with comp := e.comp.load e.clen bs, clen := e.clen + bs.length } := by
  induction bs generalizing e with
  | nil => rfl
  | cons b bs ih =>
    rw [Encoder.putAll, ih]
    simp [Encoder.put, Memory.load, Nat.add_assoc, Nat.add_comm 1 bs.length]

theorem Encoder.putAll_append (e : Encoder) (bs bs' : List Byte) :
    e.putAll (bs ++ bs') = (e.putAll bs).putAll bs' := by
  induction bs generalizing e with
  | nil => rfl
  | cons b bs ih => exact ih (e.put b)

/-- A sequence loaded into a space is appended there. -/
theorem Memory.appended_load (m : Memory) (first : Nat) (bs : List Byte) :
    m.Appended (m.load first bs) first bs.length (fun j => bs.getD j Memory.unlisted) := by
  constructor
  · intro j hj
    rw [Memory.read_load, if_pos ⟨by omega, by omega⟩, Nat.add_sub_cancel_left]
  · intro a ha
    rw [Memory.read_load, if_neg (by omega)]

/-- The bytes a flush puts: none for an empty run (R228). -/
def flushBytes (lit : List Byte) : List Byte :=
  if lit = [] then [] else literalBytes lit

/-- The flush (R228). -/
theorem Encoder.flush_eq (e : Encoder) :
    e.flush = { e.putAll (flushBytes e.lit) with lit := [] } := by
  unfold Encoder.flush flushBytes
  split
  · next h => simp [Encoder.putAll, ← h]
  · rfl

/-- An iteration that starts with room in the run is its last two steps on the evaluated Encoder. -/
theorem Encoder.iterate_of_room {e : Encoder} (h : e.lit.length ≠ maxRun) :
    e.iterate = e.evaluate.select.commit := by
  simp [Encoder.iterate, Encoder.capFlush, h]

/-- A full run is flushed, and the iteration goes on at the same cursor (R222). -/
theorem Encoder.iterate_of_full {e : Encoder} (h : e.lit.length = maxRun) :
    e.iterate = e.flush.iterate := by
  have hf : e.flush.lit.length ≠ maxRun := by
    rw [Encoder.flush_eq]
    simp [maxRun]
  rw [Encoder.iterate_of_room hf]
  simp [Encoder.iterate, Encoder.capFlush, h]

/-- How long the emitted header is (R105). -/
theorem length_headerBytes (kind : Kind) (len : Nat) :
    (headerBytes kind len).length = if len - 1 ≤ 31 then 1 else 2 := by
  by_cases h : len - 1 ≤ 31 <;> simp [headerBytes, h]

end Sys2Proof.Machine
end

