-- ==== Sys2Proof/Laws/Encoding.lean ====
section
/-! SUPPORT. The bit fields of the two header formats, read back from the bytes that carry them. -/

namespace Sys2Proof

@[simp] theorem Kind.ofTag_tag (kind : Kind) : Kind.ofTag kind.tag = some kind := by
  cases kind <;> decide

theorem Kind.ofTag_eq_some {t : BitVec 3} {kind : Kind} (h : Kind.ofTag t = some kind) :
    kind.tag = t := by
  revert h
  revert t
  cases kind <;> decide

theorem Kind.ofTag_eq_none {t : BitVec 3} : Kind.ofTag t = none ↔ t = 7 := by
  revert t
  decide

/-- The format N byte of a kind and a 5-bit value (R91): not the terminator, with the tag and the
value in their fields. -/
theorem normalByte_fields (kind : Kind) (v : BitVec 5) :
    ((kind.tag ++ v : BitVec (3 + 5)) : Byte) ≠ 0xFF ∧
    ((kind.tag ++ v : BitVec (3 + 5)) : Byte).extractLsb' 5 3 = kind.tag ∧
    ((kind.tag ++ v : BitVec (3 + 5)) : Byte).extractLsb' 0 5 = v := by
  cases kind <;> revert v <;> decide

/-- The first format X byte, from its three fields (R92). -/
theorem extendedFirst_fields (kind : Kind) (hh : BitVec 2) :
    (((0b111 : BitVec 3) ++ kind.tag ++ hh : BitVec (3 + 3 + 2)) : Byte) ≠ 0xFF ∧
    (((0b111 : BitVec 3) ++ kind.tag ++ hh : BitVec (3 + 3 + 2)) : Byte).extractLsb' 5 3 = 7 ∧
    (((0b111 : BitVec 3) ++ kind.tag ++ hh : BitVec (3 + 3 + 2)) : Byte).extractLsb' 2 3 = kind.tag ∧
    (((0b111 : BitVec 3) ++ kind.tag ++ hh : BitVec (3 + 3 + 2)) : Byte).extractLsb' 0 2 = hh := by
  cases kind <;> revert hh <;> decide

/-- Concatenation as a number: the first part is the more significant (R9). -/
theorem toNat_append' {m n : Nat} (x : BitVec m) (y : BitVec n) :
    (x ++ y).toNat = x.toNat * 2 ^ n + y.toNat := by
  rw [BitVec.toNat_append, ← Nat.shiftLeft_add_eq_or_of_lt y.isLt, Nat.shiftLeft_eq]

/-- The two bytes of format X: the high two bits of the value stand in the first, the low eight are
the second (R63, R92). -/
theorem extendedHeader_eq (kind : Kind) (len : Nat) :
    extendedHeader kind len =
      [((0b111 : BitVec 3) ++ kind.tag ++ (BitVec.ofNat 10 (len - 1)).extractLsb' 8 2 :
          BitVec (3 + 3 + 2)),
        (BitVec.ofNat 10 (len - 1)).extractLsb' 0 8] := by
  unfold extendedHeader extendedWord
  generalize BitVec.ofNat 10 (len - 1) = v
  have high : ∀ t : BitVec 6, ((t ++ v : BitVec (6 + 10)) : BitVec 16).extractLsb' 8 8 =
      ((t ++ v.extractLsb' 8 2 : BitVec (6 + 2)) : BitVec 8) := by
    intro t
    apply BitVec.eq_of_toNat_eq
    rw [BitVec.extractLsb'_toNat, toNat_append', toNat_append', BitVec.extractLsb'_toNat,
      Nat.shiftRight_eq_div_pow, Nat.shiftRight_eq_div_pow]
    have := v.isLt
    have := t.isLt
    omega
  have low : ∀ t : BitVec 6, ((t ++ v : BitVec (6 + 10)) : BitVec 16).extractLsb' 0 8 =
      v.extractLsb' 0 8 := by
    intro t
    apply BitVec.eq_of_toNat_eq
    rw [BitVec.extractLsb'_toNat, toNat_append', BitVec.extractLsb'_toNat,
      Nat.shiftRight_eq_div_pow, Nat.shiftRight_eq_div_pow]
    omega
  exact congrArg₂ (fun a b => [a, b]) (high _) (low _)

/-- A 10-bit value is `256` times its high two bits plus its low eight (R94). -/
theorem tenBits_split (v : BitVec 10) :
    256 * (v.extractLsb' 8 2).toNat + (v.extractLsb' 0 8).toNat = v.toNat := by
  simp only [BitVec.extractLsb'_toNat, Nat.shiftRight_eq_div_pow]
  have := v.isLt
  omega

/-- A length in format N's range is one more than its 5-bit value (R94). -/
theorem normalLength_val {len : Nat} (h : normalLength len = true) :
    (BitVec.ofNat 5 (len - 1)).toNat + 1 = len := by
  simp only [normalLength, Bool.and_eq_true, decide_eq_true_eq] at h
  simp only [BitVec.toNat_ofNat]
  omega

/-- A length in format X's range is one more than its 10-bit value (R94). -/
theorem extendedLength_val {len : Nat} (h : extendedLength len = true) :
    (BitVec.ofNat 10 (len - 1)).toNat + 1 = len := by
  simp only [extendedLength, Bool.and_eq_true, decide_eq_true_eq] at h
  simp only [BitVec.toNat_ofNat]
  omega

/-- A command's encoding is as long as its header (R95). -/
theorem length_encode (i : Instr) : (encode i).length = headerSize i := by
  cases i <;> rfl

end Sys2Proof
end

