-- ==== Sys2Proof/Laws/Exec.lean ====
section
/-! SUPPORT. What a command's meaning and a step can do, said once: every meaning is a Decoder
function on the whole state, and a Decoder function built from the named operations. -/

namespace Sys2Proof.Machine

/-- What a command does to the Decoder. -/
def Decoder.runInstr (i : Instr) (d : Decoder) : Decoder :=
  match i with
  | .directCopy len => (d.latchHeader .directCopy len).runDirectCopy
  | .byteFill len => (d.latchHeader .byteFill len).runByteFill
  | .wordFill len => (d.latchHeader .wordFill len).runWordFill
  | .sigmaFill len => (d.latchHeader .sigmaFill len).runSigmaFill
  | .libraryCopy len => (d.latchHeader .libraryCopy len).runLibraryCopy
  | .xorCopy len => (d.latchHeader .xorCopy len).runXorCopy
  | .minusCopy len => (d.latchHeader .minusCopy len).runMinusCopy
  | .directCopyX len => (d.latchHeader .directCopy len).runDirectCopy
  | .byteFillX len => (d.latchHeader .byteFill len).runByteFill
  | .wordFillX len => (d.latchHeader .wordFill len).runWordFill
  | .sigmaFillX len => (d.latchHeader .sigmaFill len).runSigmaFill
  | .libraryCopyX len => (d.latchHeader .libraryCopy len).runLibraryCopy
  | .xorCopyX len => (d.latchHeader .xorCopy len).runXorCopy
  | .minusCopyX len => (d.latchHeader .minusCopy len).runMinusCopy
  | .reservedFC => d.runReserved 0xFC
  | .reservedFD => d.runReserved 0xFD
  | .reservedFE => d.runReserved 0xFE
  | .endOfStream => d.finish .terminator

/-- Every meaning is a Decoder function on the whole state (R21). -/
theorem exec_eq (i : Instr) (s : State) :
    exec i s = .next { s with dec := s.dec.runInstr i } := by
  cases i <;> rfl

/-- The next state of a command, from the equation that gives it. -/
theorem exec_next {i : Instr} {s t : State} (h : exec i s = .next t) :
    t = { s with dec := s.dec.runInstr i } := by
  rw [exec_eq] at h
  exact (Host.Outcome.next.inj h).symm

/-- How a command leaves the Decoder, in terms of the state it ends from. -/
inductive Decoder.EndsFrom (d' : Decoder) : Decoder → Prop where
  | complete : Decoder.EndsFrom d' d'.complete
  | cap (h : d'.olen = d'.maxOut) : Decoder.EndsFrom d' (d'.finish .cap)
  | terminator : Decoder.EndsFrom d' (d'.finish .terminator)
  | raise (c : Cause) (i : Int) : Decoder.EndsFrom d' (d'.raise c i)

/-- A property that latching, consuming a stream byte and appending a byte keep. -/
structure Decoder.Kept (P : Decoder → Prop) : Prop where
  header : ∀ d t n, P d → P (Decoder.latchHeader d t n)
  clear : ∀ d, P d → P (Decoder.clearCount d)
  value : ∀ d b, P d → P (Decoder.latchValue d b)
  lo : ∀ d b, P d → P (Decoder.latchLo d b)
  hi : ∀ d b, P d → P (Decoder.latchHi d b)
  copy : ∀ d i b, P d → P (Decoder.latchCopy d i b)
  advance : ∀ d, P d → d.sp < d.slen → P (Decoder.advance d)
  append : ∀ d b, P d → d.olen ≠ d.maxOut → P (Decoder.countByte (Decoder.emit d b))

theorem Decoder.copyAll_ends {P : Decoder → Prop} (hP : Decoder.Kept P) {d : Decoder} (h : P d) :
    ∃ d', P d' ∧ d'.EndsFrom d.copyAll := by
  obtain ⟨d', h', hc | ⟨hcap, hc⟩ | ⟨_, c, i, hc⟩⟩ := Decoder.byteLoop_cases (P := P) hP.append
    (fun d b h hc hs => hP.append _ b (hP.advance d h hs) (by simpa using hc)) d.len d h
  · exact ⟨d', h', by rw [Decoder.copyAll, hc]; exact .complete⟩
  · exact ⟨d', h', by rw [Decoder.copyAll, hc]; exact .cap hcap⟩
  · exact ⟨d', h', by rw [Decoder.copyAll, hc]; exact .raise c i⟩

theorem Decoder.fetchByte_ends {P : Decoder → Prop} (hP : Decoder.Kept P) {d : Decoder} (h : P d)
    {next : Byte → Decoder → Decoder}
    (hn : ∀ b d, P d → ∃ d', P d' ∧ d'.EndsFrom (next b d)) :
    ∃ d', P d' ∧ d'.EndsFrom (d.fetchByte next) := by
  by_cases hs : d.sp < d.slen
  · rw [Decoder.fetchByte_of_lt hs]
    exact hn _ _ (hP.advance d h hs)
  · rw [Decoder.fetchByte_of_le (by omega)]
    exact ⟨d, h, .raise _ _⟩

/-- What any command does to the Decoder: from a state with a kept property it ends from one
(R126 to R130). -/
theorem Decoder.runInstr_ends {P : Decoder → Prop} (hP : Decoder.Kept P) (i : Instr) {d : Decoder}
    (h : P d) : ∃ d', P d' ∧ d'.EndsFrom (d.runInstr i) := by
  have hbegin : ∀ t n, P (d.latchHeader t n).clearCount := fun t n => hP.clear _ (hP.header _ t n h)
  have hdirect : ∀ t n, ∃ d', P d' ∧ d'.EndsFrom (d.latchHeader t n).runDirectCopy :=
    fun t n => Decoder.copyAll_ends hP (hbegin t n)
  have hvalue : ∀ t n, ∃ d', P d' ∧
      d'.EndsFrom ((d.latchHeader t n).clearCount.fetchValue Decoder.copyAll) := fun t n =>
    Decoder.fetchByte_ends hP (hbegin t n) fun b d h => Decoder.copyAll_ends hP (hP.value d b h)
  have hpair : ∀ t n, ∃ d', P d' ∧
      d'.EndsFrom ((d.latchHeader t n).clearCount.fetchPair Decoder.copyAll) := fun t n =>
    Decoder.fetchByte_ends hP (hbegin t n) fun b d h =>
      Decoder.fetchByte_ends hP (hP.lo d b h) fun b d h => Decoder.copyAll_ends hP (hP.hi d b h)
  have hoffset : ∀ t n x, ∃ d', P d' ∧
      d'.EndsFrom ((d.latchHeader t n).clearCount.fetchOffset x Decoder.copyAll) := fun t n x =>
    Decoder.fetchByte_ends hP (hbegin t n) fun _ d h =>
      Decoder.fetchByte_ends hP h fun _ d h => Decoder.copyAll_ends hP (hP.copy d _ _ h)
  have hdistance : ∀ t n, ∃ d', P d' ∧
      d'.EndsFrom ((d.latchHeader t n).clearCount.fetchDistance Decoder.copyAll) := fun t n =>
    Decoder.fetchByte_ends hP (hbegin t n) fun _ d h => Decoder.copyAll_ends hP (hP.copy d _ _ h)
  have hreserved : ∀ b, ∃ d', P d' ∧ d'.EndsFrom (d.runReserved b) := fun b =>
    Decoder.fetchByte_ends hP h fun _ d h => ⟨d, h, .raise _ _⟩
  cases i
  case directCopy n => exact hdirect _ n
  case directCopyX n => exact hdirect _ n
  case byteFill n => exact hvalue _ n
  case byteFillX n => exact hvalue _ n
  case sigmaFill n => exact hvalue _ n
  case sigmaFillX n => exact hvalue _ n
  case wordFill n => exact hpair _ n
  case wordFillX n => exact hpair _ n
  case libraryCopy n => exact hoffset _ n _
  case libraryCopyX n => exact hoffset _ n _
  case xorCopy n => exact hoffset _ n _
  case xorCopyX n => exact hoffset _ n _
  case minusCopy n => exact hdistance _ n
  case minusCopyX n => exact hdistance _ n
  case reservedFC => exact hreserved _
  case reservedFD => exact hreserved _
  case reservedFE => exact hreserved _
  case endOfStream => exact ⟨d, h, .terminator⟩

/-- The dispatch on a latched kind and length is the command of that kind (R127). -/
theorem Decoder.execute_ends {P : Decoder → Prop} (hP : Decoder.Kept P) {d : Decoder} (h : P d) :
    ∃ d', P d' ∧ d'.EndsFrom d.execute := by
  have hclear := hP.clear d h
  unfold Decoder.execute
  cases d.kind <;> simp only
  case directCopy => exact Decoder.copyAll_ends hP hclear
  case byteFill =>
    exact Decoder.fetchByte_ends hP hclear fun b d h => Decoder.copyAll_ends hP (hP.value d b h)
  case sigmaFill =>
    exact Decoder.fetchByte_ends hP hclear fun b d h => Decoder.copyAll_ends hP (hP.value d b h)
  case wordFill =>
    exact Decoder.fetchByte_ends hP hclear fun b d h =>
      Decoder.fetchByte_ends hP (hP.lo d b h) fun b d h => Decoder.copyAll_ends hP (hP.hi d b h)
  case libraryCopy =>
    exact Decoder.fetchByte_ends hP hclear fun _ d h =>
      Decoder.fetchByte_ends hP h fun _ d h => Decoder.copyAll_ends hP (hP.copy d _ _ h)
  case xorCopy =>
    exact Decoder.fetchByte_ends hP hclear fun _ d h =>
      Decoder.fetchByte_ends hP h fun _ d h => Decoder.copyAll_ends hP (hP.copy d _ _ h)
  case minusCopy =>
    exact Decoder.fetchByte_ends hP hclear fun _ d h => Decoder.copyAll_ends hP (hP.copy d _ _ h)

/-! ### The step -/

/-- The Decoder's move as a Decoder function. -/
def Decoder.move (d : Decoder) : Decoder :=
  match d.fetch with
  | .settled d => d
  | .command i d => d.runInstr i

/-- The Decoder's move touches the Decoder and the turn, and always has a next state. -/
theorem decoderMove_eq (s : State) :
    decoderMove s = .next { s with dec := s.dec.move, turn := .encoder } := by
  unfold decoderMove Decoder.move
  cases s.dec.fetch with
  | settled d => rfl
  | command i d => simp only [exec_eq]; rfl

/-- What a step can do: a start given or refused, a move of one engine, or nothing (R20, R80). -/
theorem step_cases {s t : State} (h : step s = .next t) :
    (∃ c, s.readyCommand = some c ∧ c.fits = true ∧ t = s.popStart.begin c) ∨
    (∃ c, s.readyCommand = some c ∧ c.fits = false ∧ t = s.popStart.refuseStart c) ∨
    (s.readyCommand = none ∧ s.mover = some .decoder ∧
      t = { s with dec := s.dec.move, turn := .encoder }) ∨
    (s.readyCommand = none ∧ s.mover = some .encoder ∧ t = s.encoderMove) ∨
    (s.readyCommand = none ∧ s.mover = none ∧ t = s) := by
  unfold step at h
  split at h
  · next c hc =>
    have ht := Host.Outcome.next.inj h
    unfold State.hostMove at ht
    split at ht
    · next hf => exact .inl ⟨c, hc, hf, ht.symm⟩
    · next hf => exact .inr (.inl ⟨c, hc, by simpa using hf, ht.symm⟩)
  · next hc =>
    split at h
    · next hm =>
      rw [decoderMove_eq] at h
      exact .inr (.inr (.inl ⟨hc, hm, (Host.Outcome.next.inj h).symm⟩))
    · next hm => exact .inr (.inr (.inr (.inl ⟨hc, hm, (Host.Outcome.next.inj h).symm⟩)))
    · next hm => exact .inr (.inr (.inr (.inr ⟨hc, hm, (Host.Outcome.next.inj h).symm⟩)))

/-- The ready start is the oldest pending one, and its engine runs no call (R36, R38, R40). -/
theorem State.readyCommand_some {s : State} {c : HostCommand} (h : s.readyCommand = some c) :
    s.host = c :: s.host.tail ∧ s.admits c = true := by
  unfold State.readyCommand at h
  split at h
  · cases h
  · next c' rest hh =>
    split at h
    · next ha => cases h; rw [hh]; exact ⟨rfl, ha⟩
    · cases h

/-- A run goes on from the state its first step answers. -/
theorem run_succ {s t : State} (k : Nat) (h : step s = .next t) :
    Host.Core.run Sys2Proof.core (k + 1) s = Host.Core.run Sys2Proof.core k t := by
  have h' : Sys2Proof.core.step s = .next t := h
  simp only [Host.Core.run, h']

end Sys2Proof.Machine
end

