-- ==== Sys2Proof/Laws/Finders.lean ====
section
/-! SUPPORT. What the finders' two loops compute: the extension of a run and the backward search. -/

namespace Sys2Proof.Machine

/-- The extension loop: everything passed over fits, and it stops at the bound or at the first
position that does not fit. -/
theorem extendWhile_spec (fits : Nat → Bool) : ∀ fuel len,
    len ≤ extendWhile fits fuel len ∧ extendWhile fits fuel len ≤ len + fuel ∧
    (∀ k, len ≤ k → k < extendWhile fits fuel len → fits k = true) ∧
    (extendWhile fits fuel len < len + fuel → fits (extendWhile fits fuel len) = false) := by
  intro fuel
  induction fuel with
  | zero =>
    intro len
    exact ⟨le_refl _, le_refl _, fun k h1 h2 => absurd h2 (by simp [extendWhile]; omega),
      fun h => absurd h (by simp [extendWhile])⟩
  | succ fuel ih =>
    intro len
    unfold extendWhile
    by_cases hf : fits len = true
    · simp only [hf, if_true]
      obtain ⟨h1, h2, h3, h4⟩ := ih (len + 1)
      refine ⟨by omega, by omega, ?_, fun h => h4 (by omega)⟩
      intro k hk hlt
      by_cases hkl : k = len
      · rw [hkl, hf]
      · exact h3 k (by omega) hlt
    · rw [if_neg hf]
      exact ⟨le_refl _, by omega, fun k h1 h2 => absurd h2 (by omega), fun _ => by simpa using hf⟩

/-- The backward search: no start is longer than the result, and unless the result is the initial
best it is a start of the range, strictly longer than the initial best and than every start to its
right (R197). -/
theorem searchBack_spec (lengthAt : Nat → Nat) (lowest : Nat) : ∀ count best,
    (∀ j, lowest ≤ j → j < lowest + count → lengthAt j ≤ (searchBack lengthAt lowest count best).2) ∧
    (searchBack lengthAt lowest count best = best ∨
      (lowest ≤ (searchBack lengthAt lowest count best).1 ∧
        (searchBack lengthAt lowest count best).1 < lowest + count ∧
        (searchBack lengthAt lowest count best).2 =
          lengthAt (searchBack lengthAt lowest count best).1 ∧
        best.2 < (searchBack lengthAt lowest count best).2 ∧
        ∀ j, (searchBack lengthAt lowest count best).1 < j → j < lowest + count →
          lengthAt j < (searchBack lengthAt lowest count best).2)) ∧
    best.2 ≤ (searchBack lengthAt lowest count best).2 := by
  intro count
  induction count with
  | zero => exact fun best => ⟨fun j h1 h2 => absurd h2 (by omega), .inl rfl, le_refl _⟩
  | succ count ih =>
    intro best
    unfold searchBack
    by_cases hb : best.2 < lengthAt (lowest + count)
    · simp only [hb, if_true]
      obtain ⟨h1, h2, h3⟩ := ih (lowest + count, lengthAt (lowest + count))
      simp only at h3
      refine ⟨?_, .inr ?_, by omega⟩
      · intro j hj hlt
        by_cases hje : j = lowest + count
        · rw [hje]; exact h3
        · exact h1 j hj (by omega)
      · rcases h2 with h2 | ⟨g1, g2, g3, g4, g5⟩
        · rw [h2]
          exact ⟨by simp, by simp, rfl, hb, fun j h1 h2 => absurd h2 (by simp at h1; omega)⟩
        · simp only at g4
          refine ⟨g1, by omega, g3, by omega, ?_⟩
          intro j hj hlt
          by_cases hje : j = lowest + count
          · rw [hje]; exact g4
          · exact g5 j hj (by omega)
    · simp only [hb, if_false]
      obtain ⟨h1, h2, h3⟩ := ih best
      refine ⟨?_, ?_, h3⟩
      · intro j hj hlt
        by_cases hje : j = lowest + count
        · rw [hje]; omega
        · exact h1 j hj (by omega)
      · rcases h2 with h2 | ⟨g1, g2, g3, g4, g5⟩
        · exact .inl h2
        · refine .inr ⟨g1, by omega, g3, g4, ?_⟩
          intro j hj hlt
          by_cases hje : j = lowest + count
          · rw [hje]; omega
          · exact g5 j hj (by omega)

/-- The match length is bounded, its positions match, and the next one does not (R196). -/
theorem matchLength_spec (src : Nat → Byte) (n c j : Nat) (x : Byte) :
    matchLength src n c x j ≤ runLimit n c ∧
    (∀ k < matchLength src n c x j, src (j + k) ^^^ x = src (c + k)) ∧
    (matchLength src n c x j < runLimit n c →
      src (j + matchLength src n c x j) ^^^ x ≠ src (c + matchLength src n c x j)) := by
  obtain ⟨_, h2, h3, h4⟩ :=
    extendWhile_spec (fun k => src (j + k) ^^^ x = src (c + k)) (runLimit n c) 0
  refine ⟨by simpa [matchLength] using h2, ?_, ?_⟩
  · intro k hk
    simpa using h3 k (Nat.zero_le _) hk
  · intro h
    simpa [matchLength] using h4 (by simpa [matchLength] using h)

/-- The selected candidate is one of the two, and no shorter than either (R224). -/
theorem longer_cases (best later : Candidate) :
    (longer best later = best ∧ later.length ≤ best.length) ∨
    (longer best later = later ∧ best.length < later.length) := by
  unfold longer
  by_cases h : best.length < later.length
  · exact .inr ⟨by simp [h], h⟩
  · exact .inl ⟨by simp [h], by omega⟩

/-- The selection is one of the five. -/
theorem selectBest_mem (cand : Candidates) :
    selectBest cand = cand.byteSigma ∨ selectBest cand = cand.word ∨
    selectBest cand = cand.library ∨ selectBest cand = cand.xor ∨ selectBest cand = cand.minus := by
  unfold selectBest
  rcases longer_cases cand.byteSigma cand.word with ⟨h1, _⟩ | ⟨h1, _⟩ <;> rw [h1] <;>
  [rcases longer_cases cand.byteSigma cand.library with ⟨h2, _⟩ | ⟨h2, _⟩;
   rcases longer_cases cand.word cand.library with ⟨h2, _⟩ | ⟨h2, _⟩] <;> rw [h2] <;>
  (unfold longer; split <;> split <;> simp)

end Sys2Proof.Machine
end

