-- ==== Sys2Proof/Laws/PerInstr.lean ====
section
/-! SUPPORT. Per-instruction law: the first byte of a command's encoding stands in its own row of the
opcode map (R96). -/

namespace Sys2Proof

/-- The rows' `h0` ranges, least and greatest first byte (R96). -/
def rowRange : Instr → Nat × Nat
  | .directCopy _ => (0x00, 0x1F)
  | .byteFill _ => (0x20, 0x3F)
  | .wordFill _ => (0x40, 0x5F)
  | .sigmaFill _ => (0x60, 0x7F)
  | .libraryCopy _ => (0x80, 0x9F)
  | .xorCopy _ => (0xA0, 0xBF)
  | .minusCopy _ => (0xC0, 0xDF)
  | .directCopyX _ => (0xE0, 0xE3)
  | .byteFillX _ => (0xE4, 0xE7)
  | .wordFillX _ => (0xE8, 0xEB)
  | .sigmaFillX _ => (0xEC, 0xEF)
  | .libraryCopyX _ => (0xF0, 0xF3)
  | .xorCopyX _ => (0xF4, 0xF7)
  | .minusCopyX _ => (0xF8, 0xFB)
  | .reservedFC => (0xFC, 0xFC)
  | .reservedFD => (0xFD, 0xFD)
  | .reservedFE => (0xFE, 0xFE)
  | .endOfStream => (0xFF, 0xFF)

/-- The format N byte as a number (R91). -/
theorem normalHeader_range (kind : Kind) (len : Nat) : ∃ h0, normalHeader kind len = [h0] ∧
    32 * kind.tag.toNat ≤ h0.toNat ∧ h0.toNat ≤ 32 * kind.tag.toNat + 31 := by
  refine ⟨_, rfl, ?_, ?_⟩ <;> rw [toNat_append'] <;>
    have := (BitVec.ofNat 5 (len - 1)).isLt <;> omega

/-- The first format X byte as a number (R92). -/
theorem extendedHeader_range (kind : Kind) (len : Nat) : ∃ h0 h1, extendedHeader kind len = [h0, h1] ∧
    0xE0 + 4 * kind.tag.toNat ≤ h0.toNat ∧ h0.toNat ≤ 0xE3 + 4 * kind.tag.toNat := by
  refine ⟨_, _, extendedHeader_eq kind len, ?_, ?_⟩ <;> rw [toNat_append', toNat_append'] <;>
    have := ((BitVec.ofNat 10 (len - 1)).extractLsb' 8 2).isLt <;> simp only [BitVec.reduceToNat] <;>
    omega

end Sys2Proof

namespace Sys2Proof.Laws.FirstByte

/-- The encoding begins with a byte of the command's row, and the rest of the header follows. -/
def Statement (i : Instr) : Prop :=
  ∃ h0 tail, encode i = h0 :: tail ∧ tail.length + 1 = headerSize i ∧
    (rowRange i).1 ≤ h0.toNat ∧ h0.toNat ≤ (rowRange i).2

theorem directCopy (len : Nat) : Statement (.directCopy len) :=
  let ⟨h0, e, l, u⟩ := normalHeader_range .directCopy len
  ⟨h0, [], e, rfl, l, u⟩

theorem byteFill (len : Nat) : Statement (.byteFill len) :=
  let ⟨h0, e, l, u⟩ := normalHeader_range .byteFill len
  ⟨h0, [], e, rfl, l, u⟩

theorem wordFill (len : Nat) : Statement (.wordFill len) :=
  let ⟨h0, e, l, u⟩ := normalHeader_range .wordFill len
  ⟨h0, [], e, rfl, l, u⟩

theorem sigmaFill (len : Nat) : Statement (.sigmaFill len) :=
  let ⟨h0, e, l, u⟩ := normalHeader_range .sigmaFill len
  ⟨h0, [], e, rfl, l, u⟩

theorem libraryCopy (len : Nat) : Statement (.libraryCopy len) :=
  let ⟨h0, e, l, u⟩ := normalHeader_range .libraryCopy len
  ⟨h0, [], e, rfl, l, u⟩

theorem xorCopy (len : Nat) : Statement (.xorCopy len) :=
  let ⟨h0, e, l, u⟩ := normalHeader_range .xorCopy len
  ⟨h0, [], e, rfl, l, u⟩

theorem minusCopy (len : Nat) : Statement (.minusCopy len) :=
  let ⟨h0, e, l, u⟩ := normalHeader_range .minusCopy len
  ⟨h0, [], e, rfl, l, u⟩

theorem directCopyX (len : Nat) : Statement (.directCopyX len) :=
  let ⟨h0, h1, e, l, u⟩ := extendedHeader_range .directCopy len
  ⟨h0, [h1], e, rfl, l, u⟩

theorem byteFillX (len : Nat) : Statement (.byteFillX len) :=
  let ⟨h0, h1, e, l, u⟩ := extendedHeader_range .byteFill len
  ⟨h0, [h1], e, rfl, l, u⟩

theorem wordFillX (len : Nat) : Statement (.wordFillX len) :=
  let ⟨h0, h1, e, l, u⟩ := extendedHeader_range .wordFill len
  ⟨h0, [h1], e, rfl, l, u⟩

theorem sigmaFillX (len : Nat) : Statement (.sigmaFillX len) :=
  let ⟨h0, h1, e, l, u⟩ := extendedHeader_range .sigmaFill len
  ⟨h0, [h1], e, rfl, l, u⟩

theorem libraryCopyX (len : Nat) : Statement (.libraryCopyX len) :=
  let ⟨h0, h1, e, l, u⟩ := extendedHeader_range .libraryCopy len
  ⟨h0, [h1], e, rfl, l, u⟩

theorem xorCopyX (len : Nat) : Statement (.xorCopyX len) :=
  let ⟨h0, h1, e, l, u⟩ := extendedHeader_range .xorCopy len
  ⟨h0, [h1], e, rfl, l, u⟩

theorem minusCopyX (len : Nat) : Statement (.minusCopyX len) :=
  let ⟨h0, h1, e, l, u⟩ := extendedHeader_range .minusCopy len
  ⟨h0, [h1], e, rfl, l, u⟩

theorem reservedFC : Statement .reservedFC := ⟨0xFC, [], rfl, rfl, by decide, by decide⟩

theorem reservedFD : Statement .reservedFD := ⟨0xFD, [], rfl, rfl, by decide, by decide⟩

theorem reservedFE : Statement .reservedFE := ⟨0xFE, [], rfl, rfl, by decide, by decide⟩

theorem endOfStream : Statement .endOfStream := ⟨0xFF, [], rfl, rfl, by decide, by decide⟩

end Sys2Proof.Laws.FirstByte
end

