-- ==== Sys2Proof/Tests/Slice0.lean ====
section
/-! SUPPORT. The model's own tests: expected results are the spec's worked vectors (95_test_vectors.md,
V-H to V-E and P1) or hand readings of the cited rule. Each is about one step on a small state. Then,
for every statement with hypotheses, a state and operands that meet them. -/

namespace Sys2Proof.Tests

open Sys2Proof Sys2Proof.Machine

/-! ### Helpers -/

/-- A decode call in `ReadHeader`: `out` already appended, `stream` still to be read. -/
def decoding (out stream : List Byte) (maxOut : Nat) : State :=
  { State.reset with
    dec := { Decoder.reset with
      dstate := .readHeader
      stream := Memory.ofBytes stream
      slen := stream.length
      out := Memory.ofBytes out
      olen := out.length
      maxOut := maxOut } }

/-- An encode call of `source` at cursor `cur`, with a pending literal run. -/
def encoding (source lit : List Byte) (cur : Nat) : Encoder :=
  { Encoder.reset with
    estate := .scan, src := Memory.ofBytes source, n := source.length, cur := cur, lit := lit }

/-- The Decoder of a next state. -/
def decoderOf : Host.Outcome State Fault Refusal → Option Decoder
  | .next s => some s.dec
  | .fault _ => none
  | .refused _ => none

/-- What the vectors show of a decode: control state, stop reason, `sp` and OUT. -/
def shown (o : Host.Outcome State Fault Refusal) :
    Option (DState × Option StopReason × Nat × List Byte) :=
  (decoderOf o).map fun d => (d.dstate, d.stop, d.sp, d.out.slice 0 d.olen)

/-- What the vectors show of a failed decode: cause, `info`, `sp` and `olen`. -/
def failed (o : Host.Outcome State Fault Refusal) :
    Option (DState × Option Cause × Option Int × Nat × Nat) :=
  (decoderOf o).map fun d => (d.dstate, d.cause, d.info, d.sp, d.olen)

/-- The five finders on a source, and the length of the selection. -/
def found (source : List Byte) (c : Nat) : Candidates :=
  findAll (Memory.ofBytes source).read source.length c

/-- A candidate of the finders, its bytes read off the source. -/
def cand (source : List Byte) (c : Nat) (kind : Kind) (len backOffset : Nat) : Candidate :=
  .found kind len ((source.drop c).take len) backOffset

/-- What an encoder move leaves: COMP, cursor and literal run. -/
def put (e : Encoder) : List Byte × Nat × List Byte :=
  (e.comp.slice 0 e.clen, e.cur, e.lit)

/-! ### Well-formed commands: an ill-formed term for each check -/

/-- R94: a length of 0 cannot be encoded in format N. -/
theorem test_normal_length_zero :
    ∀ k : Kind, WellFormed (normalInstr k 0) = false := by intro k; cases k <;> rfl

/-- R91: format N ends at length 32. -/
theorem test_normal_length_33 :
    ∀ k : Kind, WellFormed (normalInstr k 33) = false := by intro k; cases k <;> rfl

/-- R94: a length of 0 cannot be encoded in format X. -/
theorem test_extended_length_zero :
    ∀ k : Kind, WellFormed (extendedInstr k 0) = false := by intro k; cases k <;> rfl

/-- R92: format X ends at length 1024. -/
theorem test_extended_length_1025 :
    ∀ k : Kind, WellFormed (extendedInstr k 1025) = false := by intro k; cases k <;> rfl

/-- R91, R92, R103: the bounds themselves are encodable, the redundant extended forms among them. -/
theorem test_lengths_accepted :
    ∀ k : Kind, WellFormed (normalInstr k 1) = true ∧ WellFormed (normalInstr k 32) = true ∧
      WellFormed (extendedInstr k 1) = true ∧ WellFormed (extendedInstr k 1024) = true := by
  intro k; cases k <;> exact ⟨rfl, rfl, rfl, rfl⟩

/-! ### Decoding: one word per constructor, written out from the encoding tables (V-H) -/

/-- V-H2. -/
theorem test_decode_directCopy : decode [0b00011111, 0xFF] = .ok (.directCopy 32, [0xFF]) := rfl

/-- V-H3. -/
theorem test_decode_byteFill : decode [0b00100011, 0xFF] = .ok (.byteFill 4, [0xFF]) := rfl

/-- V-H4. -/
theorem test_decode_wordFill : decode [0b01000100, 0xFF] = .ok (.wordFill 5, [0xFF]) := rfl

/-- V-H5. -/
theorem test_decode_sigmaFill : decode [0b01100010, 0xFF] = .ok (.sigmaFill 3, [0xFF]) := rfl

/-- V-H6. -/
theorem test_decode_libraryCopy : decode [0b10000100, 0xFF] = .ok (.libraryCopy 5, [0xFF]) := rfl

/-- V-H7. -/
theorem test_decode_xorCopy : decode [0b10100011, 0xFF] = .ok (.xorCopy 4, [0xFF]) := rfl

/-- V-H9. -/
theorem test_decode_minusCopy : decode [0b11011111, 0xFF] = .ok (.minusCopy 32, [0xFF]) := rfl

/-- V-H12. -/
theorem test_decode_directCopyX :
    decode [0b11100011, 0b11111110, 0x00] = .ok (.directCopyX 1023, [0x00]) := rfl

/-- V-H14: `h1 = FF` is data, not a terminator. -/
theorem test_decode_byteFillX :
    decode [0b11100111, 0b11111111, 0x00] = .ok (.byteFillX 1024, [0x00]) := rfl

/-- V-H15. -/
theorem test_decode_wordFillX :
    decode [0b11101000, 0b00100001, 0x00] = .ok (.wordFillX 34, [0x00]) := rfl

/-- V-H16. -/
theorem test_decode_sigmaFillX :
    decode [0b11101101, 0b00000001, 0x00] = .ok (.sigmaFillX 258, [0x00]) := rfl

/-- V-H17. -/
theorem test_decode_libraryCopyX :
    decode [0b11110011, 0b11111110, 0x00] = .ok (.libraryCopyX 1023, [0x00]) := rfl

/-- V-H18. -/
theorem test_decode_xorCopyX :
    decode [0b11110101, 0b00000000, 0x00] = .ok (.xorCopyX 257, [0x00]) := rfl

/-- V-H19. -/
theorem test_decode_minusCopyX :
    decode [0b11111011, 0b11111111, 0x00] = .ok (.minusCopyX 1024, [0x00]) := rfl

/-- V-H11, R103: the redundant form is accepted. -/
theorem test_decode_redundant_extended :
    decode [0b11100000, 0b00000000] = .ok (.directCopyX 1, []) := rfl

/-- V-H20: the handler reads the extension byte. -/
theorem test_decode_reservedFC : decode [0b11111100, 0x34] = .ok (.reservedFC, [0x34]) := rfl

/-- V-H21: the handler reads the extension byte. -/
theorem test_decode_reservedFD : decode [0b11111101, 0x34] = .ok (.reservedFD, [0x34]) := rfl

/-- V-H22: the handler reads the extension byte. -/
theorem test_decode_reservedFE : decode [0b11111110, 0x34] = .ok (.reservedFE, [0x34]) := rfl

/-- V-H23: no second byte is read. -/
theorem test_decode_endOfStream : decode [0b11111111, 0x02] = .ok (.endOfStream, [0x02]) := rfl

/-- V-D4, V-D14: a missing first byte, a missing extension byte. -/
theorem test_decode_missing :
    decode [] = .error .noHeader ∧ decode [0xE0] = .error (.noExtension 0xE0) := ⟨rfl, rfl⟩

/-! ### Encoding -/

/-- V-H2 to V-H9. -/
theorem test_encode_normal :
    encode (.directCopy 32) = [0b00011111] ∧
    encode (.byteFill 4) = [0b00100011] ∧
    encode (.wordFill 5) = [0b01000100] ∧
    encode (.sigmaFill 3) = [0b01100010] ∧
    encode (.libraryCopy 5) = [0b10000100] ∧
    encode (.xorCopy 4) = [0b10100011] ∧
    encode (.minusCopy 32) = [0b11011111] := by decide

/-- V-H12 to V-H19. -/
theorem test_encode_extended :
    encode (.directCopyX 1023) = [0b11100011, 0b11111110] ∧
    encode (.byteFillX 1024) = [0b11100111, 0b11111111] ∧
    encode (.wordFillX 34) = [0b11101000, 0b00100001] ∧
    encode (.sigmaFillX 258) = [0b11101101, 0b00000001] ∧
    encode (.libraryCopyX 1023) = [0b11110011, 0b11111110] ∧
    encode (.xorCopyX 257) = [0b11110101, 0b00000000] ∧
    encode (.minusCopyX 1024) = [0b11111011, 0b11111111] := by decide

/-- V-H20 to V-H23. -/
theorem test_encode_single :
    encode .reservedFC = [0xFC] ∧ encode .reservedFD = [0xFD] ∧ encode .reservedFE = [0xFE] ∧
    encode .endOfStream = [0xFF] := by decide

/-- "Headers the Encoder writes", below V-H23. -/
theorem test_emit_header :
    headerBytes .directCopy 1 = [0x00] ∧
    headerBytes .directCopy 32 = [0x1F] ∧
    headerBytes .directCopy 33 = [0xE0, 0x20] ∧
    headerBytes .directCopy 1023 = [0xE3, 0xFE] ∧
    headerBytes .byteFill 2 = [0x21] ∧
    headerBytes .byteFill 256 = [0xE4, 0xFF] ∧
    headerBytes .byteFill 257 = [0xE5, 0x00] ∧
    headerBytes .wordFill 4 = [0x43] ∧
    headerBytes .sigmaFill 256 = [0xEC, 0xFF] ∧
    headerBytes .libraryCopy 3 = [0x82] ∧
    headerBytes .libraryCopy 512 = [0xF1, 0xFF] ∧
    headerBytes .xorCopy 513 = [0xF6, 0x00] ∧
    headerBytes .minusCopy 2 = [0xC1] ∧
    headerBytes .minusCopy 1023 = [0xFB, 0xFE] := by decide

/-! ### Opcode-table words -/

/-- V-H3, V-H13, V-H22, V-H23 as words of the table: of a 16-bit row the first stream byte is the high one
(R92). -/
theorem test_table_words :
    decodeTableWord 8 0x23 = some (.byteFill 4) ∧
    decodeTableWord 16 0xE7FE = some (.byteFillX 1023) ∧
    decodeTableWord 8 0xFE = some .reservedFE ∧ decodeTableWord 8 0xFF = some .endOfStream := ⟨rfl, rfl, rfl, rfl⟩

/-- A placed ByteFill 4 runs as the first command after reset. -/
theorem test_fetch_word :
    shown (step (State.reset.withFetchWord 8 0x23)) = some (.readHeader, none, 2, [0, 0, 0, 0]) := by decide

/-- A placed SigmaFill.x 3. -/
theorem test_fetch_word_extended :
    shown (step (State.reset.withFetchWord 16 0xEC02)) = some (.readHeader, none, 3, [0, 1, 2]) := by decide

/-- A placed reserved byte takes its fault. -/
theorem test_fetch_word_reserved :
    failed (step (State.reset.withFetchWord 8 0xFD)) =
      some (.fault, some .invalidCommand, some 0xFD, 2, 0) := by decide

/-! ### Decoder control, one step each (V-D) -/

/-- V-D1. -/
theorem test_end :
    shown (step (decoding [] [0xFF] 10)) =
      some (.done, some .terminator, 1, []) := by decide

/-- V-D2: cap 0 ends before any fetch. -/
theorem test_cap_zero :
    shown (step (decoding [] [0xFF] 0)) =
      some (.done, some .cap, 0, []) := by decide

/-- V-D4. -/
theorem test_header_underrun :
    failed (step (decoding [] [] 1)) =
      some (.fault, some .bufferUnderrun, some 0, 0, 0) := by decide

/-- V-D14. -/
theorem test_extension_underrun :
    failed (step (decoding [] [0xE0] 10)) =
      some (.fault, some .bufferUnderrun, some 1, 1, 0) := by decide

/-- V-D16. -/
theorem test_reservedFC :
    failed (step (decoding [] [0xFC, 0x00, 0xFF] 8)) =
      some (.fault, some .invalidCommand, some 0xFC, 2, 0) := by decide

/-- V-D15: underrun wins. -/
theorem test_reservedFC_underrun :
    failed (step (decoding [] [0xFC] 10)) =
      some (.fault, some .bufferUnderrun, some 1, 1, 0) := by decide

/-- V-D17: the `FF` is consumed as `h1`. -/
theorem test_reservedFD :
    failed (step (decoding [] [0xFD, 0xFF] 8)) =
      some (.fault, some .invalidCommand, some 0xFD, 2, 0) := by decide

/-- V-D18. -/
theorem test_reservedFE :
    failed (step (decoding [] [0xFE, 0x12, 0x34] 8)) =
      some (.fault, some .invalidCommand, some 0xFE, 2, 0) := by decide

/-! ### DirectCopy and the fills (V-D, V-F, V-W, V-S) -/

/-- V-D5, its first command. -/
theorem test_directCopy :
    shown (step (decoding [] [0x02, 0x41, 0x42, 0x43, 0xFF] 10)) =
      some (.readHeader, none, 4, [0x41, 0x42, 0x43]) := by decide

/-- V-D7: `43` is not consumed. -/
theorem test_directCopy_cap :
    shown (step (decoding [] [0x02, 0x41, 0x42, 0x43, 0xFF] 2)) =
      some (.done, some .cap, 3, [0x41, 0x42]) := by decide

/-- V-D11: the cap stops the command before the missing byte is needed. -/
theorem test_directCopy_cap_beyond_end :
    shown (step (decoding [] [0x02, 0x41, 0x42] 2)) =
      some (.done, some .cap, 3, [0x41, 0x42]) := by decide

/-- V-D10: two bytes were appended first. -/
theorem test_directCopy_underrun :
    failed (step (decoding [] [0x02, 0x41, 0x42] 3)) =
      some (.fault, some .bufferUnderrun, some 3, 3, 2) := by decide

/-- V-D13: the redundant extended header. -/
theorem test_directCopyX :
    shown (step (decoding [] [0xE0, 0x02, 0x41, 0x42, 0x43, 0xFF] 10)) =
      some (.readHeader, none, 5, [0x41, 0x42, 0x43]) := by decide

/-- V-F2, its first command. -/
theorem test_byteFill :
    shown (step (decoding [] [0x23, 0x10, 0xFF] 10)) =
      some (.readHeader, none, 2, [0x10, 0x10, 0x10, 0x10]) := by decide

/-- V-F3: the operand was read. -/
theorem test_byteFill_cap :
    shown (step (decoding [] [0x23, 0x10, 0xFF] 2)) =
      some (.done, some .cap, 2, [0x10, 0x10]) := by decide

/-- V-F6. -/
theorem test_byteFillX :
    shown (step (decoding [] [0xE4, 0x00, 0x7E, 0xFF] 10)) =
      some (.readHeader, none, 3, [0x7E]) := by decide

/-- V-W6, its second command: at an odd output index it still begins with `lo`. -/
theorem test_wordFill :
    shown (step (decoding [0x99] [0x42, 0xAB, 0xCD, 0xFF] 16)) =
      some (.readHeader, none, 3, [0x99, 0xAB, 0xCD, 0xAB]) := by decide

/-- V-W5: `sp` is past `lo`. -/
theorem test_wordFill_underrun :
    failed (step (decoding [] [0x44, 0xAB] 16)) =
      some (.fault, some .bufferUnderrun, some 2, 2, 0) := by decide

/-- V-W7. -/
theorem test_wordFillX :
    shown (step (decoding [] [0xE8, 0x21, 0x01, 0x02, 0xFF] 34)) =
      some (.readHeader, none, 4, [0x01, 0x02, 0x01, 0x02, 0x01, 0x02, 0x01, 0x02, 0x01, 0x02, 0x01, 0x02, 0x01, 0x02, 0x01, 0x02, 0x01, 0x02, 0x01, 0x02, 0x01, 0x02, 0x01, 0x02, 0x01, 0x02, 0x01, 0x02, 0x01, 0x02, 0x01, 0x02, 0x01, 0x02]) := by decide

/-- V-S3: wrap modulo 256. -/
theorem test_sigmaFill :
    shown (step (decoding [] [0x63, 0xFE, 0xFF] 10)) =
      some (.readHeader, none, 2, [0xFE, 0xFF, 0x00, 0x01]) := by decide

/-- V-S7: cap after the wrap. -/
theorem test_sigmaFill_cap :
    shown (step (decoding [] [0x65, 0xFD, 0xFF] 4)) =
      some (.done, some .cap, 2, [0xFD, 0xFE, 0xFF, 0x00]) := by decide

/-- R125, R154 by hand: `len = 33` from seed `F0`. -/
theorem test_sigmaFillX :
    shown (step (decoding [] [0xEC, 0x20, 0xF0, 0xFF] 100)) =
      some (.readHeader, none, 3, [0xF0, 0xF1, 0xF2, 0xF3, 0xF4, 0xF5, 0xF6, 0xF7, 0xF8, 0xF9, 0xFA, 0xFB, 0xFC, 0xFD, 0xFE, 0xFF, 0x00, 0x01, 0x02, 0x03, 0x04, 0x05, 0x06, 0x07, 0x08, 0x09, 0x0A, 0x0B, 0x0C, 0x0D, 0x0E, 0x0F, 0x10]) := by decide

/-! ### Back references (V-L, V-X, V-M) -/

/-- V-L1: the read crosses the frontier. -/
theorem test_libraryCopy :
    shown (step (decoding [0x41, 0x42, 0x43] [0x84, 0x00, 0x00, 0xFF] 20)) =
      some (.readHeader, none, 3, [0x41, 0x42, 0x43, 0x41, 0x42, 0x43, 0x41, 0x42]) := by decide

/-- V-L6: `00 01` is 256. -/
theorem test_libraryCopy_little_endian :
    failed (step (decoding [0x41, 0x42, 0x43] [0x81, 0x00, 0x01, 0xFF] 20)) =
      some (.fault, some .invalidBackReference, some 256, 3, 3) := by decide

/-- V-L11. -/
theorem test_libraryCopyX :
    shown (step (decoding [0x41, 0x42, 0x43] [0xF0, 0x04, 0x00, 0x00, 0xFF] 20)) =
      some (.readHeader, none, 4, [0x41, 0x42, 0x43, 0x41, 0x42, 0x43, 0x41, 0x42]) := by decide

/-- V-X1: complement, then the original again. -/
theorem test_xorCopy :
    shown (step (decoding [0x0F, 0xF0] [0xA3, 0x00, 0x00, 0xFF] 20)) =
      some (.readHeader, none, 3, [0x0F, 0xF0, 0xF0, 0x0F, 0x0F, 0xF0]) := by decide

/-- V-X4: `o = olen`. -/
theorem test_xorCopy_invalid :
    failed (step (decoding [0x0F, 0xF0] [0xA0, 0x02, 0x00, 0xFF] 20)) =
      some (.fault, some .invalidBackReference, some 2, 3, 2) := by decide

/-- V-X9 in the redundant extended form. -/
theorem test_xorCopyX :
    shown (step (decoding [0x12, 0x34] [0xF4, 0x01, 0x01, 0x00, 0xFF] 20)) =
      some (.readHeader, none, 4, [0x12, 0x34, 0xCB, 0x34]) := by decide

/-- V-M1. -/
theorem test_minusCopy :
    shown (step (decoding [0x41, 0x42, 0x43] [0xC5, 0x03, 0xFF] 20)) =
      some (.readHeader, none, 2, [0x41, 0x42, 0x43, 0x41, 0x42, 0x43, 0x41, 0x42, 0x43]) := by decide

/-- P2: `base = 3 - 5`. -/
theorem test_minusCopy_negative :
    failed (step (decoding [0x41, 0x42, 0x43] [0xC2, 0x05, 0xFF] 100)) =
      some (.fault, some .invalidBackReference, some (-2), 2, 3) := by decide

/-- V-M9 in the redundant extended form. -/
theorem test_minusCopyX :
    shown (step (decoding [0x41, 0x42] [0xF8, 0x04, 0x02, 0xFF] 20)) =
      some (.readHeader, none, 3, [0x41, 0x42, 0x41, 0x42, 0x41, 0x42, 0x41]) := by decide

/-- V-M4 in the redundant extended form: `m = 0` names index `olen`. -/
theorem test_minusCopyX_zero :
    failed (step (decoding [0x41, 0x42, 0x43] [0xF8, 0x00, 0x00, 0xFF] 20)) =
      some (.fault, some .invalidBackReference, some 3, 3, 3) := by decide

/-! ### Finders and selection (V-N) -/

/-- V-N1: the earlier finder wins. -/
theorem test_finders_tie :
    (let s : List Byte := [0x10, 0x10, 0x10, 0x10]
    found s 0 = ⟨cand s 0 .byteFill 4 0, cand s 0 .wordFill 4 0, .empty, .empty, .empty⟩ ∧
      selectBest (found s 0) = cand s 0 .byteFill 4 0) := by decide

/-- V-N5: the finder does not wrap. -/
theorem test_finders_no_wrap :
    (let s : List Byte := [0xFE, 0xFF, 0x00, 0x01]
    found s 0 = ⟨cand s 0 .sigmaFill 2 0, .empty, .empty, .empty, .empty⟩ ∧
      selectBest (found s 0) = cand s 0 .sigmaFill 2 0) := by decide

/-- V-N3: the mode is fixed by the first comparison. -/
theorem test_finders_mode :
    (let s : List Byte := [0x10, 0x10, 0x10, 0x11, 0x12]
    found s 0 = ⟨cand s 0 .byteFill 3 0, .empty, .empty, .empty, .empty⟩ ∧
      selectBest (found s 0) = cand s 0 .byteFill 3 0) := by decide

/-- V-N8: 3 is below `MIN_WORD`. -/
theorem test_finders_word_minimum :
    (let s : List Byte := [0xAB, 0xCD, 0xAB]
    found s 0 = ⟨.empty, .empty, .empty, .empty, .empty⟩ ∧
      selectBest (found s 0) = .empty) := by decide

/-- V-N25. -/
theorem test_finders_xor :
    (let s : List Byte := [0x0F, 0xF0, 0xF0, 0x0F, 0x0F, 0xF0]
    found s 3 = ⟨cand s 3 .byteFill 2 0, .empty, .empty, cand s 3 .xorCopy 3 1, .empty⟩ ∧
      selectBest (found s 3) = cand s 3 .xorCopy 3 1) := by decide

/-- V-N22: starts 0 and 4 both match 3, the rightmost is kept. -/
theorem test_finders_rightmost :
    (let s : List Byte := [0x41, 0x50, 0x60, 0x58, 0x41, 0x50, 0x60, 0x59, 0x41, 0x50, 0x60, 0x5A]
    found s 8 = ⟨.empty, .empty, cand s 8 .libraryCopy 3 4, .empty, cand s 8 .minusCopy 3 4⟩ ∧
      selectBest (found s 8) = cand s 8 .libraryCopy 3 4) := by decide

/-- V-N12: strictly longer beats the earlier finder. -/
theorem test_finders_overlap :
    (let s : List Byte := [0x41, 0x42, 0x43, 0x41, 0x42, 0x43, 0x41, 0x42, 0x43]
    found s 3 = ⟨cand s 3 .sigmaFill 3 0, .empty, cand s 3 .libraryCopy 6 0, .empty, cand s 3 .minusCopy 6 3⟩ ∧
      selectBest (found s 3) = cand s 3 .libraryCopy 6 0) := by decide

/-- V-N21. -/
theorem test_finders_minus :
    (let s : List Byte := [0x41, 0x50, 0x99, 0x41, 0x50, 0x77]
    found s 3 = ⟨.empty, .empty, .empty, .empty, cand s 3 .minusCopy 2 3⟩ ∧
      selectBest (found s 3) = cand s 3 .minusCopy 2 3) := by decide

/-- V-N16: tie to the earlier finder. -/
theorem test_finders_word_wins :
    (let s : List Byte := [0x00, 0xFF, 0x00, 0xFF, 0x00]
    found s 1 = ⟨.empty, cand s 1 .wordFill 4 0, .empty, cand s 1 .xorCopy 4 0, .empty⟩ ∧
      selectBest (found s 1) = cand s 1 .wordFill 4 0) := by decide

/-! ### Encoder moves (P3, V-E) -/

/-- P3, first line: a literal. -/
theorem test_encoder_literal :
    put (encoding [0x48, 0x45, 0x4C, 0x4C] [] 0).move =
      ([], 1, [0x48]) := by decide

/-- P3 at cursor 2: the flush comes first. -/
theorem test_encoder_flush_then_fill :
    put (encoding [0x48, 0x45, 0x4C, 0x4C, 0x4F] [0x48, 0x45] 2).move =
      ([0x01, 0x48, 0x45, 0x21, 0x4C], 4, []) := by decide

/-- V-E29 at cursor 3. -/
theorem test_encoder_libraryCopy :
    put (encoding [0x41, 0x50, 0x60, 0x41, 0x50, 0x60, 0x41, 0x50, 0x60] [0x41, 0x50, 0x60] 3).move =
      ([0x02, 0x41, 0x50, 0x60, 0x85, 0x00, 0x00], 9, []) := by decide

/-- V-E9 at cursor 3. -/
theorem test_encoder_xorCopy :
    put (encoding [0x01, 0x02, 0x03, 0xFE, 0xFD, 0xFC] [] 3).move =
      ([0xA2, 0x00, 0x00], 6, []) := by decide

/-- V-E27 at cursor 3. -/
theorem test_encoder_minusCopy :
    put (encoding [0x41, 0x50, 0x99, 0x41, 0x50, 0x77] [0x41, 0x50, 0x99] 3).move =
      ([0x02, 0x41, 0x50, 0x99, 0xC1, 0x03], 5, []) := by decide

/-- V-E11. -/
theorem test_encoder_wordFill :
    put (encoding [0xAB, 0xCD, 0xAB, 0xCD, 0xAB] [] 0).move =
      ([0x44, 0xAB, 0xCD], 5, []) := by decide

/-- V-E3. -/
theorem test_encoder_sigmaFill :
    put (encoding [0x05, 0x06, 0x07] [] 0).move =
      ([0x62, 0x05], 3, []) := by decide

/-- V-E4, its end step. -/
theorem test_encoder_end :
    put (encoding [0x41] [0x41] 1).move =
      ([0x00, 0x41, 0xFF], 1, []) := by decide

/-- V-E1: empty input. -/
theorem test_encoder_empty :
    put (encoding [] [] 0).move =
      ([0xFF], 0, []) := by decide

/-! ### Starts -/

/-- R40: a start given while the Decoder is busy is not admitted. -/
theorem test_start_while_busy :
    (let s : State := { decoding [] [0xFF] 1 with host := [.startDecode [0x00] 1] }
    s.readyCommand = none) := by decide

/-- R38: the Encoder is idle, so its start is admitted. -/
theorem test_start_pending :
    (let s : State := { decoding [] [0xFF] 1 with host := [.startEncode [0x00]] }
    s.readyCommand = some (.startEncode [0x00])) := by decide

/-- R21, R80: a refused encode start leaves the running decode call as it was, and the call goes on. -/
theorem test_refused_start :
    shown (step ((decoding [] [0xFF] 1).refuseStart (.startEncode []))) =
      some (.done, some .terminator, 1, []) := by decide

/-! ### Witnesses: for each statement with hypotheses, what meets them -/

theorem witness_HeaderRoundTrip :
    WellFormed (.directCopy 1) = true ∧ WellFormed (.minusCopy 32) = true ∧
    WellFormed (.directCopyX 1) = true ∧ WellFormed (.minusCopyX 1024) = true ∧
    WellFormed .reservedFC = true ∧ WellFormed .endOfStream = true := by decide

theorem witness_DecodedHeaderIsItsEncoding :
    ∃ bs rest i, decode bs = .ok (i, rest) := ⟨[0xE7, 0xFF, 0x41], [0x41], .byteFillX 1024, rfl⟩

/-- The boundary values of each range of R96's map. -/
theorem witness_FirstByteMap :
    (0 < 32 ∧ 31 < 32 ∧ 0 < 4 ∧ 3 < 4) ∧
    decode [BitVec.ofNat 8 (32 * Kind.minusCopy.tag.toNat + 31)] = .ok (.minusCopy 32, []) ∧
    decode [BitVec.ofNat 8 (0xE0 + 4 * Kind.minusCopy.tag.toNat + 3), 0xFF] =
      .ok (.minusCopyX 1024, []) := ⟨by decide, rfl, rfl⟩

theorem witness_EveryByteStringDecodes :
    ((0xDF : Byte).toNat < 0xE0 ∨ 0xFB < (0xDF : Byte).toNat) ∧
    ((0xFC : Byte).toNat < 0xE0 ∨ 0xFB < (0xFC : Byte).toNat) ∧
    (0xE0 ≤ (0xE0 : Byte).toNat ∧ (0xE0 : Byte).toNat ≤ 0xFB) ∧
    (0xE0 ≤ (0xFB : Byte).toNat ∧ (0xFB : Byte).toNat ≤ 0xFB) := by decide

/-- Lengths 1, 32, 33 and 1023, for both statements about emitted headers. -/
theorem witness_EmittedHeaders :
    headerBytes .minusCopy 1 = [0xC0] ∧ headerBytes .minusCopy 32 = [0xDF] ∧
    headerBytes .minusCopy 33 = [0xF8, 0x20] ∧ headerBytes .minusCopy 1023 = [0xFB, 0xFE] := by decide

theorem witness_DecodeStartLoadsCall : ∃ (s : State) (bs : List Byte) (m : Nat) (rest : List HostCommand),
    s.host = .startDecode bs m :: rest ∧ s.dec.busy = false :=
  ⟨{ State.reset with host := [.startDecode [0xFF] 0] }, [0xFF], 0, [], rfl, rfl⟩

theorem witness_EncodeStartLoadsCall : ∃ (s : State) (bs : List Byte) (rest : List HostCommand),
    s.host = .startEncode bs :: rest ∧ s.enc.busy = false :=
  ⟨{ State.reset with host := [.startEncode []] }, [], [], rfl, rfl⟩

/-- Both engines busy, and a pending start of the one, then of the other. -/
theorem witness_RunningCallKeepsItsOperands :
    (∃ s t : State, step s = .next t ∧ s.dec.busy = true ∧ s.enc.busy = true ∧
      s.host = [.startDecode [] 0]) ∧
    (∃ s t : State, step s = .next t ∧ s.dec.busy = true ∧ s.enc.busy = true ∧
      s.host = [.startEncode []]) :=
  ⟨⟨{ decoding [] [0xFF] 1 with enc := encoding [0x41] [] 0, host := [.startDecode [] 0] }, _, rfl,
      rfl, rfl, rfl⟩,
    ⟨{ decoding [] [0xFF] 1 with enc := encoding [0x41] [] 0, host := [.startEncode []] }, _, rfl,
      rfl, rfl, rfl⟩⟩

/-- A one-byte and a two-byte header, the first with exactly one stream byte left. -/
theorem witness_StepRunsDecodedCommand :
    (let s := decoding [] [0xFF] 1
    s.readyCommand = none ∧ s.mover = some .decoder ∧ s.dec.dstate = .readHeader ∧
      s.dec.olen ≠ s.dec.maxOut ∧ decode (s.dec.window 2) = .ok (.endOfStream, [])) ∧
    (let s := decoding [0x41] [0xE7, 0xFF, 0x41] 2
    s.readyCommand = none ∧ s.mover = some .decoder ∧ s.dec.dstate = .readHeader ∧
      s.dec.olen ≠ s.dec.maxOut ∧ decode (s.dec.window 2) = .ok (.byteFillX 1024, [])) :=
  ⟨⟨rfl, rfl, rfl, by decide, rfl⟩, ⟨rfl, rfl, rfl, by decide, rfl⟩⟩

theorem witness_StepStopsAtCap :
    (let s := decoding [] [] 0
    s.readyCommand = none ∧ s.mover = some .decoder ∧ s.dec.dstate = .readHeader ∧
      s.dec.olen = s.dec.maxOut) := by decide

theorem witness_StepHeaderUnderrun :
    (let s := decoding [] [] 1
    s.readyCommand = none ∧ s.mover = some .decoder ∧ s.dec.dstate = .readHeader ∧
      s.dec.olen ≠ s.dec.maxOut ∧ s.dec.slen ≤ s.dec.sp) := by decide

/-- The least and the greatest first byte that needs an extension byte. -/
theorem witness_StepExtensionUnderrun : ∀ b ∈ [(0xE0 : Byte), 0xFB],
    (let s := decoding [] [b] 1
    s.readyCommand = none ∧ s.mover = some .decoder ∧ s.dec.dstate = .readHeader ∧
      s.dec.olen ≠ s.dec.maxOut ∧ s.dec.sp + 1 = s.dec.slen ∧
      0xE0 ≤ (s.dec.stream.read s.dec.sp).toNat ∧ (s.dec.stream.read s.dec.sp).toNat ≤ 0xFB) := by
  decide

theorem witness_EndedDecoderIsHeld : ∃ s t : State, step s = .next t ∧ s.dec.busy = false :=
  ⟨State.reset, _, rfl, rfl⟩

theorem witness_ReservedByte :
    ((Instr.reservedFE = .reservedFC ∧ (0xFE : Int) = 0xFC) ∨
      (Instr.reservedFE = .reservedFD ∧ (0xFE : Int) = 0xFD) ∨
      (Instr.reservedFE = .reservedFE ∧ (0xFE : Int) = 0xFE)) ∧
    (decoding [] [0x00] 8).dec.sp < (decoding [] [0x00] 8).dec.slen ∧
    (decoding [] [] 8).dec.slen ≤ (decoding [] [] 8).dec.sp := by decide

/-- The raw bytes end exactly where the stream does, and the cap is met exactly. -/
theorem witness_DirectCopyCompletes :
    (let s := decoding [] [0x41, 0x42] 2
    s.dec.sp + 2 ≤ s.dec.slen ∧ s.dec.olen + 2 ≤ s.dec.maxOut) := by decide

/-- No room at all, and room for all bytes but one. -/
theorem witness_DirectCopyStopsAtCap :
    (let s := decoding [0x41] [] 1
    s.dec.olen + 0 = s.dec.maxOut ∧ 0 < 3 ∧ s.dec.sp + 0 ≤ s.dec.slen) ∧
    (let s := decoding [0x41] [0x42, 0x43] 3
    s.dec.olen + 2 = s.dec.maxOut ∧ 2 < 3 ∧ s.dec.sp + 2 ≤ s.dec.slen) := by decide

theorem witness_DirectCopyUnderrun :
    (let s := decoding [] [0x41, 0x42] 3
    s.dec.sp + 2 = s.dec.slen ∧ 2 < 3 ∧ s.dec.olen + 2 < s.dec.maxOut) := by decide

/-- For ByteFill and SigmaFill, the operand the last stream byte and the cap met exactly. -/
theorem witness_ByteOperandCompletes :
    (let s := decoding [] [0x41] 1024
    s.dec.sp < s.dec.slen ∧ s.dec.olen + 1024 ≤ s.dec.maxOut) := by decide

theorem witness_WordFillCompletes :
    (let s := decoding [] [0x41, 0x42] 3
    s.dec.sp + 1 < s.dec.slen ∧ s.dec.olen + 3 ≤ s.dec.maxOut) := by decide

/-- The three clauses share these states; room for all bytes but one, and none. -/
theorem witness_FillStopsAtCap :
    (let s := decoding [0x41] [0x10, 0x20] 3
    s.dec.olen + 2 = s.dec.maxOut ∧ 2 < 3 ∧ s.dec.sp < s.dec.slen ∧ s.dec.sp + 1 < s.dec.slen) ∧
    (let s := decoding [0x41] [0x10, 0x20] 1
    s.dec.olen + 0 = s.dec.maxOut ∧ 0 < 3 ∧ s.dec.sp < s.dec.slen ∧ s.dec.sp + 1 < s.dec.slen) := by
  decide

/-- No operand byte, and the first of two. -/
theorem witness_MissingOperandUnderrun :
    (decoding [] [] 9).dec.slen ≤ (decoding [] [] 9).dec.sp ∧
    (decoding [] [0x41] 9).dec.sp + 1 = (decoding [] [0x41] 9).dec.slen := by decide

/-- For LibraryCopy and XorCopy: the greatest valid offset, and the cap met exactly. -/
theorem witness_AbsoluteCopyCompletes :
    (let s := decoding [0x41, 0x42] [0x01, 0x00] 5
    s.dec.sp + 1 < s.dec.slen ∧
      1 = (s.dec.stream.read s.dec.sp).toNat + 256 * (s.dec.stream.read (s.dec.sp + 1)).toNat ∧
      1 < s.dec.olen ∧ s.dec.olen + 3 ≤ s.dec.maxOut) := by decide

/-- The least and the greatest valid distance. -/
theorem witness_MinusCopyCompletes : ∀ m ∈ [1, 2],
    (let s := decoding [0x41, 0x42] [BitVec.ofNat 8 m] 5
    s.dec.sp < s.dec.slen ∧ m = (s.dec.stream.read s.dec.sp).toNat ∧ 1 ≤ m ∧ m ≤ s.dec.olen ∧
      s.dec.olen + 3 ≤ s.dec.maxOut) := by decide

/-- One state for the two absolute clauses, one for the clause of MinusCopy. -/
theorem witness_BackReferenceStopsAtCap :
    (let s := decoding [0x41, 0x42] [0x01, 0x00] 4
    s.dec.olen + 2 = s.dec.maxOut ∧ 2 < 3 ∧ s.dec.sp + 1 < s.dec.slen ∧
      1 = (s.dec.stream.read s.dec.sp).toNat + 256 * (s.dec.stream.read (s.dec.sp + 1)).toNat ∧
      1 < s.dec.olen) ∧
    (let s := decoding [0x41, 0x42] [0x02] 4
    s.dec.olen + 2 = s.dec.maxOut ∧ 2 < 3 ∧ s.dec.sp < s.dec.slen ∧
      2 = (s.dec.stream.read s.dec.sp).toNat ∧ 1 ≤ 2 ∧ 2 ≤ s.dec.olen) := by decide

/-- The least invalid offset. -/
theorem witness_AbsoluteOffsetOutOfRange :
    (let s := decoding [0x41, 0x42] [0x02, 0x00] 9
    1 ≤ 1 ∧ s.dec.sp + 1 < s.dec.slen ∧
      2 = (s.dec.stream.read s.dec.sp).toNat + 256 * (s.dec.stream.read (s.dec.sp + 1)).toNat ∧
      s.dec.olen ≤ 2 ∧ s.dec.olen ≠ s.dec.maxOut) := by decide

/-- Distance 0, and the least distance beyond the output's beginning. -/
theorem witness_DistanceOutOfRange : ∀ m ∈ [0, 3],
    (let s := decoding [0x41, 0x42] [BitVec.ofNat 8 m] 9
    1 ≤ 1 ∧ s.dec.sp < s.dec.slen ∧ m = (s.dec.stream.read s.dec.sp).toNat ∧
      (m = 0 ∨ s.dec.olen < m) ∧ s.dec.olen ≠ s.dec.maxOut) := by decide

/-- One overlapping command for each clause; the second is stopped by the cap. -/
theorem witness_OverlapRepeats :
    (∃ t, exec (.libraryCopy 3) (decoding [0x41, 0x42] [0x01, 0x00] 9) = .next t ∧
      t.dec.dstate ≠ .fault ∧ 1 < 2 ∧ t.dec.base = 1 ∧ 2 + 2 < t.dec.olen) ∧
    (∃ t, exec (.xorCopy 3) (decoding [0x41, 0x42] [0x01, 0x00] 4) = .next t ∧
      t.dec.dstate ≠ .fault ∧ 1 < 2 ∧ t.dec.base = 1 ∧ 2 + 1 < t.dec.olen) ∧
    (∃ t, exec (.minusCopy 3) (decoding [0x41, 0x42] [0x02] 9) = .next t ∧
      t.dec.dstate ≠ .fault ∧ 0 < 2 ∧ t.dec.base = 0 ∧ 2 + 2 < t.dec.olen) :=
  ⟨⟨_, rfl, by decide, by decide, by decide, by decide⟩,
    ⟨_, rfl, by decide, by decide, by decide, by decide⟩,
    ⟨_, rfl, by decide, by decide, by decide, by decide⟩⟩

theorem witness_BackReferenceFaultsAtFirstByte : ∃ t,
    (decoding [] [0x00, 0x00] 9).dec.cause = none ∧
    exec (.xorCopy 1) (decoding [] [0x00, 0x00] 9) = .next t ∧
    t.dec.cause = some .invalidBackReference := ⟨_, rfl, rfl, by decide⟩

/-- For the statements about every command: one that stores, and an address on each side of the
stored bytes. -/
theorem witness_CommandFrames : ∃ t,
    exec (.byteFill 2) (decoding [0x41] [0x42] 9) = .next t ∧
    (0 < (decoding [0x41] [0x42] 9).dec.olen ∧ t.dec.olen ≤ 3) := ⟨_, rfl, by decide⟩

/-- One command for each clause, and the other disjuncts of its form. -/
theorem witness_LatchFrame : ∀ i ∈ [Instr.directCopy 1, .directCopyX 1, .byteFill 1, .byteFillX 1,
      .sigmaFill 1, .sigmaFillX 1, .wordFill 1, .wordFillX 1, .libraryCopy 1, .libraryCopyX 1,
      .xorCopy 1, .xorCopyX 1, .minusCopy 1, .minusCopyX 1, .endOfStream, .reservedFC, .reservedFD,
      .reservedFE],
    ∃ t, exec i (decoding [0x41] [0x01, 0x00] 9) = .next t := by
  intro i _
  cases i <;> exact ⟨_, rfl⟩

/-- Neither in `Done` nor in `Fault` after the one, in each of them after the others. -/
theorem witness_StatusFrame :
    (∃ t, exec (.byteFill 2) (decoding [] [0x42] 9) = .next t ∧ t.dec.dstate ≠ .done ∧
      t.dec.dstate ≠ .fault) ∧
    (∃ t, exec .endOfStream (decoding [] [] 9) = .next t ∧ t.dec.dstate ≠ .fault) ∧
    (∃ t, exec (.byteFill 2) (decoding [] [] 9) = .next t ∧ t.dec.dstate ≠ .done) :=
  ⟨⟨_, rfl, by decide, by decide⟩, ⟨_, rfl, by decide⟩, ⟨_, rfl, by decide⟩⟩

/-- Both engines in the middle of a call. -/
theorem witness_StepKeepsInvariant : ∃ s t : State, s.Inv ∧ step s = .next t := by
  refine ⟨{ decoding [0x41] [0xFF] 5 with enc := encoding [0x41, 0x00] [0x41] 1 }, _, ⟨?_, ?_⟩, rfl⟩
  · exact ⟨by decide, by decide, by decide, by decide, by decide, by decide, ⟨rfl, rfl, rfl⟩⟩
  · exact ⟨by decide, by decide, by decide, by decide, by decide, by decide, by decide, by decide,
      by simp [Encoder.SizeInv, encoding, Encoder.reset]⟩

theorem witness_DecoderMoveConsumes : ∃ t, (decoding [] [0x20, 0x41] 5).dec.dstate = .readHeader ∧
    decoderMove (decoding [] [0x20, 0x41] 5) = .next t := ⟨_, rfl, rfl⟩

/-- With the Encoder running and a start pending. -/
theorem witness_DecodeCallEnds :
    (let s : State := { decoding [] [0x20, 0x41, 0xFF] 5 with
      enc := encoding [0x41] [] 0, host := [.startEncode [0x41]] }
    s.dec.dstate = .readHeader) := by decide

/-- For the iteration, and for the call with the Decoder running and a start pending. -/
theorem witness_EncodeCallEnds :
    ((encoding [0x41] [] 0).estate = .scan ∧ (encoding [0x41] [] 0).cur < (encoding [0x41] [] 0).n) ∧
    (let s : State := { decoding [] [0x20, 0x41, 0xFF] 5 with
      enc := encoding [0x41] [] 0, host := [.startDecode [0xFF] 0] }
    s.enc.estate = .scan) := by decide

theorem witness_EnginesCommute :
    (let s : State := { decoding [] [0xFF] 5 with enc := encoding [] [] 0 }
    ∃ t u, decoderMove s = .next t ∧ decoderMove s.encoderMove = .next u) := ⟨_, _, rfl, rfl⟩

/-- Two states that differ in the Encoder and agree on the Decoder. -/
theorem witness_DecoderDependsOnItselfAlone :
    (let s := decoding [] [0xFF] 5
    let s' : State := { s with enc := encoding [] [] 0 }
    s.dec = s'.dec ∧ ∃ t, decoderMove s = .next t) := ⟨rfl, _, rfl⟩

/-- A cursor at the last byte, and one with a start before it. -/
theorem witness_FinderIndices : (0 < 1) ∧ (0 < 1 ∧ 1 < 2) := by decide

/-- One source for each clause: the last byte, a repeat, an increment, neither. -/
theorem witness_ByteSigmaFinderFixesMode :
    (1 ≤ 0 + 1) ∧
    (0 + 1 < 3 ∧ [(0x10 : Byte), 0x10, 0x11].getD 1 0 = [(0x10 : Byte), 0x10, 0x11].getD 0 0) ∧
    (0 + 1 < 3 ∧ ([(0xFE : Byte), 0xFF, 0x00].getD 1 0).toNat =
      ([(0xFE : Byte), 0xFF, 0x00].getD 0 0).toNat + 1) ∧
    ([(0xFF : Byte), 0x00].getD 1 0 ≠ [(0xFF : Byte), 0x00].getD 0 0 ∧
      ([(0xFF : Byte), 0x00].getD 1 0).toNat ≠ ([(0xFF : Byte), 0x00].getD 0 0).toNat + 1) := by decide

/-- A full run, with a byte still to be covered. -/
theorem witness_FullRunIsFlushedFirst :
    (let e : Encoder := { encoding [0x41] [] 0 with lit := List.replicate 1023 0x00 }
    e.estate = .scan ∧ e.cur < e.n ∧ e.lit.length = 1023) := ⟨rfl, by decide, List.length_replicate⟩

theorem witness_LiteralIteration :
    (let e := encoding [0x41] [] 0
    e.estate = .scan ∧ e.cur < e.n ∧ e.lit.length ≠ 1023 ∧
      (selectBest (findAll e.src.read e.n e.cur)).length = 0) := by decide

theorem witness_CandidateIteration :
    (let e := encoding [0x00, 0x10, 0x10] [0x00] 1
    e.estate = .scan ∧ e.cur < e.n ∧ e.lit.length ≠ 1023 ∧
      selectBest (findAll e.src.read e.n e.cur) = .found .byteFill 2 [0x10, 0x10] 0 ∧ 2 ≠ 0) := by
  decide

/-- With a run to flush, and without one. -/
theorem witness_EndIteration :
    (let e := encoding [0x41] [0x41] 1
    e.estate = .scan ∧ e.cur = e.n ∧ e.lit ≠ []) ∧
    (let e := encoding [] [] 0
    e.estate = .scan ∧ e.cur = e.n ∧ e.lit = []) := by decide

theorem witness_RoundTrip :
    State.reset.host = [] ∧ State.reset.dec.busy = false ∧
    [(0x41 : Byte)].length ≤ 1 ∧ [(0x41 : Byte)].length ≤ 2 := by decide

end Sys2Proof.Tests
end

/-! ### Headers: the emitted bytes, read back -/

namespace Sys2Proof

@[simp] theorem encode_normalInstr (kind : Kind) (len : Nat) :
    encode (normalInstr kind len) = normalHeader kind len := by cases kind <;> rfl

@[simp] theorem encode_extendedInstr (kind : Kind) (len : Nat) :
    encode (extendedInstr kind len) = extendedHeader kind len := by cases kind <;> rfl

theorem decode_normalHeader (kind : Kind) {len : Nat} (h : normalLength len = true)
    (rest : List Byte) :
    decode (normalHeader kind len ++ rest) = .ok (normalInstr kind len, rest) := by
  obtain ⟨hend, htag, hval⟩ := normalByte_fields kind (BitVec.ofNat 5 (len - 1))
  simp only [normalHeader, List.singleton_append, decode, if_neg hend, htag, Kind.ofTag_tag, hval,
    normalLength_val h]

theorem decode_extendedHeader (kind : Kind) {len : Nat} (h : extendedLength len = true)
    (rest : List Byte) :
    decode (extendedHeader kind len ++ rest) = .ok (extendedInstr kind len, rest) := by
  obtain ⟨hend, hescape, htag, hhigh⟩ :=
    extendedFirst_fields kind ((BitVec.ofNat 10 (len - 1)).extractLsb' 8 2)
  have hnone : Kind.ofTag 7 = none := rfl
  simp only [extendedHeader_eq, List.cons_append, List.nil_append, decode, if_neg hend, hescape,
    hnone, decodeExtended, htag, Kind.ofTag_tag, hhigh, tenBits_split, extendedLength_val h]

end Sys2Proof

namespace Sys2Proof.Machine

/-- The command whose header the Encoder emits: format N when it can carry the length (R105). -/
def canonicalInstr (kind : Kind) (len : Nat) : Instr :=
  if len ≤ 32 then normalInstr kind len else extendedInstr kind len

theorem headerBytes_of_le {kind : Kind} {len : Nat} (h : len ≤ 32) :
    headerBytes kind len = normalHeader kind len := by
  have hval : (BitVec.ofNat 5 (len - 1)).toNat = len - 1 := by
    rw [BitVec.toNat_ofNat]; omega
  have hbyte : BitVec.ofNat 8 (kind.tag.toNat <<< 5 ||| (len - 1)) =
      (kind.tag ++ BitVec.ofNat 5 (len - 1) : BitVec (3 + 5)) := by
    rw [← hval, ← BitVec.toNat_append, hval, BitVec.ofNat_toNat, BitVec.setWidth_eq]
  rw [headerBytes, if_pos (by omega), hbyte, normalHeader]

theorem headerBytes_of_gt {kind : Kind} {len : Nat} (h : 32 < len) (hmax : len ≤ 1024) :
    headerBytes kind len = extendedHeader kind len := by
  have hval : (BitVec.ofNat 10 (len - 1)).toNat = len - 1 := by
    rw [BitVec.toNat_ofNat]; omega
  have hhigh : ((BitVec.ofNat 10 (len - 1)).extractLsb' 8 2).toNat = (len - 1) >>> 8 := by
    rw [BitVec.extractLsb'_toNat, hval, Nat.shiftRight_eq_div_pow]; omega
  have hfirst : BitVec.ofNat 8 (0xE0 ||| kind.tag.toNat <<< 2 ||| (len - 1) >>> 8) =
      ((0b111 : BitVec 3) ++ kind.tag ++ (BitVec.ofNat 10 (len - 1)).extractLsb' 8 2 :
        BitVec (3 + 3 + 2)) := by
    rw [← BitVec.setWidth_eq (_ ++ _), ← BitVec.ofNat_toNat, BitVec.toNat_append,
      BitVec.toNat_append, hhigh, Nat.shiftLeft_or_distrib]
    rfl
  have hlow : BitVec.ofNat 8 ((len - 1) &&& 0xFF) = (BitVec.ofNat 10 (len - 1)).extractLsb' 0 8 := by
    apply BitVec.eq_of_toNat_eq
    rw [BitVec.extractLsb'_toNat, hval, BitVec.toNat_ofNat, Nat.and_two_pow_sub_one_eq_mod _ 8]
    simp
  rw [headerBytes, if_neg (by omega), hfirst, hlow, extendedHeader_eq]

/-- The emitted header is the encoding of the canonical command (R105). -/
theorem headerBytes_eq_encode (kind : Kind) {len : Nat} (h : len ≤ 1024) :
    headerBytes kind len = encode (canonicalInstr kind len) := by
  unfold canonicalInstr
  split
  · next hle => rw [headerBytes_of_le hle, encode_normalInstr]
  · next hgt => rw [headerBytes_of_gt (by omega) h, encode_extendedInstr]

theorem decode_headerBytes (kind : Kind) {len : Nat} (hpos : 1 ≤ len) (h : len ≤ 1024)
    (rest : List Byte) :
    decode (headerBytes kind len ++ rest) = .ok (canonicalInstr kind len, rest) := by
  unfold canonicalInstr
  split
  · next hle =>
    rw [headerBytes_of_le hle, decode_normalHeader kind (by simp [normalLength, hpos, hle])]
  · next hgt =>
    rw [headerBytes_of_gt (by omega) h, decode_extendedHeader kind (by simp [extendedLength, hpos, h])]

/-- Either format of a kind is that kind's command with the same length (R127). -/
theorem Decoder.runInstr_canonicalInstr (kind : Kind) (len : Nat) (d : Decoder) :
    d.runInstr (canonicalInstr kind len) = (d.latchHeader kind len).execute := by
  unfold canonicalInstr
  split <;> cases kind <;> rfl

end Sys2Proof.Machine

/-! ### The finders' candidates are valid (R193) -/

namespace Sys2Proof.Machine

theorem candidateAt_valid {src : Nat → Byte} {n c len back : Nat} {kind : Kind} (h2 : 2 ≤ len)
    (hlim : len ≤ runLimit n c) (hfits : CandidateFits src c kind len back) :
    CandidateValid src n c (candidateAt src c kind len back) := by
  unfold runLimit maxRun at hlim
  exact ⟨h2, by omega, by omega, hfits, rfl⟩

/-- The extension of the pair at the cursor stays within the limit, and every position past the pair
fits (R194, R195). -/
theorem extendWhile_pair_spec (fits : Nat → Bool) {n c : Nat} (h : c + 1 < n) :
    2 ≤ extendWhile fits (runLimit n c - 2) 2 ∧
    extendWhile fits (runLimit n c - 2) 2 ≤ runLimit n c ∧
    ∀ k, 2 ≤ k → k < extendWhile fits (runLimit n c - 2) 2 → fits k = true := by
  obtain ⟨hge, hle, hfits, _⟩ := extendWhile_spec fits (runLimit n c - 2) 2
  have hlim : 2 ≤ runLimit n c := by unfold runLimit maxRun; omega
  exact ⟨hge, by omega, hfits⟩

theorem byteFill_fits {src : Nat → Byte} {c len : Nat} (h1 : src (c + 1) = src c)
    (h : ∀ k, 2 ≤ k → k < len → src (c + k) = src (c + k - 1)) :
    CandidateFits src c .byteFill len 0 := by
  intro i
  induction i with
  | zero => exact fun _ => rfl
  | succ i ih =>
    intro hi
    rcases Nat.eq_zero_or_pos i with rfl | hpos
    · exact h1
    · rw [h (i + 1) (by omega) hi]
      exact ih (by omega)

theorem sigmaFill_fits {src : Nat → Byte} {c len : Nat}
    (h1 : (src (c + 1)).toNat = (src c).toNat + 1)
    (h : ∀ k, 2 ≤ k → k < len → (src (c + k)).toNat = (src (c + k - 1)).toNat + 1) :
    CandidateFits src c .sigmaFill len 0 := by
  have hsum : ∀ i < len, (src (c + i)).toNat = (src c).toNat + i := by
    intro i
    induction i with
    | zero => exact fun _ => rfl
    | succ i ih =>
      intro hi
      rcases Nat.eq_zero_or_pos i with rfl | hpos
      · exact h1
      · rw [h (i + 1) (by omega) hi, ← Nat.add_assoc, Nat.add_sub_cancel, ih (by omega)]
        omega
  intro i hi
  rw [← hsum i hi, Nat.mod_eq_of_lt (src (c + i)).isLt]

theorem wordFill_fits {src : Nat → Byte} {c len : Nat} (hmin : 4 ≤ len)
    (h : ∀ k, 2 ≤ k → k < len → src (c + k) = src (c + k - 2)) :
    CandidateFits src c .wordFill len 0 := by
  refine ⟨fun i => ?_, hmin⟩
  induction i using Nat.strongRecOn with
  | ind i ih =>
    intro hi
    by_cases hpair : i < 2
    · rw [Nat.mod_eq_of_lt hpair]
    · have hsub : c + i - 2 = c + (i - 2) := by omega
      have hmod : (i - 2) % 2 = i % 2 := by omega
      rw [h i (by omega) hi, hsub, ih (i - 2) (by omega) (by omega), hmod]

theorem byteSigmaFinder_valid (src : Nat → Byte) (n c : Nat) :
    CandidateValid src n c (byteSigmaFinder src n c) := by
  unfold byteSigmaFinder
  split
  · trivial
  · split
    · next hne h1 =>
      obtain ⟨hge, hle, hfits⟩ := extendWhile_pair_spec
        (fun len => src (c + len) = src (c + len - 1)) (Nat.lt_of_not_le hne)
      exact candidateAt_valid hge hle (byteFill_fits h1 fun k hk hlt => by simpa using hfits k hk hlt)
    · split
      · next hne _ h1 =>
        obtain ⟨hge, hle, hfits⟩ := extendWhile_pair_spec
          (fun len => (src (c + len)).toNat = (src (c + len - 1)).toNat + 1) (Nat.lt_of_not_le hne)
        exact candidateAt_valid hge hle
          (sigmaFill_fits h1 fun k hk hlt => by simpa using hfits k hk hlt)
      · trivial

theorem wordFinder_valid (src : Nat → Byte) (n c : Nat) :
    CandidateValid src n c (wordFinder src n c) := by
  unfold wordFinder
  split
  · trivial
  · next hne =>
    obtain ⟨hge, hle, hfits⟩ := extendWhile_pair_spec
      (fun len => src (c + len) = src (c + len - 2)) (Nat.lt_of_not_le hne)
    dsimp only
    split
    · trivial
    · next hmin =>
      exact candidateAt_valid hge hle
        (wordFill_fits (Nat.le_of_not_lt hmin) fun k hk hlt => by simpa using hfits k hk hlt)

/-- A backward search that ends with a positive length has found a start of its range, from which that
many source bytes match under the mask (R196, R197). -/
theorem searchBack_match {src : Nat → Byte} {n c lowest count : Nat} {x : Byte} {best : Nat × Nat}
    (hbest : searchBack (matchLength src n c x) lowest count (0, 0) = best) (h : 0 < best.2) :
    lowest ≤ best.1 ∧ best.1 < lowest + count ∧ best.2 ≤ runLimit n c ∧
    ∀ i < best.2, src (best.1 + i) ^^^ x = src (c + i) := by
  obtain ⟨_, hcases, _⟩ := searchBack_spec (matchLength src n c x) lowest count (0, 0)
  rw [hbest] at hcases
  obtain rfl | ⟨hlow, hhigh, hlen, _, _⟩ := hcases
  · exact absurd h (Nat.lt_irrefl 0)
  · obtain ⟨hlim, hmatch, _⟩ := matchLength_spec src n c best.1 x
    rw [← hlen] at hlim hmatch
    exact ⟨hlow, hhigh, hlim, hmatch⟩

theorem libraryFinder_valid (src : Nat → Byte) (n c : Nat) :
    CandidateValid src n c (libraryFinder src n c) := by
  unfold libraryFinder minLibrary offsetReach
  generalize hbest : searchBack _ _ _ _ = best
  dsimp only
  split
  · trivial
  · next hmin =>
    obtain ⟨_, hstart, hlim, hmatch⟩ := searchBack_match hbest (by omega)
    refine candidateAt_valid (by omega) hlim ⟨fun i hi => ?_, by omega, by omega, by omega⟩
    simpa using (hmatch i hi).symm

theorem xorFinder_valid (src : Nat → Byte) (n c : Nat) :
    CandidateValid src n c (xorFinder src n c) := by
  unfold xorFinder minXor offsetReach
  generalize hbest : searchBack _ _ _ _ = best
  dsimp only
  split
  · trivial
  · next hmin =>
    obtain ⟨_, hstart, hlim, hmatch⟩ := searchBack_match hbest (by omega)
    exact candidateAt_valid (by omega) hlim
      ⟨fun i hi => (hmatch i hi).symm, by omega, by omega, by omega⟩

theorem minusFinder_valid (src : Nat → Byte) (n c : Nat) :
    CandidateValid src n c (minusFinder src n c) := by
  unfold minusFinder minMinus minusReach
  generalize hbest : searchBack _ _ _ _ = best
  dsimp only
  split
  · trivial
  · next hmin =>
    obtain ⟨hlow, hstart, hlim, hmatch⟩ := searchBack_match hbest (by omega)
    refine candidateAt_valid (by omega) hlim ⟨fun i hi => ?_, by omega, by omega, by omega⟩
    rw [Nat.sub_sub_self (by omega)]
    simpa using (hmatch i hi).symm

/-- The selected candidate is valid, since it is one of the five (R193, R224). -/
theorem selectBest_valid (src : Nat → Byte) (n c : Nat) :
    CandidateValid src n c (selectBest (findAll src n c)) := by
  rcases selectBest_mem (findAll src n c) with h | h | h | h | h <;> rw [h]
  · exact byteSigmaFinder_valid src n c
  · exact wordFinder_valid src n c
  · exact libraryFinder_valid src n c
  · exact xorFinder_valid src n c
  · exact minusFinder_valid src n c

end Sys2Proof.Machine

/-! ### The packed form of a source, and the Encoder that produces it -/

namespace Sys2Proof.Machine

/-- The payloads that stand for the `len` source bytes from `c`: the bytes themselves for a literal
run (R228), or the operands of a valid candidate (R193, R230). -/
inductive Payload (src : Nat → Byte) (c len : Nat) : Kind → List Byte → Prop where
  | literal : Payload src c len .directCopy ((List.range' c len).map src)
  | candidate {kind : Kind} {back : Nat} (h : CandidateFits src c kind len back) :
    Payload src c len kind (payloadBytes src c kind back)

/-- Streams that pack the first `c` source bytes: commands of 1 to 1023 bytes, each header in its
canonical form, without a terminator. -/
inductive Packed (src : Nat → Byte) : Nat → List Byte → Prop where
  | nil : Packed src 0 []
  | snoc {c len : Nat} {kind : Kind} {bs payload : List Byte} (h : Packed src c bs)
    (hpos : 1 ≤ len) (hmax : len ≤ 1023) (hp : Payload src c len kind payload) :
    Packed src (c + len) (bs ++ (headerBytes kind len ++ payload))

/-- The bytes of a valid candidate are one canonical header and a payload for the bytes it covers
(R229, R230). -/
theorem CandidateValid.payload {src : Nat → Byte} {n c : Nat} {cand : Candidate}
    (h : CandidateValid src n c cand) (hlen : cand.length ≠ 0) :
    cand.length ≤ 1023 ∧ cand.length ≤ n - c ∧ ∃ kind payload,
      Payload src c cand.length kind payload ∧
      candidateBytes src c cand = headerBytes kind cand.length ++ payload := by
  cases cand with
  | empty => exact absurd rfl hlen
  | found kind len seq back =>
    obtain ⟨_, hmax, hlim, hfits, _⟩ := h
    exact ⟨hmax, hlim, kind, _, .candidate hfits, rfl⟩

/-- What the Encoder has put so far (R32). -/
def Encoder.bytes (e : Encoder) : List Byte :=
  e.comp.slice 0 e.clen

theorem Memory.slice_load_end (m : Memory) (count : Nat) (bs : List Byte) :
    (m.load count bs).slice 0 (count + bs.length) = m.slice 0 count ++ bs := by
  have happ := Memory.appended_load m count bs
  rw [Memory.slice_append]
  congr 1
  · exact Memory.slice_congr fun j hj => happ.old _ (.inl (by omega))
  · apply List.ext_getElem
    · simp
    · intro j hj hj'
      simpa [Memory.slice, hj'] using happ.new j hj'

theorem Encoder.bytes_putAll (e : Encoder) (bs : List Byte) :
    (e.putAll bs).bytes = e.bytes ++ bs := by
  rw [Encoder.putAll_eq]
  exact Memory.slice_load_end e.comp e.clen bs

theorem Encoder.bytes_put (e : Encoder) (b : Byte) : (e.put b).bytes = e.bytes ++ [b] :=
  e.bytes_putAll [b]

/-- An encode call on its way: the bytes put pack the source up to `start`, and the literal run is
what lies between there and the cursor (R31). -/
structure Encoder.Packing (e : Encoder) (src : Nat → Byte) (n start : Nat) : Prop where
  scan : e.estate = .scan
  source : e.src.read = src
  size : e.n = n
  cursor : e.cur ≤ n
  passed : start ≤ e.cur
  run : e.lit = (List.range' start (e.cur - start)).map src
  runCap : e.lit.length ≤ 1023
  packed : Packed src start e.bytes

theorem Encoder.start_packing (source : List Byte) (draws : Nat) :
    (Encoder.start source draws).Packing (Memory.ofBytes source).read source.length 0 where
  scan := rfl
  source := rfl
  size := rfl
  cursor := Nat.zero_le _
  passed := Nat.le_refl _
  run := rfl
  runCap := Nat.zero_le _
  packed := .nil

@[simp] theorem Encoder.flush_cur (e : Encoder) : e.flush.cur = e.cur := by
  rw [Encoder.flush_eq, Encoder.putAll_eq]

@[simp] theorem Encoder.flush_best (e : Encoder) : e.flush.best = e.best := by
  rw [Encoder.flush_eq, Encoder.putAll_eq]

@[simp] theorem Encoder.emitBest_cur (e : Encoder) : e.emitBest.cur = e.cur := by
  rw [Encoder.emitBest, Encoder.putAll_eq]

@[simp] theorem Encoder.emitBest_best (e : Encoder) : e.emitBest.best = e.best := by
  rw [Encoder.emitBest, Encoder.putAll_eq]

section Packing
variable {e : Encoder} {src : Nat → Byte} {n start : Nat}

/-- Until the run is full, a literal keeps the call on its way (R225). -/
theorem Encoder.Packing.takeLiteral (h : e.Packing src n start) (hcur : e.cur < n)
    (hroom : e.lit.length ≠ 1023) : e.takeLiteral.Packing src n start := by
  obtain ⟨hscan, rfl, hn, _, hpassed, hrun, hcap, hpacked⟩ := h
  refine ⟨hscan, rfl, hn, hcur, by simp; omega, ?_, by simp; omega, hpacked⟩
  have hlen : e.cur + 1 - start = (e.cur - start) + 1 := by omega
  have hlast : start + (e.cur - start) = e.cur := by omega
  rw [Encoder.takeLiteral_lit, Encoder.takeLiteral_cur, hlen, List.range'_1_concat, List.map_append,
    hlast, ← hrun]
  rfl

/-- After a flush everything the cursor has passed is packed (R228). -/
theorem Encoder.Packing.flush (h : e.Packing src n start) :
    e.flush.Packing src n e.cur ∧ e.flush.lit = [] := by
  obtain ⟨hscan, hsrc, hn, hcur, hpassed, hrun, hcap, hpacked⟩ := h
  have hlen : e.lit.length = e.cur - start := by simp [hrun]
  have hbytes : Packed src e.cur (e.putAll (flushBytes e.lit)).bytes := by
    rw [Encoder.bytes_putAll]
    unfold flushBytes
    split
    · next hnil =>
      have hstart : start = e.cur := by rw [hnil, List.length_nil] at hlen; omega
      simpa [← hstart] using hpacked
    · next hne =>
      have hpos : 0 < e.lit.length := List.length_pos_iff.mpr hne
      have hend : e.cur = start + e.lit.length := by omega
      have hpayload : Payload src start e.lit.length .directCopy e.lit := by
        have hlit := Payload.literal (src := src) (c := start) (len := e.lit.length)
        rwa [hlen, ← hrun, ← hlen] at hlit
      rw [hend]
      exact hpacked.snoc hpos hcap hpayload
  rw [Encoder.flush_eq]
  rw [Encoder.putAll_eq] at hbytes ⊢
  exact ⟨⟨hscan, hsrc, hn, hcur, Nat.le_refl _, by simp, by simp, hbytes⟩, rfl⟩

/-- A valid candidate, put after a flush, packs the bytes it covers (R226, R229, R230). -/
theorem Encoder.Packing.emitBest (h : e.Packing src n e.cur) (hlit : e.lit = [])
    (hvalid : CandidateValid src n e.cur e.best) (hlen : e.best.length ≠ 0) :
    e.emitBest.skipBest.Packing src n (e.cur + e.best.length) := by
  obtain ⟨hscan, rfl, hn, hcur, _, _, _, hpacked⟩ := h
  obtain ⟨hmax, hlim, kind, payload, hpayload, hput⟩ := hvalid.payload hlen
  have hbytes : Packed e.src.read (e.cur + e.best.length) e.emitBest.bytes := by
    rw [Encoder.emitBest, Encoder.bytes_putAll, hput]
    exact hpacked.snoc (Nat.pos_of_ne_zero hlen) hmax hpayload
  rw [Encoder.emitBest, Encoder.putAll_eq] at hbytes ⊢
  refine ⟨hscan, rfl, hn, ?_, Nat.le_refl _, ?_, ?_, hbytes⟩
  · simp only [Encoder.skipBest_cur]; omega
  · simp [hlit]
  · simp [hlit]

theorem Encoder.Packing.evaluate_select (h : e.Packing src n start) :
    e.evaluate.select.Packing src n start :=
  ⟨h.scan, h.source, h.size, h.cursor, h.passed, h.run, h.runCap, h.packed⟩

/-- An iteration with room in the run keeps the call on its way and moves the cursor on (R223 to
R226). -/
theorem Encoder.Packing.iterate_of_room (h : e.Packing src n start) (hcur : e.cur < n)
    (hroom : e.lit.length ≠ 1023) :
    ∃ start', e.iterate.Packing src n start' ∧ e.cur < e.iterate.cur := by
  rw [Encoder.iterate_of_room hroom, Encoder.commit]
  split
  · exact ⟨start, h.evaluate_select.takeLiteral hcur hroom, Nat.lt_succ_self _⟩
  · next hlen =>
    obtain ⟨hflush, hlit⟩ := h.evaluate_select.flush
    have hvalid : CandidateValid src n e.cur e.evaluate.select.best := by
      simpa [h.source, h.size] using selectBest_valid src n e.cur
    refine ⟨_, Encoder.Packing.emitBest (by simpa using hflush) hlit (by simpa using hvalid)
      (by simpa using hlen), ?_⟩
    have hcur : e.evaluate.select.flush.emitBest.skipBest.cur =
        e.cur + e.evaluate.select.best.length := by simp
    omega

/-- Every iteration keeps the call on its way and moves the cursor on: a full run is flushed first
(R222). -/
theorem Encoder.Packing.iterate (h : e.Packing src n start) (hcur : e.cur < n) :
    ∃ start', e.iterate.Packing src n start' ∧ e.cur < e.iterate.cur := by
  by_cases hfull : e.lit.length = 1023
  · obtain ⟨hflush, hlit⟩ := h.flush
    rw [Encoder.iterate_of_full hfull]
    simpa using hflush.iterate_of_room (by simpa using hcur) (by simp [hlit])
  · exact h.iterate_of_room hcur hfull

/-- At the end of input the bytes put pack the whole source, with the terminator after them (R227). -/
theorem Encoder.Packing.finish_bytes (h : e.Packing src n start) (hcur : e.cur = n) :
    ∃ bs, Packed src n bs ∧ e.finish.bytes = bs ++ [0xFF] :=
  ⟨e.flush.bytes, hcur ▸ h.flush.1.packed, e.flush.bytes_put 0xFF⟩

end Packing

end Sys2Proof.Machine

/-! ### The Decoder on a packed stream -/

namespace Sys2Proof.Machine

/-- The stream bytes not yet consumed (R22, R23). -/
def Decoder.remaining (d : Decoder) : List Byte :=
  d.stream.slice d.sp (d.slen - d.sp)

theorem Memory.take_slice (m : Memory) (x count k : Nat) :
    (m.slice x count).take k = m.slice x (min k count) :=
  List.ext_getElem (by simp) (by simp [Memory.slice])

theorem Decoder.window_eq (d : Decoder) (count : Nat) : d.window count = d.remaining.take count :=
  (Memory.take_slice _ _ _ _).symm

/-- Bytes at the front of what remains stand in STREAM from the pointer on, and the rest remains
beyond them. -/
theorem Decoder.remaining_append {d : Decoder} {bs rest : List Byte}
    (h : d.remaining = bs ++ rest) :
    bs.length ≤ d.slen - d.sp ∧ d.stream.slice d.sp bs.length = bs ∧
    d.stream.slice (d.sp + bs.length) (d.slen - (d.sp + bs.length)) = rest := by
  have hlen : d.slen - d.sp = bs.length + rest.length := by
    rw [← List.length_append, ← h, Decoder.remaining, Memory.length_slice]
  have hrest : d.slen - (d.sp + bs.length) = rest.length := by omega
  rw [Decoder.remaining, hlen, Memory.slice_append] at h
  rw [hrest]
  exact ⟨by omega, List.append_inj h (Memory.length_slice _ _ _)⟩

/-- A decode call that has given back the first `c` bytes of the source, with `rest` still to be
read. -/
structure Decoder.Unpacked (d : Decoder) (src : Nat → Byte) (cap c : Nat) (rest : List Byte) :
    Prop where
  remaining : d.remaining = rest
  cap : d.maxOut = cap
  length : d.olen = c
  output : ∀ i < c, d.out.read i = src i

/-- The same between two commands. -/
structure Decoder.Ready (d : Decoder) (src : Nat → Byte) (cap c : Nat) (rest : List Byte) : Prop
    extends d.Unpacked src cap c rest where
  state : d.dstate = .readHeader

theorem Decoder.start_ready (packed : List Byte) (cap draws : Nat) (src : Nat → Byte) :
    (Decoder.start packed cap draws).Ready src cap 0 packed where
  remaining := Memory.slice_ofBytes packed
  cap := rfl
  length := rfl
  output := fun i hi => absurd hi (Nat.not_lt_zero i)
  state := rfl

section Commands
variable {d : Decoder} {src : Nat → Byte} {cap c : Nat} {rest : List Byte}

/-! #### Latches and operands -/

theorem Decoder.Unpacked.latchHeader (h : d.Unpacked src cap c rest) (kind : Kind) (len : Nat) :
    (d.latchHeader kind len).Unpacked src cap c rest :=
  ⟨h.remaining, h.cap, h.length, h.output⟩

theorem Decoder.Unpacked.clearCount (h : d.Unpacked src cap c rest) :
    d.clearCount.Unpacked src cap c rest :=
  ⟨h.remaining, h.cap, h.length, h.output⟩

theorem Decoder.Unpacked.takeHeader {header : List Byte}
    (h : d.Unpacked src cap c (header ++ rest)) :
    (d.takeHeader header.length).Unpacked src cap c rest :=
  ⟨(Decoder.remaining_append h.remaining).2.2, h.cap, h.length, h.output⟩

/-- A stream read takes the first of the remaining bytes (R11). -/
theorem Decoder.Unpacked.fetchByte {b : Byte} (h : d.Unpacked src cap c (b :: rest)) :
    d.advance.Unpacked src cap c rest ∧ ∀ next, d.fetchByte next = next b d.advance := by
  obtain ⟨hle, hread, hrest⟩ := Decoder.remaining_append (bs := [b]) h.remaining
  have hb : d.stream.read d.sp = b := by simpa [Memory.slice] using hread
  have hlt : d.sp < d.slen := Nat.lt_of_sub_pos hle
  exact ⟨⟨hrest, h.cap, h.length, h.output⟩,
    fun next => by rw [Decoder.fetchByte_of_lt hlt, hb]⟩

theorem Decoder.Unpacked.fetchValue {v : Byte} (h : d.Unpacked src cap c (v :: rest)) :
    (d.advance.latchValue v).Unpacked src cap c rest ∧
    ∀ next, d.fetchValue next = next (d.advance.latchValue v) := by
  obtain ⟨hv, hfetch⟩ := h.fetchByte
  exact ⟨⟨hv.remaining, hv.cap, hv.length, hv.output⟩, fun next => hfetch _⟩

theorem Decoder.Unpacked.fetchPair {lo hi : Byte} (h : d.Unpacked src cap c (lo :: hi :: rest)) :
    ((d.advance.latchLo lo).advance.latchHi hi).Unpacked src cap c rest ∧
    ∀ next, d.fetchPair next = next ((d.advance.latchLo lo).advance.latchHi hi) := by
  obtain ⟨hlo, hfetchLo⟩ := h.fetchByte
  have hlatched : (d.advance.latchLo lo).Unpacked src cap c (hi :: rest) :=
    ⟨hlo.remaining, hlo.cap, hlo.length, hlo.output⟩
  obtain ⟨hhi, hfetchHi⟩ := hlatched.fetchByte
  exact ⟨⟨hhi.remaining, hhi.cap, hhi.length, hhi.output⟩,
    fun next => (hfetchLo _).trans (hfetchHi _)⟩

theorem Decoder.Unpacked.fetchOffset {b0 b1 : Byte} (h : d.Unpacked src cap c (b0 :: b1 :: rest))
    (xm : Byte) :
    (d.advance.advance.latchCopy (offsetOf b0 b1) xm).Unpacked src cap c rest ∧
    ∀ next, d.fetchOffset xm next = next (d.advance.advance.latchCopy (offsetOf b0 b1) xm) := by
  obtain ⟨h0, hfetch0⟩ := h.fetchByte
  obtain ⟨h1, hfetch1⟩ := h0.fetchByte
  exact ⟨⟨h1.remaining, h1.cap, h1.length, h1.output⟩,
    fun next => (hfetch0 _).trans (hfetch1 _)⟩

theorem Decoder.Unpacked.fetchDistance {m : Byte} (h : d.Unpacked src cap c (m :: rest)) :
    (d.advance.latchCopy ((c : Int) - m.toNat) 0).Unpacked src cap c rest ∧
    ∀ next, d.fetchDistance next = next (d.advance.latchCopy ((c : Int) - m.toNat) 0) := by
  obtain ⟨hm, hfetch⟩ := h.fetchByte
  refine ⟨⟨hm.remaining, hm.cap, hm.length, hm.output⟩, fun next => (hfetch _).trans ?_⟩
  rw [Decoder.advance_olen, h.length]

/-! #### The byte loop gives back the source -/

theorem Memory.Appended.read_eq {m m' : Memory} {len : Nat} {byte : Nat → Byte}
    (h : m.Appended m' c len byte) (hold : ∀ i < c, m.read i = src i)
    (hnew : ∀ j < len, byte j = src (c + j)) : ∀ i < c + len, m'.read i = src i := by
  intro i hi
  by_cases hlt : i < c
  · rw [h.old i (.inl hlt), hold i hlt]
  · obtain ⟨j, rfl⟩ := Nat.exists_eq_add_of_le (Nat.le_of_not_lt hlt)
    rw [h.new j (by omega), hnew j (by omega)]

/-- A copy whose read index stays behind its write index gives back the source where the source
repeats itself under the mask, the bytes the copy appended itself among them (R170, R193). -/
theorem Memory.Appended.read_eq_of_copy {m m' : Memory} {len from0 : Nat} {xm : Byte}
    (h : m.Appended m' c len fun j => m'.read (from0 + j) ^^^ xm) (hfrom : from0 < c)
    (hold : ∀ i < c, m.read i = src i)
    (hnew : ∀ j < len, src (c + j) = src (from0 + j) ^^^ xm) :
    ∀ i < c + len, m'.read i = src i := by
  intro i
  induction i using Nat.strongRecOn with
  | ind i ih =>
    intro hi
    by_cases hlt : i < c
    · rw [h.old i (.inl hlt), hold i hlt]
    · obtain ⟨j, rfl⟩ := Nat.exists_eq_add_of_le (Nat.le_of_not_lt hlt)
      rw [h.new j (by omega), ih (from0 + j) (by omega) (by omega), hnew j (by omega)]

theorem Decoder.Unpacked.copyAll_fill (h : d.Unpacked src cap c rest) (byte : Nat → Byte)
    (hnext : ∀ d' : Decoder, d'.kind = d.kind → d'.v = d.v → d'.lo = d.lo → d'.hi = d.hi →
      ∀ next, d'.nextByte next = next (byte d'.k) d')
    (hk : d.k = 0) (hcap : c + d.len ≤ cap) (hbyte : ∀ j < d.len, byte j = src (c + j)) :
    d.copyAll.Ready src cap (c + d.len) rest := by
  obtain ⟨hrest, rfl, rfl, hout⟩ := h
  obtain ⟨out, hloop, happ⟩ := Decoder.byteLoop_fill byte d.len d hnext hcap
  rw [Decoder.copyAll, hloop]
  exact ⟨⟨hrest, rfl, rfl, happ.read_eq hout fun j hj => by rw [hk, Nat.zero_add, hbyte j hj]⟩, rfl⟩

theorem Decoder.Unpacked.copyAll_copy (h : d.Unpacked src cap c rest) {from0 : Nat}
    (hkind : d.kind = .libraryCopy ∨ d.kind = .xorCopy ∨ d.kind = .minusCopy)
    (hk : d.k = 0) (hcap : c + d.len ≤ cap) (hbase : d.base = from0) (hfrom : from0 < c)
    (hbyte : ∀ j < d.len, src (c + j) = src (from0 + j) ^^^ d.xm) :
    d.copyAll.Ready src cap (c + d.len) rest := by
  obtain ⟨hrest, rfl, rfl, hout⟩ := h
  obtain ⟨out, hloop, happ⟩ :=
    Decoder.byteLoop_copy d.len d from0 hkind (by simp [hbase, hk]) hfrom hcap
  rw [Decoder.copyAll, hloop]
  exact ⟨⟨hrest, rfl, rfl, happ.read_eq_of_copy hfrom hout hbyte⟩, rfl⟩

theorem Decoder.Unpacked.copyAll_direct
    (h : d.Unpacked src cap c ((List.range' c d.len).map src ++ rest))
    (hkind : d.kind = .directCopy) (hcap : c + d.len ≤ cap) (hpos : 1 ≤ d.len) :
    d.copyAll.Ready src cap (c + d.len) rest := by
  obtain ⟨hrem, rfl, rfl, hout⟩ := h
  obtain ⟨hle, hslice, hrest⟩ := Decoder.remaining_append hrem
  rw [List.length_map, List.length_range'] at hle hslice hrest
  obtain ⟨out, hloop, happ⟩ := Decoder.byteLoop_direct d.len d hkind hcap (by omega)
  have hraw : ∀ j < d.len, d.stream.read (d.sp + j) = src (d.olen + j) := by
    intro j hj
    simpa [Memory.slice, hj] using congrArg (fun bs => bs[j]?) hslice
  rw [Decoder.copyAll, hloop]
  exact ⟨⟨hrest, rfl, rfl, happ.read_eq hout hraw⟩, rfl⟩

/-! #### The payload executed -/

theorem offsetOf_payload {o : Nat} (h : o ≤ 65535) :
    offsetOf (BitVec.ofNat 8 (o &&& 0xFF)) (BitVec.ofNat 8 (o >>> 8)) = o := by
  rw [offsetOf, BitVec.toNat_ofNat, BitVec.toNat_ofNat, Nat.and_two_pow_sub_one_eq_mod _ 8,
    Nat.shiftRight_eq_div_pow]
  omega

/-- The command of a valid candidate gives back the bytes the candidate covers (R152 to R154, R171
to R173, R193). -/
theorem Decoder.Unpacked.execute_candidate {kind : Kind} {back : Nat}
    (h : d.Unpacked src cap c (payloadBytes src c kind back ++ rest)) (hkind : d.kind = kind)
    (hfits : CandidateFits src c kind d.len back) (hcap : c + d.len ≤ cap) :
    d.execute.Ready src cap (c + d.len) rest := by
  rw [Decoder.execute, hkind]
  cases kind with
  | directCopy => exact hfits.elim
  | byteFill =>
    obtain ⟨hv, hfetch⟩ := h.clearCount.fetchValue
    rw [Decoder.runByteFill, hfetch]
    refine hv.copyAll_fill (fun _ => src c) (fun d' hk hv _ _ next => ?_) rfl hcap
      fun j hj => (hfits j hj).symm
    simp [Decoder.nextByte, hk.trans hkind, hv]
  | wordFill =>
    obtain ⟨hpair, hfetch⟩ := h.clearCount.fetchPair
    rw [Decoder.runWordFill, hfetch]
    refine hpair.copyAll_fill (fun j => if j % 2 = 0 then src c else src (c + 1))
      (fun d' hk _ hlo hhi next => ?_) rfl hcap fun j hj => ?_
    · simp [Decoder.nextByte, hk.trans hkind, hlo, hhi]
    · rw [hfits.1 j hj]
      rcases Nat.mod_two_eq_zero_or_one j with hj | hj <;> simp [hj]
  | sigmaFill =>
    obtain ⟨hv, hfetch⟩ := h.clearCount.fetchValue
    rw [Decoder.runSigmaFill, hfetch]
    refine hv.copyAll_fill (fun j => src c + BitVec.ofNat 8 j) (fun d' hk hv _ _ next => ?_) rfl hcap
      fun j hj => BitVec.eq_of_toNat_eq ?_
    · simp [Decoder.nextByte, hk.trans hkind, hv]
    · simp [hfits j hj]
  | libraryCopy =>
    obtain ⟨hbytes, hback, hmax, _⟩ := hfits
    obtain ⟨hoffset, hfetch⟩ := h.clearCount.fetchOffset 0x00
    rw [Decoder.runLibraryCopy, hfetch]
    refine hoffset.copyAll_copy (.inl hkind) rfl hcap (from0 := back) ?_ hback fun j hj => ?_
    · simp only [Decoder.latchCopy_base, offsetOf_payload hmax]
    · simpa using hbytes j hj
  | xorCopy =>
    obtain ⟨hbytes, hback, hmax, _⟩ := hfits
    obtain ⟨hoffset, hfetch⟩ := h.clearCount.fetchOffset 0xFF
    rw [Decoder.runXorCopy, hfetch]
    refine hoffset.copyAll_copy (.inr (.inl hkind)) rfl hcap (from0 := back) ?_ hback fun j hj => ?_
    · simp only [Decoder.latchCopy_base, offsetOf_payload hmax]
    · simpa using hbytes j hj
  | minusCopy =>
    obtain ⟨hbytes, hpos, hmax, hback⟩ := hfits
    obtain ⟨hdistance, hfetch⟩ := h.clearCount.fetchDistance
    rw [Decoder.runMinusCopy, hfetch]
    refine hdistance.copyAll_copy (.inr (.inr hkind)) rfl hcap (from0 := c - back) ?_ (by omega)
      fun j hj => ?_
    · simp only [Decoder.latchCopy_base, BitVec.toNat_ofNat]
      omega
    · simpa using hbytes j hj

/-- A command of the packed form gives back the source bytes it stands for (R127). -/
theorem Decoder.Unpacked.execute {kind : Kind} {payload : List Byte}
    (h : d.Unpacked src cap c (payload ++ rest)) (hkind : d.kind = kind)
    (hp : Payload src c d.len kind payload) (hpos : 1 ≤ d.len) (hcap : c + d.len ≤ cap) :
    d.execute.Ready src cap (c + d.len) rest := by
  cases hp with
  | literal =>
    rw [Decoder.execute, hkind]
    exact h.clearCount.copyAll_direct hkind hcap hpos
  | candidate hfits => exact h.execute_candidate hkind hfits hcap

/-! #### Moves -/

theorem Decoder.Ready.move_of_command {kind : Kind} {len : Nat} {payload : List Byte}
    (h : d.Ready src cap c (headerBytes kind len ++ payload ++ rest))
    (hp : Payload src c len kind payload) (hpos : 1 ≤ len) (hmax : len ≤ 1023)
    (hcap : c + len ≤ cap) : d.move.Ready src cap (c + len) rest := by
  obtain ⟨h, hstate⟩ := h
  have hsize : (headerBytes kind len).length = headerSize (canonicalInstr kind len) := by
    rw [headerBytes_eq_encode kind (by omega), length_encode]
  have hroom : d.olen ≠ d.maxOut := by rw [h.length, h.cap]; omega
  have hshort : (headerBytes kind len).length ≤ 2 := by
    rw [length_headerBytes]; split <;> omega
  have hdecode : ∃ tail, decode (d.window 2) = .ok (canonicalInstr kind len, tail) := by
    rw [Decoder.window_eq, h.remaining, List.append_assoc, List.take_append,
      List.take_of_length_le hshort]
    exact ⟨_, decode_headerBytes kind hpos (by omega) _⟩
  obtain ⟨tail, hdecode⟩ := hdecode
  have hmove : d.move =
      ((d.takeHeader (headerBytes kind len).length).latchHeader kind len).execute := by
    rw [Decoder.move, Decoder.fetch, hstate]
    simp only [Decoder.fetchHeader, if_neg hroom, hdecode, Decoder.runInstr_canonicalInstr, hsize]
  rw [hmove]
  rw [List.append_assoc] at h
  exact (h.takeHeader.latchHeader kind len).execute rfl hp hpos hcap

theorem Decoder.Ready.move_of_cap (h : d.Ready src cap cap rest) : d.move = d.finish .cap := by
  rw [Decoder.move, Decoder.fetch, h.state]
  simp only [Decoder.fetchHeader, if_pos (h.length.trans h.cap.symm)]

theorem Decoder.Ready.move_of_terminator (h : d.Ready src cap c [0xFF]) (hcap : c ≠ cap) :
    d.move = (d.takeHeader 1).finish .terminator := by
  have hroom : d.olen ≠ d.maxOut := by rwa [h.length, h.cap]
  have hdecode : decode (d.window 2) = .ok (.endOfStream, []) := by
    rw [Decoder.window_eq, h.remaining]; rfl
  rw [Decoder.move, Decoder.fetch, h.state]
  simp only [Decoder.fetchHeader, if_neg hroom, hdecode]
  rfl

/-- At the end of a packed stream the call ends with the source: by the cap when nothing more fits,
else by the terminator (R122, R130). -/
theorem Decoder.Ready.move_at_end (h : d.Ready src cap c [0xFF]) :
    d.move.result = some (.ok ((List.range' 0 c).map src)) ∧
    d.move.stop = some (if cap = c then .cap else .terminator) := by
  have hout : d.out.slice 0 d.olen = (List.range' 0 c).map src := by
    rw [h.length]
    exact List.map_congr_left fun i hi => h.output i (by simpa using hi)
  by_cases hcap : cap = c
  · subst hcap
    rw [h.move_of_cap]
    simp [Decoder.result, hout]
  · rw [h.move_of_terminator (Ne.symm hcap)]
    simp [Decoder.result, hout, hcap]

end Commands

end Sys2Proof.Machine

/-! ### Runs of the block -/

namespace Sys2Proof.Machine

/-- Every state has a next state (R80, R261). -/
theorem step_total (s : State) : ∃ t, step s = .next t := by
  unfold step
  split
  · exact ⟨_, rfl⟩
  · split
    · exact ⟨_, decoderMove_eq s⟩
    · exact ⟨_, rfl⟩
    · exact ⟨_, rfl⟩

/-- Some number of steps leads from one state to the other. -/
def Reaches (s t : State) : Prop :=
  ∃ k, Host.Core.run Sys2Proof.core k s = .next t

theorem Reaches.refl (s : State) : Reaches s s := ⟨0, rfl⟩

theorem Reaches.head {s t u : State} (h : step s = .next t) (ht : Reaches t u) : Reaches s u := by
  obtain ⟨k, hk⟩ := ht
  exact ⟨k + 1, (run_succ k h).trans hk⟩

theorem Reaches.trans {s t u : State} (h : Reaches s t) (hu : Reaches t u) : Reaches s u := by
  obtain ⟨k, hk⟩ := h
  induction k generalizing s with
  | zero => exact Host.Outcome.next.inj hk ▸ hu
  | succ k ih =>
    obtain ⟨s', hs'⟩ := step_total s
    exact .head hs' (ih ((run_succ k hs').symm.trans hk))

theorem State.readyCommand_of_no_host {s : State} (h : s.host = []) : s.readyCommand = none := by
  simp [State.readyCommand, h]

/-- With no pending start and only the Encoder running, a step is its move. -/
theorem step_of_encoder {s : State} (hhost : s.host = []) (hdec : s.dec.busy = false)
    (henc : s.enc.estate = .scan) : step s = .next s.encoderMove := by
  simp [step, State.readyCommand_of_no_host hhost, State.mover, hdec, Encoder.busy, henc]

/-- With no pending start and only the Decoder running, a step is its move. -/
theorem step_of_decoder {s : State} (hhost : s.host = []) (henc : s.enc.busy = false)
    (hdec : s.dec.dstate = .readHeader) :
    step s = .next { s with dec := s.dec.move, turn := .encoder } := by
  simp [step, State.readyCommand_of_no_host hhost, State.mover, henc, Decoder.busy, hdec,
    decoderMove_eq]

/-! #### The encode call -/

/-- An encode call ends, and what it has put packs the whole source with a terminator after it (R227,
R231). -/
theorem encode_reaches {src : Nat → Byte} {n : Nat} : ∀ {s : State} {start : Nat},
    s.host = [] → s.dec.busy = false → s.enc.Packing src n start →
    ∃ t bs, Reaches s t ∧ t.host = [] ∧ t.enc.estate = .done ∧
      Packed src n bs ∧ t.enc.bytes = bs ++ [0xFF] := by
  intro s start hhost hdec henc
  have hstep := step_of_encoder hhost hdec henc.scan
  by_cases hcur : s.enc.cur < n
  · have hmove : s.encoderMove.enc = s.enc.iterate := by
      simp [Encoder.move, henc.scan, henc.size, hcur]
    obtain ⟨start', hnext, hprogress⟩ := henc.iterate hcur
    obtain ⟨t, bs, hreach, hend⟩ := encode_reaches (s := s.encoderMove) hhost hdec (hmove ▸ hnext)
    exact ⟨t, bs, .head hstep hreach, hend⟩
  · have hmove : s.encoderMove.enc = s.enc.finish := by
      simp [Encoder.move, henc.scan, henc.size, hcur]
    obtain ⟨bs, hpacked, hbytes⟩ := henc.finish_bytes (Nat.le_antisymm henc.cursor (by omega))
    exact ⟨s.encoderMove, bs, .head hstep (.refl _), hhost, by rw [hmove]; rfl, hpacked,
      by rw [hmove, hbytes]⟩
termination_by s => n - s.enc.cur
decreasing_by rw [hmove]; omega

/-! #### The decode call -/

/-- A decode call of a stream in packed form comes to the state in which the packed bytes have been
read and the source bytes given back. -/
theorem decode_reaches {src : Nat → Byte} {cap c : Nat} {bs : List Byte} (h : Packed src c bs) :
    ∀ {s : State} {rest : List Byte}, c ≤ cap → s.host = [] → s.enc.busy = false →
    s.dec.Ready src cap 0 (bs ++ rest) →
    ∃ t, Reaches s t ∧ t.host = [] ∧ t.enc.busy = false ∧ t.dec.Ready src cap c rest := by
  induction h with
  | nil => exact fun _ hhost henc hready => ⟨_, .refl _, hhost, henc, hready⟩
  | snoc _ hpos hmax hp ih =>
    intro s rest hcap hhost henc hready
    rw [List.append_assoc] at hready
    obtain ⟨t, hreach, hhost, henc, hready⟩ := ih (by omega) hhost henc hready
    exact ⟨_, hreach.trans (.head (step_of_decoder hhost henc hready.state) (.refl _)), hhost, henc,
      hready.move_of_command hp hpos hmax hcap⟩

/-- Settles O60: the Encoder's stream is in packed form, and the Decoder gives back the source of any
stream in packed form. -/
theorem roundTrip : Obligations.RoundTrip := by
  intro s source hhost hdec
  obtain ⟨t, bs, ⟨k, hrun⟩, hhost, hdone, hpacked, hbytes⟩ :=
    encode_reaches (s := s.startEncode source) hhost hdec (Encoder.start_packing source s.draws)
  refine ⟨k, t, bs ++ [0xFF], hrun, ?_, fun cap hcap => ?_⟩
  · rw [← hbytes]
    simp [Encoder.result, hdone, Encoder.bytes]
  have henc : t.enc.busy = false := by simp [Encoder.busy, hdone]
  obtain ⟨u, hreach, hhost, henc, hready⟩ :=
    decode_reaches hpacked (s := t.startDecode (bs ++ [0xFF]) cap) hcap hhost henc
      (Decoder.start_ready _ cap t.draws _)
  obtain ⟨k', hrun'⟩ := hreach.trans (.head (step_of_decoder hhost henc hready.state) (.refl _))
  obtain ⟨hresult, hstop⟩ := hready.move_at_end
  have hsource : (List.range' 0 source.length).map (Memory.ofBytes source).read = source :=
    Memory.slice_ofBytes source
  exact ⟨k', _, hrun', by rw [hresult, hsource], hstop⟩

end Sys2Proof.Machine

/-! ### What a Decoder move can do -/

namespace Sys2Proof.Machine

/-- A header read from some bytes is no longer than they are (R95); here the first byte is read. -/
theorem headerSize_le_of_decodeExtended {h0 : Byte} {bs rest : List Byte} {i : Instr}
    (h : decodeExtended h0 bs = .ok (i, rest)) : headerSize i ≤ bs.length + 1 := by
  unfold decodeExtended at h
  split at h
  · obtain ⟨rfl, _⟩ := Prod.mk.inj (Except.ok.inj h)
    have hsize : headerSize (reservedInstr h0) = 1 := by
      unfold reservedInstr
      split_ifs <;> rfl
    omega
  · next kind _ =>
    cases bs with
    | nil => cases h
    | cons h1 bs =>
      obtain ⟨rfl, _⟩ := Prod.mk.inj (Except.ok.inj h)
      cases kind <;> exact Nat.le_add_left 2 bs.length

theorem headerSize_le_of_decode {bs rest : List Byte} {i : Instr}
    (h : decode bs = .ok (i, rest)) : headerSize i ≤ bs.length := by
  cases bs with
  | nil => cases h
  | cons h0 bs =>
    simp only [decode] at h
    split_ifs at h
    · obtain ⟨rfl, _⟩ := Prod.mk.inj (Except.ok.inj h)
      exact Nat.le_add_left 1 bs.length
    · split at h
      · next kind _ =>
        obtain ⟨rfl, _⟩ := Prod.mk.inj (Except.ok.inj h)
        cases kind <;> exact Nat.le_add_left 1 bs.length
      · exact headerSize_le_of_decodeExtended h

theorem length_pos_of_decode_noExtension {bs : List Byte} {h0 : Byte}
    (h : decode bs = .error (.noExtension h0)) : 1 ≤ bs.length := by
  cases bs with
  | nil => cases h
  | cons h0 bs => exact Nat.le_add_left 1 bs.length

theorem Decoder.length_window_le (d : Decoder) (count : Nat) :
    (d.window count).length ≤ d.slen - d.sp :=
  (Memory.length_slice _ _ _).trans_le (min_le_right _ _)

/-- What any move of a running call does to the Decoder: a property that a command keeps, and that
passing header bytes still in STREAM keeps, holds of the state the move ends from (R120 to R130). -/
theorem Decoder.move_ends {P : Decoder → Prop} (hP : Decoder.Kept P) {d : Decoder} (h : P d)
    (pass : ∀ h0 dstate count, count ≤ d.slen - d.sp →
      P { d with h0 := h0, sp := d.sp + count, dstate := dstate })
    (hbusy : d.busy = true) : ∃ d', P d' ∧ d'.EndsFrom d.move := by
  unfold Decoder.move Decoder.fetch
  cases hstate : d.dstate <;> simp only [Decoder.busy, hstate, Bool.false_eq_true] at hbusy
  case readHeader =>
    have hwindow := d.length_window_le 2
    simp only [Decoder.fetchHeader]
    split_ifs with hcap
    · exact ⟨d, h, .cap hcap⟩
    · split
      next hfetch =>
        split at hfetch <;> cases hfetch
        · exact ⟨d, h, .raise _ _⟩
        · next hdecode =>
          have hsize := length_pos_of_decode_noExtension hdecode
          exact ⟨_, pass _ _ 1 (by omega), .raise _ _⟩
      next hfetch =>
        split at hfetch <;> cases hfetch
        next hdecode =>
          have hsize := headerSize_le_of_decode hdecode
          exact Decoder.runInstr_ends hP _ (pass _ _ _ (by omega))
  case readExt =>
    have hwindow := d.length_window_le 1
    simp only [Decoder.fetchExtension]
    split
    next hfetch =>
      split at hfetch <;> cases hfetch
      exact ⟨d, h, .raise _ _⟩
    next hfetch =>
      split at hfetch <;> cases hfetch
      next hdecode =>
        have hsize := headerSize_le_of_decodeExtended hdecode
        exact Decoder.runInstr_ends hP _ (pass d.h0 d.dstate _ (by omega))
  case execute => exact Decoder.execute_ends hP h

theorem Decoder.move_of_not_busy {d : Decoder} (h : d.busy = false) : d.move = d := by
  unfold Decoder.move Decoder.fetch
  cases hstate : d.dstate <;> simp only [Decoder.busy, hstate, Bool.true_eq_false] at h ⊢

end Sys2Proof.Machine

/-! ### The invariant of the Decoder -/

namespace Sys2Proof.Machine

/-- What holds of the Decoder while a call runs, and of the state every command ends from:
`Decoder.Inv` with nothing valid in DSTATUS (R28). -/
structure Decoder.Running (d : Decoder) : Prop where
  streamWf : d.stream.wf
  streamWithin : d.stream.within d.slen
  outWf : d.out.wf
  outWithin : d.out.within d.olen
  pointer : d.sp ≤ d.slen
  cap : d.olen ≤ d.maxOut
  blank : d.stop = none ∧ d.cause = none ∧ d.info = none

theorem Decoder.Inv.running {d : Decoder} (h : d.Inv) (hbusy : d.busy = true) : d.Running := by
  refine ⟨h.streamWf, h.streamWithin, h.outWf, h.outWithin, h.pointer, h.cap, ?_⟩
  have hstatus := h.status
  cases hstate : d.dstate <;> simp only [Decoder.busy, hstate, Bool.false_eq_true] at hbusy <;>
    simpa only [Decoder.StatusInv, hstate] using hstatus

theorem Decoder.running_kept : Decoder.Kept Decoder.Running where
  header _ _ _ h := { h with }
  clear _ h := { h with }
  value _ _ h := { h with }
  lo _ _ h := { h with }
  hi _ _ h := { h with }
  copy _ _ _ h := { h with }
  advance _ h hlt := { h with pointer := hlt }
  append _ b h hne := { h with
    outWf := Memory.wf_write _ b h.outWf
    outWithin := Memory.within_append b h.outWithin
    cap := Nat.lt_of_le_of_ne h.cap hne }

/-- However a command ends, DSTATUS is valid as the control state says (R28, R129, R256). -/
theorem Decoder.Running.inv_of_ends {d d' : Decoder} (h : d.Running) (hends : d.EndsFrom d') :
    d'.Inv := by
  obtain ⟨hstream, hstreamIn, hout, houtIn, hsp, holen, hstop, hcause, hinfo⟩ := h
  cases hends with
  | complete => exact ⟨hstream, hstreamIn, hout, houtIn, hsp, holen, hstop, hcause, hinfo⟩
  | cap hcap =>
    exact ⟨hstream, hstreamIn, hout, houtIn, hsp, holen, by simp, hcause, hinfo, fun _ => hcap⟩
  | terminator =>
    exact ⟨hstream, hstreamIn, hout, houtIn, hsp, holen, by simp, hcause, hinfo, by simp⟩
  | raise c i => exact ⟨hstream, hstreamIn, hout, houtIn, hsp, holen, hstop, by simp, by simp⟩

theorem Decoder.Inv.move {d : Decoder} (h : d.Inv) : d.move.Inv := by
  cases hbusy : d.busy with
  | false => rwa [Decoder.move_of_not_busy hbusy]
  | true =>
    have hrunning := h.running hbusy
    have hpointer := h.pointer
    obtain ⟨d', hd', hends⟩ := Decoder.move_ends Decoder.running_kept hrunning
      (fun _ _ _ hcount => { hrunning with pointer := by simp only; omega }) hbusy
    exact hd'.inv_of_ends hends

theorem Decoder.start_inv (bs : List Byte) (cap draws : Nat) : (Decoder.start bs cap draws).Inv where
  streamWf := Memory.wf_ofBytes bs
  streamWithin := Memory.within_ofBytes bs
  outWf := Memory.wf_nil
  outWithin := Memory.within_nil 0
  pointer := Nat.zero_le _
  cap := Nat.zero_le _
  status := ⟨rfl, rfl, rfl⟩

theorem Decoder.reset_inv : Decoder.reset.Inv where
  streamWf := Memory.wf_nil
  streamWithin := Memory.within_nil 0
  outWf := Memory.wf_nil
  outWithin := Memory.within_nil 0
  pointer := Nat.le_refl 0
  cap := Nat.le_refl 0
  status := ⟨rfl, rfl, rfl⟩

end Sys2Proof.Machine

/-! ### The invariant of the Encoder -/

namespace Sys2Proof.Machine

theorem Encoder.sizeInv_of_scan {e : Encoder} (h : e.estate = .scan) :
    e.SizeInv ↔ e.clen ≤ 2 * (e.cur - e.lit.length) := by
  simp only [Encoder.SizeInv, h]

@[simp] theorem Encoder.flush_estate (e : Encoder) : e.flush.estate = e.estate := by
  rw [Encoder.flush_eq, Encoder.putAll_eq]

@[simp] theorem Encoder.flush_src (e : Encoder) : e.flush.src = e.src := by
  rw [Encoder.flush_eq, Encoder.putAll_eq]

@[simp] theorem Encoder.flush_n (e : Encoder) : e.flush.n = e.n := by
  rw [Encoder.flush_eq, Encoder.putAll_eq]

@[simp] theorem Encoder.flush_lit (e : Encoder) : e.flush.lit = [] := by
  rw [Encoder.flush_eq]

@[simp] theorem Encoder.finish_estate (e : Encoder) : e.finish.estate = .done := rfl

@[simp] theorem Encoder.finish_src (e : Encoder) : e.finish.src = e.flush.src := rfl

@[simp] theorem Encoder.finish_n (e : Encoder) : e.finish.n = e.flush.n := rfl

@[simp] theorem Encoder.finish_cur (e : Encoder) : e.finish.cur = e.flush.cur := rfl

@[simp] theorem Encoder.finish_lit (e : Encoder) : e.finish.lit = e.flush.lit := rfl

@[simp] theorem Encoder.finish_comp (e : Encoder) :
    e.finish.comp = e.flush.comp.write e.flush.clen 0xFF := rfl

@[simp] theorem Encoder.finish_clen (e : Encoder) : e.finish.clen = e.flush.clen + 1 := rfl

/-- A flush costs at most two bytes for each byte of the run: its header takes one byte, or two from
length 33 on (R105, R234). -/
theorem length_flushBytes_le (lit : List Byte) : (flushBytes lit).length ≤ 2 * lit.length := by
  unfold flushBytes literalBytes
  split_ifs with hnil
  · exact Nat.zero_le _
  · have hpos := List.length_pos_iff.mpr hnil
    rw [List.length_append, length_headerBytes]
    split_ifs <;> omega

theorem length_payloadBytes_le (src : Nat → Byte) (cur : Nat) (kind : Kind) (back : Nat) :
    (payloadBytes src cur kind back).length ≤ 2 := by
  cases kind <;> simp [payloadBytes]

/-- A valid candidate covers at least two bytes, so its command costs at most two for each (R193,
R234). -/
theorem CandidateValid.length_bytes_le {src : Nat → Byte} {n c : Nat} {cand : Candidate}
    (h : CandidateValid src n c cand) :
    (candidateBytes src c cand).length ≤ 2 * cand.length := by
  cases cand with
  | empty => exact Nat.le_refl 0
  | found kind len seq back =>
    obtain ⟨hlen, _⟩ := h
    have hpayload := length_payloadBytes_le src c kind back
    rw [candidateBytes, Candidate.length, List.length_append, length_headerBytes]
    split_ifs <;> omega

section Iteration
variable {e : Encoder} (h : e.Inv) (hscan : e.estate = .scan)
include h hscan

/-- Bytes put that leave no literal run pending, with the cursor moved where the caller says, keep the
invariant when COMP then holds at most two bytes for each source byte passed (R32, R234). -/
theorem Encoder.Inv.putAll {bs : List Byte} {cur : Nat} (hcur : cur ≤ e.n)
    (hlen : e.clen + bs.length ≤ 2 * cur) : Encoder.Inv { e.putAll bs with lit := [], cur := cur } := by
  rw [Encoder.putAll_eq]
  exact {
    srcWf := h.srcWf
    srcWithin := h.srcWithin
    compWf := Memory.wf_load _ bs h.compWf
    compWithin := Memory.within_load _ bs
      (Memory.within_mono h.compWithin (Nat.le_add_right _ _)) (Nat.le_refl _)
    cursor := hcur
    litCap := Nat.zero_le _
    litPassed := Nat.zero_le _
    litBytes := rfl
    size := by
      rw [Encoder.sizeInv_of_scan]
      · exact hlen
      · exact hscan }

theorem Encoder.Inv.flush : e.flush.Inv := by
  have hsize := (Encoder.sizeInv_of_scan hscan).mp h.size
  have hput := length_flushBytes_le e.lit
  have hpassed := h.litPassed
  have hflushed := h.putAll hscan (bs := flushBytes e.lit) h.cursor (by omega)
  rw [Encoder.flush_eq]
  rwa [Encoder.putAll_eq] at hflushed ⊢

/-- Until the run is full, a literal keeps the invariant (R225). -/
theorem Encoder.Inv.takeLiteral (hcur : e.cur < e.n) (hroom : e.lit.length ≠ 1023) :
    e.takeLiteral.Inv := by
  have hsize := (Encoder.sizeInv_of_scan hscan).mp h.size
  have hcap := h.litCap
  have hpassed := h.litPassed
  have hlen : e.takeLiteral.lit.length = e.lit.length + 1 := by simp
  have hstart : e.cur + 1 - (e.lit.length + 1) = e.cur - e.lit.length := by omega
  have hnext : e.cur - e.lit.length + e.lit.length = e.cur := by omega
  refine { h with cursor := hcur, litCap := ?_, litPassed := ?_, litBytes := ?_, size := ?_ }
  · omega
  · rw [hlen]
    exact Nat.succ_le_succ hpassed
  · rw [hlen, Encoder.takeLiteral_cur, hstart, Encoder.takeLiteral_src, Memory.slice_succ, hnext,
      ← h.litBytes]
    rfl
  · rw [Encoder.sizeInv_of_scan (e := e.takeLiteral) hscan, hlen, Encoder.takeLiteral_cur, hstart]
    exact hsize

/-- A valid candidate put with no run pending keeps the invariant (R226, R230). -/
theorem Encoder.Inv.emitBest (hlit : e.lit = [])
    (hvalid : CandidateValid e.src.read e.n e.cur e.best) (hlen : e.best.length ≠ 0) :
    e.emitBest.skipBest.Inv := by
  have hsize := (Encoder.sizeInv_of_scan hscan).mp h.size
  rw [hlit, List.length_nil] at hsize
  have hput := hvalid.length_bytes_le
  obtain ⟨_, hlim, _⟩ := hvalid.payload hlen
  have hcursor := h.cursor
  have hemitted := h.putAll hscan (bs := candidateBytes e.src.read e.cur e.best)
    (cur := e.cur + e.best.length) (by omega) (by omega)
  rw [Encoder.emitBest]
  rw [Encoder.putAll_eq] at hemitted ⊢
  simpa only [Encoder.skipBest, hlit] using hemitted

theorem Encoder.Inv.iterate_of_room (hcur : e.cur < e.n) (hroom : e.lit.length ≠ 1023) :
    e.iterate.Inv := by
  have hselected : e.evaluate.select.Inv := { h with }
  rw [Encoder.iterate_of_room hroom, Encoder.commit]
  split_ifs with hlen
  · exact hselected.takeLiteral hscan hcur hroom
  · have hvalid := selectBest_valid e.src.read e.n e.cur
    exact (hselected.flush hscan).emitBest (by simpa using hscan) (Encoder.flush_lit _)
      (by simpa using hvalid) (by simpa using hlen)

/-- Every iteration keeps the invariant: a full run is flushed first (R222). -/
theorem Encoder.Inv.iterate (hcur : e.cur < e.n) : e.iterate.Inv := by
  by_cases hfull : e.lit.length = 1023
  · rw [Encoder.iterate_of_full hfull]
    exact (h.flush hscan).iterate_of_room (by simpa using hscan) (by simpa using hcur) (by simp)
  · exact h.iterate_of_room hscan hcur hfull

/-- At the end of input the size bound grows by the terminator, which is the last byte (R227,
R234). -/
theorem Encoder.Inv.finish (hcur : e.cur = e.n) : e.finish.Inv := by
  have hflush := h.flush hscan
  have hsize := (Encoder.sizeInv_of_scan (by simpa using hscan)).mp hflush.size
  rw [Encoder.flush_lit, Encoder.flush_cur, hcur, List.length_nil, Nat.sub_zero] at hsize
  refine { hflush with compWf := ?_, compWithin := ?_, size := ?_ }
  · rw [Encoder.finish_comp]
    exact Memory.wf_write _ _ hflush.compWf
  · rw [Encoder.finish_comp, Encoder.finish_clen]
    exact Memory.within_append _ hflush.compWithin
  · simpa [Encoder.SizeInv, hcur] using hsize

end Iteration

theorem Encoder.Inv.move {e : Encoder} (h : e.Inv) : e.move.Inv := by
  unfold Encoder.move
  split
  · next hscan =>
    split_ifs with hcur
    · exact h.iterate hscan hcur
    · exact h.finish hscan (Nat.le_antisymm h.cursor (Nat.le_of_not_lt hcur))
  · exact h
  · exact h

theorem Encoder.start_inv (source : List Byte) (draws : Nat) : (Encoder.start source draws).Inv where
  srcWf := Memory.wf_ofBytes source
  srcWithin := Memory.within_ofBytes source
  compWf := Memory.wf_nil
  compWithin := Memory.within_nil 0
  cursor := Nat.zero_le _
  litCap := Nat.zero_le _
  litPassed := Nat.zero_le _
  litBytes := rfl
  size := Nat.zero_le _

theorem Encoder.reset_inv : Encoder.reset.Inv where
  srcWf := Memory.wf_nil
  srcWithin := Memory.within_nil 0
  compWf := Memory.wf_nil
  compWithin := Memory.within_nil 0
  cursor := Nat.le_refl 0
  litCap := Nat.zero_le _
  litPassed := Nat.zero_le _
  litBytes := rfl
  size := Nat.zero_le _

end Sys2Proof.Machine

/-! ### The invariant of the block -/

namespace Sys2Proof.Machine

theorem State.Inv.begin {s : State} (h : s.Inv) (c : HostCommand) : (s.begin c).Inv := by
  obtain ⟨hdec, henc⟩ := h
  cases c with
  | startDecode bs cap => exact ⟨Decoder.start_inv bs cap s.draws, henc⟩
  | startEncode source => exact ⟨hdec, Encoder.start_inv source s.draws⟩

/-- Settles O42: a step starts a call, refuses one, moves one engine or does nothing, and each keeps
both engines' invariants. -/
theorem stepKeepsInvariant : Obligations.StepKeepsInvariant := by
  intro s t h hstep
  obtain ⟨hdec, henc⟩ := h
  have hpop : s.popStart.Inv := ⟨hdec, henc⟩
  rcases step_cases hstep with ⟨c, _, _, rfl⟩ | ⟨_, _, _, rfl⟩ | ⟨_, _, rfl⟩ | ⟨_, _, rfl⟩ |
    ⟨_, _, rfl⟩
  · exact hpop.begin c
  · exact hpop
  · exact ⟨hdec.move, henc⟩
  · exact ⟨hdec, henc.move⟩
  · exact ⟨hdec, henc⟩

/-- Settles O41: both engines meet their invariants at reset. -/
theorem resetMeetsInvariant : Obligations.ResetMeetsInvariant :=
  ⟨Decoder.reset_inv, Encoder.reset_inv⟩

end Sys2Proof.Machine

/-! ### Starts, and the operands of a running call -/

namespace Sys2Proof.Machine

/-- The oldest pending start, once its engine runs no call, is what the step gives (R36, R38, R40). -/
theorem step_of_admitted {s : State} {c : HostCommand} {rest : List HostCommand}
    (hhost : s.host = c :: rest) (hfree : s.admits c = true) : step s = .next (s.hostMove c) := by
  have hready : s.readyCommand = some c := by simp [State.readyCommand, hhost, hfree]
  simp only [step, hready]

theorem State.hostMove_of_fits {s : State} {c : HostCommand} (h : c.fits = true) :
    s.hostMove c = s.popStart.begin c := if_pos h

/-- A start too large is taken off the list and recorded, and that is all (R80). -/
theorem State.hostMove_of_not_fits {s : State} {c : HostCommand} {rest : List HostCommand}
    (hhost : s.host = c :: rest) (h : ¬c.fits = true) :
    s.hostMove c = { s with host := rest, refused := s.refused ++ [c] } := by
  rw [State.hostMove, if_neg h]
  simp [State.refuseStart, State.popStart, hhost]

/-- Settles O9: the stream written from address 0 reads back as given. -/
theorem decodeStartLoadsCall : Obligations.DecodeStartLoadsCall := by
  intro s bs m rest hhost hbusy
  rw [step_of_admitted hhost (by simp [State.admits, hbusy])]
  split_ifs with hfits
  · rw [State.hostMove_of_fits hfits]
    exact ⟨_, rfl, rfl, rfl, rfl, rfl, rfl, Memory.slice_ofBytes bs, rfl, rfl, rfl, rfl,
      congrArg List.tail hhost, rfl⟩
  · rw [State.hostMove_of_not_fits hhost hfits]

/-- Settles O10: the source written from address 0 reads back as given. -/
theorem encodeStartLoadsCall : Obligations.EncodeStartLoadsCall := by
  intro s bs rest hhost hbusy
  rw [step_of_admitted hhost (by simp [State.admits, hbusy])]
  split_ifs with hfits
  · rw [State.hostMove_of_fits hfits]
    exact ⟨_, rfl, rfl, rfl, rfl, rfl, rfl, Memory.slice_ofBytes bs, rfl,
      congrArg List.tail hhost, rfl⟩
  · rw [State.hostMove_of_not_fits hhost hfits]

/-- What the Host supplied for a decode call: stream, length and cap (R22, R25). -/
def Decoder.operands (d : Decoder) : Memory × Nat × Nat :=
  (d.stream, d.slen, d.maxOut)

/-- What the Host supplied for an encode call: source and length (R29). -/
def Encoder.operands (e : Encoder) : Memory × Nat :=
  (e.src, e.n)

theorem Decoder.operands_kept (ops : Memory × Nat × Nat) :
    Decoder.Kept fun d => d.operands = ops where
  header _ _ _ h := h
  clear _ h := h
  value _ _ h := h
  lo _ _ h := h
  hi _ _ h := h
  copy _ _ _ h := h
  advance _ h _ := h
  append _ _ h _ := h

theorem Decoder.EndsFrom.operands {d d' : Decoder} (h : d.EndsFrom d') :
    d'.operands = d.operands := by cases h <;> rfl

@[simp] theorem Decoder.move_operands (d : Decoder) : d.move.operands = d.operands := by
  cases hbusy : d.busy with
  | false => rw [Decoder.move_of_not_busy hbusy]
  | true =>
    obtain ⟨d', hkept, hends⟩ := Decoder.move_ends (Decoder.operands_kept d.operands) rfl
      (fun _ _ _ _ => rfl) hbusy
    rw [hends.operands, hkept]

@[simp] theorem Encoder.flush_operands (e : Encoder) : e.flush.operands = e.operands := by
  simp [Encoder.operands]

@[simp] theorem Encoder.emitBest_operands (e : Encoder) : e.emitBest.operands = e.operands := by
  rw [Encoder.emitBest, Encoder.putAll_eq]
  rfl

theorem Encoder.commit_operands (e : Encoder) : e.commit.operands = e.operands := by
  unfold Encoder.commit
  split_ifs
  · rfl
  · exact (Encoder.emitBest_operands _).trans (Encoder.flush_operands _)

@[simp] theorem Encoder.iterate_operands (e : Encoder) : e.iterate.operands = e.operands := by
  have hcap : e.capFlush.operands = e.operands := by
    unfold Encoder.capFlush
    split_ifs
    · exact Encoder.flush_operands e
    · rfl
  exact (Encoder.commit_operands _).trans hcap

@[simp] theorem Encoder.move_operands (e : Encoder) : e.move.operands = e.operands := by
  unfold Encoder.move
  split
  · split_ifs
    · exact Encoder.iterate_operands e
    · exact Encoder.flush_operands e
  · rfl
  · rfl

/-- A start that waits for its engine stays on the list, with those behind it (R40). -/
theorem step_keeps_waiting {s t : State} {c : HostCommand} {rest : List HostCommand}
    (hstep : step s = .next t) (hhost : s.host = c :: rest) (hwaits : s.admits c = false) :
    t.host = s.host := by
  have hready : s.readyCommand = none := by simp [State.readyCommand, hhost, hwaits]
  rcases step_cases hstep with ⟨_, h, _⟩ | ⟨_, h, _⟩ | ⟨_, _, rfl⟩ | ⟨_, _, rfl⟩ | ⟨_, _, rfl⟩
  · simp [hready] at h
  · simp [hready] at h
  · rfl
  · rfl
  · rfl

/-- What a step does to the Decoder: a decode start, nothing, or a move (R20, R21). -/
theorem step_dec_cases {s t : State} (hstep : step s = .next t) :
    (s.dec.busy = false ∧ ∃ bs m, s.readyCommand = some (.startDecode bs m) ∧
      t.dec = Decoder.start bs m s.draws) ∨
    t.dec = s.dec ∨ t.dec = s.dec.move := by
  rcases step_cases hstep with ⟨c, hready, _, rfl⟩ | ⟨_, _, _, rfl⟩ | ⟨_, _, rfl⟩ | ⟨_, _, rfl⟩ |
    ⟨_, _, rfl⟩
  · cases c with
    | startDecode bs m =>
      obtain ⟨_, hfree⟩ := State.readyCommand_some hready
      exact .inl ⟨by simpa [State.admits] using hfree, bs, m, hready, rfl⟩
    | startEncode source => exact .inr (.inl rfl)
  · exact .inr (.inl rfl)
  · exact .inr (.inr rfl)
  · exact .inr (.inl rfl)
  · exact .inr (.inl rfl)

/-- What a step does to the Encoder: an encode start, nothing, or a move (R20, R21). -/
theorem step_enc_cases {s t : State} (hstep : step s = .next t) :
    (s.enc.busy = false ∧ ∃ source, t.enc = Encoder.start source s.draws) ∨
    t.enc = s.enc ∨ t.enc = s.enc.move := by
  rcases step_cases hstep with ⟨c, hready, _, rfl⟩ | ⟨_, _, _, rfl⟩ | ⟨_, _, rfl⟩ | ⟨_, _, rfl⟩ |
    ⟨_, _, rfl⟩
  · cases c with
    | startDecode bs m => exact .inr (.inl rfl)
    | startEncode source =>
      obtain ⟨_, hfree⟩ := State.readyCommand_some hready
      exact .inl ⟨by simpa [State.admits] using hfree, source, rfl⟩
  · exact .inr (.inl rfl)
  · exact .inr (.inl rfl)
  · exact .inr (.inr rfl)
  · exact .inr (.inl rfl)

theorem step_keeps_decoder_operands {s t : State} (hstep : step s = .next t)
    (hbusy : s.dec.busy = true) : t.dec.operands = s.dec.operands := by
  rcases step_dec_cases hstep with ⟨hfree, _⟩ | hsame | hmove
  · simp [hbusy] at hfree
  · rw [hsame]
  · rw [hmove, Decoder.move_operands]

theorem step_keeps_encoder_operands {s t : State} (hstep : step s = .next t)
    (hbusy : s.enc.busy = true) : t.enc.operands = s.enc.operands := by
  rcases step_enc_cases hstep with ⟨hfree, _⟩ | hsame | hmove
  · simp [hbusy] at hfree
  · rw [hsame]
  · rw [hmove, Encoder.move_operands]

/-- Settles O11: no move changes an engine's operands, and a start of a busy engine waits. -/
theorem runningCallKeepsItsOperands : Obligations.RunningCallKeepsItsOperands := by
  intro s t hstep
  refine ⟨fun hbusy => ?_, fun hbusy => ?_⟩
  · obtain ⟨hstream, hsizes⟩ := Prod.mk.inj (step_keeps_decoder_operands hstep hbusy)
    obtain ⟨hslen, hcap⟩ := Prod.mk.inj hsizes
    exact ⟨hstream, hslen, hcap, fun _ _ _ hhost =>
      step_keeps_waiting hstep hhost (by simp [State.admits, hbusy])⟩
  · obtain ⟨hsrc, hn⟩ := Prod.mk.inj (step_keeps_encoder_operands hstep hbusy)
    exact ⟨hsrc, hn, fun _ _ hhost =>
      step_keeps_waiting hstep hhost (by simp [State.admits, hbusy])⟩

/-- Settles O16: with no call running the Decoder's move does nothing. -/
theorem endedDecoderIsHeld : Obligations.EndedDecoderIsHeld := by
  intro s t hstep hbusy
  rcases step_dec_cases hstep with ⟨_, hstart⟩ | hsame | hmove
  · exact .inr hstart
  · exact .inl hsame
  · exact .inl (hmove.trans (Decoder.move_of_not_busy hbusy))

/-! ### Noninterference of the engines -/

/-- Settles O47: the Decoder's move is a function of the Decoder. -/
theorem decoderDependsOnItselfAlone : Obligations.DecoderDependsOnItselfAlone := by
  intro s s' t hdec hmove
  rw [decoderMove_eq] at hmove
  obtain rfl := Host.Outcome.next.inj hmove
  exact ⟨_, decoderMove_eq s', congrArg Decoder.move hdec.symm⟩

/-- Settles O46: each engine's move is a function of that engine. -/
theorem enginesCommute : Obligations.EnginesCommute := by
  intro s t u ht hu
  rw [decoderMove_eq] at ht hu
  obtain rfl := Host.Outcome.next.inj ht
  obtain rfl := Host.Outcome.next.inj hu
  exact ⟨rfl, rfl, rfl, rfl⟩

/-! ### What a command leaves alone -/

/-- Settles O38: a command is a Decoder function on the whole state. -/
theorem commandsTouchOnlyTheDecoder : Obligations.CommandsTouchOnlyTheDecoder := by
  intro i s t hexec
  obtain rfl := exec_next hexec
  exact ⟨rfl, rfl, rfl, rfl, rfl⟩

/-- How the Decoder of a call stands to an earlier one of the same call, with the same first header
byte: stream, sizes and `h0` are the same, and OUT differs by bytes appended (R24, R61). -/
structure Decoder.Extends (d d' : Decoder) : Prop where
  operands : d'.operands = d.operands
  h0 : d'.h0 = d.h0
  sp : d.sp ≤ d'.sp
  olen : d.olen ≤ d'.olen
  out : ∀ a, a < d.olen ∨ d'.olen ≤ a → d'.out.read a = d.out.read a

theorem Decoder.Extends.refl (d : Decoder) : d.Extends d :=
  ⟨rfl, rfl, Nat.le_refl _, Nat.le_refl _, fun _ _ => rfl⟩

theorem Decoder.extends_kept (d : Decoder) : Decoder.Kept d.Extends where
  header _ _ _ h := { h with }
  clear _ h := { h with }
  value _ _ h := { h with }
  lo _ _ h := { h with }
  hi _ _ h := { h with }
  copy _ _ _ h := { h with }
  advance _ h _ := { h with sp := Nat.le_succ_of_le h.sp }
  append d' b h _ := by
    have holen := h.olen
    refine { h with olen := Nat.le_succ_of_le h.olen, out := fun a ha => ?_ }
    simp only [Decoder.countByte_olen, Decoder.emit_olen] at ha
    rw [Decoder.countByte_out, Decoder.emit_out, Memory.read_write_other _ _ (by omega)]
    exact h.out a (by omega)

theorem Decoder.Extends.of_ends {d d' d'' : Decoder} (h : d.Extends d') (hends : d'.EndsFrom d'') :
    d.Extends d'' := by
  cases hends <;> exact { h with }

theorem Decoder.runInstr_extends (i : Instr) (d : Decoder) : d.Extends (d.runInstr i) := by
  obtain ⟨d', hextends, hends⟩ := Decoder.runInstr_ends d.extends_kept i (.refl d)
  exact hextends.of_ends hends

/-- Settles O37: the Decoder a command leaves extends the one it started from. -/
theorem commandsOnlyAppend : Obligations.CommandsOnlyAppend := by
  intro i s t hexec
  obtain rfl := exec_next hexec
  obtain ⟨hoperands, hh0, hsp, holen, hout⟩ := Decoder.runInstr_extends i s.dec
  obtain ⟨hstream, hsizes⟩ := Prod.mk.inj hoperands
  obtain ⟨hslen, hcap⟩ := Prod.mk.inj hsizes
  exact ⟨hstream, hslen, hcap, hh0, hsp, holen, hout⟩

/-- DSTATUS as three fields (R28). -/
def Decoder.dstatus (d : Decoder) : Option StopReason × Option Cause × Option Int :=
  (d.stop, d.cause, d.info)

theorem Decoder.dstatus_kept (status : Option StopReason × Option Cause × Option Int) :
    Decoder.Kept fun d => d.dstatus = status where
  header _ _ _ h := h
  clear _ h := h
  value _ _ h := h
  lo _ _ h := h
  hi _ _ h := h
  copy _ _ _ h := h
  advance _ h _ := h
  append _ _ h _ := h

/-- The end of a command writes the control state, `stop` on the way to `Done`, and `cause` and `info`
on the way to `Fault` (R28, R129, R256). -/
theorem Decoder.EndsFrom.status {d d' : Decoder} (h : d.EndsFrom d') :
    (d'.dstate = .readHeader ∨ d'.dstate = .done ∨ d'.dstate = .fault) ∧
    (d'.dstate ≠ .done → d'.stop = d.stop) ∧
    (d'.dstate ≠ .fault → d'.cause = d.cause ∧ d'.info = d.info) := by
  cases h <;> simp

/-- Settles O40: up to its end a command leaves DSTATUS alone. -/
theorem statusFrame : Obligations.StatusFrame := by
  intro i s t hexec
  obtain rfl := exec_next hexec
  obtain ⟨d', hstatus, hends⟩ := Decoder.runInstr_ends (Decoder.dstatus_kept s.dec.dstatus) i rfl
  obtain ⟨hstop, hfault⟩ := Prod.mk.inj hstatus
  obtain ⟨hcause, hinfo⟩ := Prod.mk.inj hfault
  rw [← hstop, ← hcause, ← hinfo]
  exact hends.status

/-! ### Latches -/

/-- Something read off the Decoder that no command changes but by the latches of its own operands:
not by its header, its count, a byte read or appended, or its end. -/
structure Decoder.Untouched {α : Type} (f : Decoder → α) : Prop where
  header : ∀ d t n, f (Decoder.latchHeader d t n) = f d
  clear : ∀ d, f (Decoder.clearCount d) = f d
  advance : ∀ d, f (Decoder.advance d) = f d
  append : ∀ d b, f (Decoder.countByte (Decoder.emit d b)) = f d
  ends : ∀ {d d'}, Decoder.EndsFrom d d' → f d' = f d

section Latches
variable {α : Type} {f : Decoder → α} (hf : Decoder.Untouched f)
include hf

theorem Decoder.Untouched.copyAll (d : Decoder) : f d.copyAll = f d := by
  obtain ⟨d', hsame, hcases⟩ := Decoder.byteLoop_cases (P := fun d' => f d' = f d)
    (fun d' b h _ => (hf.append d' b).trans h)
    (fun d' b h _ _ => (hf.append _ b).trans ((hf.advance d').trans h)) d.len d rfl
  rw [← hsame, Decoder.copyAll]
  rcases hcases with hloop | ⟨hcap, hloop⟩ | ⟨_, c, i, hloop⟩ <;> rw [hloop]
  · exact hf.ends .complete
  · exact hf.ends (.cap hcap)
  · exact hf.ends (.raise c i)

theorem Decoder.Untouched.fetchByte {next : Byte → Decoder → Decoder}
    (hnext : ∀ b d, f (next b d) = f d) (d : Decoder) : f (d.fetchByte next) = f d := by
  unfold Decoder.fetchByte
  split_ifs
  · rw [hnext, hf.advance]
  · exact hf.ends (.raise _ _)

theorem Decoder.Untouched.begin (d : Decoder) (t : Kind) (n : Nat) :
    f (d.latchHeader t n).clearCount = f d :=
  (hf.clear _).trans (hf.header d t n)

variable {d : Decoder} {i : Instr} {len : Nat}

theorem Decoder.Untouched.run_literal (hi : i = .directCopy len ∨ i = .directCopyX len) :
    f (d.runInstr i) = f d := by
  have hrun : f (d.latchHeader .directCopy len).runDirectCopy = f d :=
    (hf.copyAll _).trans (hf.begin d _ len)
  rcases hi with rfl | rfl <;> exact hrun

theorem Decoder.Untouched.run_value (hvalue : ∀ d b, f (Decoder.latchValue d b) = f d)
    (hi : i = .byteFill len ∨ i = .byteFillX len ∨ i = .sigmaFill len ∨ i = .sigmaFillX len) :
    f (d.runInstr i) = f d := by
  have hrun : ∀ t, f ((d.latchHeader t len).clearCount.fetchValue Decoder.copyAll) = f d := fun t =>
    (hf.fetchByte (fun b d => (hf.copyAll _).trans (hvalue d b)) _).trans (hf.begin d t len)
  rcases hi with rfl | rfl | rfl | rfl <;> exact hrun _

theorem Decoder.Untouched.run_pair (hlo : ∀ d b, f (Decoder.latchLo d b) = f d)
    (hhi : ∀ d b, f (Decoder.latchHi d b) = f d) (hi : i = .wordFill len ∨ i = .wordFillX len) :
    f (d.runInstr i) = f d := by
  have hrun : f (d.latchHeader .wordFill len).runWordFill = f d :=
    (hf.fetchByte (fun b d => (hf.fetchByte (fun b d => (hf.copyAll _).trans (hhi d b)) _).trans
      (hlo d b)) _).trans (hf.begin d _ len)
  rcases hi with rfl | rfl <;> exact hrun

theorem Decoder.Untouched.run_copy (hcopy : ∀ d start xm, f (Decoder.latchCopy d start xm) = f d)
    (hi : i = .libraryCopy len ∨ i = .libraryCopyX len ∨ i = .xorCopy len ∨ i = .xorCopyX len ∨
      i = .minusCopy len ∨ i = .minusCopyX len) :
    f (d.runInstr i) = f d := by
  have hoffset : ∀ t xm, f ((d.latchHeader t len).clearCount.fetchOffset xm Decoder.copyAll) = f d :=
    fun t xm => (hf.fetchByte (fun _ d => hf.fetchByte
      (fun _ d => (hf.copyAll _).trans (hcopy d _ _)) d) _).trans (hf.begin d t len)
  have hdistance : f (d.latchHeader .minusCopy len).runMinusCopy = f d :=
    (hf.fetchByte (fun _ d => (hf.copyAll _).trans (hcopy d _ _)) _).trans (hf.begin d _ len)
  rcases hi with rfl | rfl | rfl | rfl | rfl | rfl
  · exact hoffset _ _
  · exact hoffset _ _
  · exact hoffset _ _
  · exact hoffset _ _
  · exact hdistance
  · exact hdistance

end Latches

/-- The latches of a WordFill (R27). -/
def Decoder.pairLatches (d : Decoder) : Byte × Byte :=
  (d.lo, d.hi)

/-- The latches of a copy (R27). -/
def Decoder.copyLatches (d : Decoder) : Int × Byte :=
  (d.base, d.xm)

theorem Decoder.v_untouched : Decoder.Untouched Decoder.v where
  header _ _ _ := rfl
  clear _ := rfl
  advance _ := rfl
  append _ _ := rfl
  ends h := by cases h <;> rfl

theorem Decoder.pairLatches_untouched : Decoder.Untouched Decoder.pairLatches where
  header _ _ _ := rfl
  clear _ := rfl
  advance _ := rfl
  append _ _ := rfl
  ends h := by cases h <;> rfl

theorem Decoder.copyLatches_untouched : Decoder.Untouched Decoder.copyLatches where
  header _ _ _ := rfl
  clear _ := rfl
  advance _ := rfl
  append _ _ := rfl
  ends h := by cases h <;> rfl

/-- END and the reserved bytes write DSTATUS, the control state and the stream pointer only (R126,
R130). -/
theorem Decoder.runInstr_terminal {i : Instr}
    (hi : i = .endOfStream ∨ i = .reservedFC ∨ i = .reservedFD ∨ i = .reservedFE) (d : Decoder) :
    ∃ sp dstate stop cause info, d.runInstr i =
      { d with sp := sp, dstate := dstate, stop := stop, cause := cause, info := info } := by
  have hreserved : ∀ h0, ∃ sp dstate stop cause info, d.runReserved h0 =
      { d with sp := sp, dstate := dstate, stop := stop, cause := cause, info := info } := by
    intro h0
    unfold Decoder.runReserved Decoder.fetchByte
    split_ifs
    · exact ⟨_, _, _, _, _, rfl⟩
    · exact ⟨_, _, _, _, _, rfl⟩
  rcases hi with rfl | rfl | rfl | rfl
  · exact ⟨_, _, _, _, _, rfl⟩
  · exact hreserved _
  · exact hreserved _
  · exact hreserved _

/-- Settles O39: each kind writes the latches of its own operands. -/
theorem latchFrame : Obligations.LatchFrame := by
  intro i s t len hexec
  obtain rfl := exec_next hexec
  have hv := Decoder.v_untouched
  have hpair := Decoder.pairLatches_untouched
  have hcopy := Decoder.copyLatches_untouched
  refine ⟨fun hi => ?_, fun hi => ?_, fun hi => ?_, fun hi => ?_, fun hi => ?_⟩
  · obtain ⟨hlo, hhi⟩ := Prod.mk.inj (hpair.run_literal (d := s.dec) hi)
    obtain ⟨hbase, hxm⟩ := Prod.mk.inj (hcopy.run_literal (d := s.dec) hi)
    exact ⟨hv.run_literal hi, hlo, hhi, hbase, hxm⟩
  · obtain ⟨hlo, hhi⟩ := Prod.mk.inj (hpair.run_value (d := s.dec) (fun _ _ => rfl) hi)
    obtain ⟨hbase, hxm⟩ := Prod.mk.inj (hcopy.run_value (d := s.dec) (fun _ _ => rfl) hi)
    exact ⟨hlo, hhi, hbase, hxm⟩
  · obtain ⟨hbase, hxm⟩ :=
      Prod.mk.inj (hcopy.run_pair (d := s.dec) (fun _ _ => rfl) (fun _ _ => rfl) hi)
    exact ⟨hv.run_pair (fun _ _ => rfl) (fun _ _ => rfl) hi, hbase, hxm⟩
  · obtain ⟨hlo, hhi⟩ := Prod.mk.inj (hpair.run_copy (d := s.dec) (fun _ _ _ => rfl) hi)
    exact ⟨hv.run_copy (fun _ _ _ => rfl) hi, hlo, hhi⟩
  · obtain ⟨_, _, _, _, _, hrun⟩ := Decoder.runInstr_terminal hi s.dec
    dsimp only
    rw [hrun]
    exact ⟨rfl, rfl, rfl, rfl, rfl, rfl, rfl, rfl, rfl, rfl⟩

end Sys2Proof.Machine

/-! ### Refusals -/

namespace Sys2Proof.Machine

/-- A start that is given refuses nothing (R80). -/
@[simp] theorem State.begin_refused (s : State) (c : HostCommand) :
    (s.begin c).refused = s.refused := by
  cases c with
  | startDecode bs m => exact State.startDecode_refused s bs m
  | startEncode source => exact State.startEncode_refused s source

/-- Settles O17: of what a step can do, only the move of a ready start that does not fit changes the
refused list. -/
theorem onlyTooLargeCallsAreRefused : Obligations.OnlyTooLargeCallsAreRefused := by
  intro s
  obtain ⟨t, hstep⟩ := step_total s
  refine ⟨t, hstep, ?_⟩
  rcases step_cases hstep with ⟨c, hready, hfits, rfl⟩ | ⟨c, hready, hfits, rfl⟩ |
    ⟨hready, _, rfl⟩ | ⟨hready, _, rfl⟩ | ⟨hready, _, rfl⟩
  · simp [hready, hfits]
  · simp [hready, hfits, State.popStart, State.refuseStart]
  · simp [hready]
  · simp [hready]
  · simp [hready]

end Sys2Proof.Machine

/-! ### Every first byte, by its fields (R95, R96) -/

namespace Sys2Proof

/-- The format N byte of a kind and a 5-bit value (R91). -/
abbrev normalByte (kind : Kind) (val : BitVec 5) : Byte :=
  (kind.tag ++ val : BitVec (3 + 5))

/-- The first format X byte of a kind and the two high bits of the value (R92). -/
abbrev extendedByte (kind : Kind) (high : BitVec 2) : Byte :=
  ((0b111 : BitVec 3) ++ kind.tag ++ high : BitVec (3 + 3 + 2))

theorem normalByte_toNat (kind : Kind) (val : BitVec 5) :
    (normalByte kind val).toNat = 32 * kind.tag.toNat + val.toNat := by
  rw [toNat_append', Nat.mul_comm]
  rfl

theorem extendedByte_toNat (kind : Kind) (high : BitVec 2) :
    (extendedByte kind high).toNat = 0xE0 + 4 * kind.tag.toNat + high.toNat := by
  have hescape : (0b111 : BitVec 3).toNat = 7 := rfl
  rw [toNat_append', toNat_append', hescape]
  omega

/-- The format N byte by its number (R96). -/
theorem normalByte_eq_ofNat (kind : Kind) (val : BitVec 5) :
    normalByte kind val = BitVec.ofNat 8 (32 * kind.tag.toNat + val.toNat) := by
  rw [← normalByte_toNat, BitVec.ofNat_toNat, BitVec.setWidth_eq]

/-- The first format X byte by its number (R96). -/
theorem extendedByte_eq_ofNat (kind : Kind) (high : BitVec 2) :
    extendedByte kind high = BitVec.ofNat 8 (0xE0 + 4 * kind.tag.toNat + high.toNat) := by
  rw [← extendedByte_toNat, BitVec.ofNat_toNat, BitVec.setWidth_eq]

/-- 7 is no kind's tag (R3). -/
theorem Kind.tag_le (kind : Kind) : kind.tag.toNat ≤ 6 := by cases kind <;> decide

theorem normalByte_lt (kind : Kind) (val : BitVec 5) : (normalByte kind val).toNat < 0xE0 := by
  rw [normalByte_toNat]
  have := kind.tag_le
  omega

theorem extendedByte_bounds (kind : Kind) (high : BitVec 2) :
    0xE0 ≤ (extendedByte kind high).toNat ∧ (extendedByte kind high).toNat ≤ 0xFB := by
  rw [extendedByte_toNat]
  have := kind.tag_le
  omega

/-- The rows of the first-byte map, one constructor per format and reserved byte (R96). -/
inductive FirstByte : Byte → Prop where
  | normal (kind : Kind) (val : BitVec 5) : FirstByte (normalByte kind val)
  | extended (kind : Kind) (high : BitVec 2) : FirstByte (extendedByte kind high)
  | reservedFC : FirstByte 0xFC
  | reservedFD : FirstByte 0xFD
  | reservedFE : FirstByte 0xFE
  | terminator : FirstByte 0xFF

theorem byte_eq_append_fields (b : Byte) :
    b = (b.extractLsb' 5 3 ++ b.extractLsb' 0 5 : BitVec (3 + 5)) := by
  revert b; decide

theorem byte_eq_append_extended_fields (b : Byte) :
    b = (b.extractLsb' 5 3 ++ b.extractLsb' 2 3 ++ b.extractLsb' 0 2 : BitVec (3 + 3 + 2)) := by
  revert b; decide

/-- With 7 in both tag fields only the two low bits are left (R93, R101). -/
theorem firstByte_of_both_tags_seven (low : BitVec 2) :
    FirstByte ((7 : BitVec 3) ++ (7 : BitVec 3) ++ low : BitVec (3 + 3 + 2)) := by
  have hlow : low = 0 ∨ low = 1 ∨ low = 2 ∨ low = 3 := by revert low; decide
  rcases hlow with rfl | rfl | rfl | rfl
  · exact .reservedFC
  · exact .reservedFD
  · exact .reservedFE
  · exact .terminator

/-- The map is complete: every byte is in one of its rows (R96). -/
theorem firstByte_complete (h0 : Byte) : FirstByte h0 := by
  have hnormal := byte_eq_append_fields h0
  have hextended := byte_eq_append_extended_fields h0
  cases htag : Kind.ofTag (h0.extractLsb' 5 3) with
  | some kind =>
    rw [← Kind.ofTag_eq_some htag] at hnormal
    rw [hnormal]
    exact .normal kind _
  | none =>
    rw [Kind.ofTag_eq_none.mp htag] at hextended
    cases hext : Kind.ofTag (h0.extractLsb' 2 3) with
    | some kind =>
      rw [← Kind.ofTag_eq_some hext] at hextended
      rw [hextended]
      exact .extended kind _
    | none =>
      rw [Kind.ofTag_eq_none.mp hext] at hextended
      rw [hextended]
      exact firstByte_of_both_tags_seven _

/-! #### What the decoder answers in each row -/

@[simp] theorem decode_normalByte (kind : Kind) (val : BitVec 5) (rest : List Byte) :
    decode (normalByte kind val :: rest) = .ok (normalInstr kind (val.toNat + 1), rest) := by
  obtain ⟨hend, htag, hval⟩ := normalByte_fields kind val
  simp only [decode, if_neg hend, htag, Kind.ofTag_tag, hval]

/-- A first byte of format X hands the rest on to the extension (R95, R125). -/
theorem decode_extendedByte (kind : Kind) (high : BitVec 2) (bs : List Byte) :
    decode (extendedByte kind high :: bs) = decodeExtended (extendedByte kind high) bs := by
  obtain ⟨hend, hescape, -, -⟩ := extendedFirst_fields kind high
  have hnone : Kind.ofTag 7 = none := rfl
  simp only [decode, if_neg hend, hescape, hnone]

@[simp] theorem decode_extendedByte_cons (kind : Kind) (high : BitVec 2) (h1 : Byte)
    (rest : List Byte) :
    decode (extendedByte kind high :: h1 :: rest) =
      .ok (extendedInstr kind (256 * high.toNat + h1.toNat + 1), rest) := by
  obtain ⟨-, -, htag, hhigh⟩ := extendedFirst_fields kind high
  simp only [decode_extendedByte, decodeExtended, htag, Kind.ofTag_tag, hhigh]

@[simp] theorem decode_extendedByte_alone (kind : Kind) (high : BitVec 2) :
    decode [extendedByte kind high] = .error (.noExtension (extendedByte kind high)) := by
  obtain ⟨-, -, htag, -⟩ := extendedFirst_fields kind high
  simp only [decode_extendedByte, decodeExtended, htag, Kind.ofTag_tag]

@[simp] theorem decode_reservedFC (rest : List Byte) :
    decode (0xFC :: rest) = .ok (.reservedFC, rest) := rfl

@[simp] theorem decode_reservedFD (rest : List Byte) :
    decode (0xFD :: rest) = .ok (.reservedFD, rest) := rfl

@[simp] theorem decode_reservedFE (rest : List Byte) :
    decode (0xFE :: rest) = .ok (.reservedFE, rest) := rfl

@[simp] theorem decode_terminator (rest : List Byte) :
    decode (0xFF :: rest) = .ok (.endOfStream, rest) := rfl

/-! #### Commands by format, and their encodings -/

@[simp] theorem wellFormed_normalInstr (kind : Kind) (len : Nat) :
    WellFormed (normalInstr kind len) = normalLength len := by cases kind <;> rfl

@[simp] theorem wellFormed_extendedInstr (kind : Kind) (len : Nat) :
    WellFormed (extendedInstr kind len) = extendedLength len := by cases kind <;> rfl

/-- A command is of a kind in one of the two formats, a reserved one or END (R96). -/
theorem Instr.format_cases (i : Instr) :
    (∃ kind len, i = normalInstr kind len) ∨ (∃ kind len, i = extendedInstr kind len) ∨
    i = .reservedFC ∨ i = .reservedFD ∨ i = .reservedFE ∨ i = .endOfStream := by
  cases i
  case directCopy len => exact .inl ⟨.directCopy, len, rfl⟩
  case byteFill len => exact .inl ⟨.byteFill, len, rfl⟩
  case wordFill len => exact .inl ⟨.wordFill, len, rfl⟩
  case sigmaFill len => exact .inl ⟨.sigmaFill, len, rfl⟩
  case libraryCopy len => exact .inl ⟨.libraryCopy, len, rfl⟩
  case xorCopy len => exact .inl ⟨.xorCopy, len, rfl⟩
  case minusCopy len => exact .inl ⟨.minusCopy, len, rfl⟩
  case directCopyX len => exact .inr (.inl ⟨.directCopy, len, rfl⟩)
  case byteFillX len => exact .inr (.inl ⟨.byteFill, len, rfl⟩)
  case wordFillX len => exact .inr (.inl ⟨.wordFill, len, rfl⟩)
  case sigmaFillX len => exact .inr (.inl ⟨.sigmaFill, len, rfl⟩)
  case libraryCopyX len => exact .inr (.inl ⟨.libraryCopy, len, rfl⟩)
  case xorCopyX len => exact .inr (.inl ⟨.xorCopy, len, rfl⟩)
  case minusCopyX len => exact .inr (.inl ⟨.minusCopy, len, rfl⟩)
  case reservedFC => simp
  case reservedFD => simp
  case reservedFE => simp
  case endOfStream => simp

/-- Every 5-bit value is a length format N can carry (R91, R94). -/
theorem normalLength_toNat (val : BitVec 5) : normalLength (val.toNat + 1) = true := by
  simp only [normalLength, Bool.and_eq_true, decide_eq_true_eq]
  omega

/-- Every pair of high bits and extension byte is a length format X can carry (R92, R94). -/
theorem extendedLength_toNat (high : BitVec 2) (h1 : Byte) :
    extendedLength (256 * high.toNat + h1.toNat + 1) = true := by
  simp only [extendedLength, Bool.and_eq_true, decide_eq_true_eq]
  omega

theorem normalHeader_of_val (kind : Kind) (val : BitVec 5) :
    normalHeader kind (val.toNat + 1) = [normalByte kind val] := by
  rw [normalHeader, Nat.add_sub_cancel, BitVec.ofNat_toNat, BitVec.setWidth_eq]

theorem extendedHeader_of_val (kind : Kind) (high : BitVec 2) (h1 : Byte) :
    extendedHeader kind (256 * high.toNat + h1.toNat + 1) = [extendedByte kind high, h1] := by
  have hval : (BitVec.ofNat 10 (256 * high.toNat + h1.toNat)).toNat =
      256 * high.toNat + h1.toNat := by
    rw [BitVec.toNat_ofNat]; omega
  have hhigh : (BitVec.ofNat 10 (256 * high.toNat + h1.toNat)).extractLsb' 8 2 = high := by
    apply BitVec.eq_of_toNat_eq
    rw [BitVec.extractLsb'_toNat, hval, Nat.shiftRight_eq_div_pow]
    omega
  have hlow : (BitVec.ofNat 10 (256 * high.toNat + h1.toNat)).extractLsb' 0 8 = h1 := by
    apply BitVec.eq_of_toNat_eq
    rw [BitVec.extractLsb'_toNat, hval, Nat.shiftRight_eq_div_pow]
    omega
  rw [extendedHeader_eq, Nat.add_sub_cancel, hhigh, hlow]

/-! #### The statements about the encoding -/

/-- Settles O1: one lemma per format reads the fields back. -/
theorem headerRoundTrip : Obligations.HeaderRoundTrip := by
  intro i rest hwf
  rcases i.format_cases with ⟨kind, len, rfl⟩ | ⟨kind, len, rfl⟩ | rfl | rfl | rfl | rfl
  · rw [encode_normalInstr, decode_normalHeader kind (by simpa using hwf)]
  · rw [encode_extendedInstr, decode_extendedHeader kind (by simpa using hwf)]
  · exact decode_reservedFC rest
  · exact decode_reservedFD rest
  · exact decode_reservedFE rest
  · exact decode_terminator rest

/-- Settles O2: each row of the first-byte map answers a command whose header is that row's bytes. -/
theorem decodedHeaderIsItsEncoding : Obligations.DecodedHeaderIsItsEncoding := by
  intro bs rest i hdecode
  cases bs with
  | nil => cases hdecode
  | cons h0 bs =>
    cases firstByte_complete h0 with
    | normal kind val =>
      rw [decode_normalByte] at hdecode
      cases hdecode
      simp [normalLength_toNat, normalHeader_of_val]
    | extended kind high =>
      cases bs with
      | nil =>
        rw [decode_extendedByte_alone] at hdecode
        cases hdecode
      | cons h1 bs =>
        rw [decode_extendedByte_cons] at hdecode
        cases hdecode
        simp [extendedLength_toNat, extendedHeader_of_val]
    | reservedFC => cases hdecode; exact ⟨rfl, rfl⟩
    | reservedFD => cases hdecode; exact ⟨rfl, rfl⟩
    | reservedFE => cases hdecode; exact ⟨rfl, rfl⟩
    | terminator => cases hdecode; exact ⟨rfl, rfl⟩

/-- Settles O4: a number below the field's size is the value of the field. -/
theorem firstByteMap : Obligations.FirstByteMap := by
  refine ⟨fun kind v rest hv => ?_, fun kind hh h1 rest hhh => ?_, fun rest =>
    ⟨decode_reservedFC rest, decode_reservedFD rest, decode_reservedFE rest,
      decode_terminator rest⟩⟩
  · have hfield : (BitVec.ofNat 5 v).toNat = v := Nat.mod_eq_of_lt hv
    rw [← hfield, ← normalByte_eq_ofNat, decode_normalByte]
  · have hfield : (BitVec.ofNat 2 hh).toNat = hh := Nat.mod_eq_of_lt hhh
    rw [← hfield, ← extendedByte_eq_ofNat, decode_extendedByte_cons]

theorem decode_two_bytes (h0 h1 : Byte) (rest : List Byte) :
    ∃ i tail, decode (h0 :: h1 :: rest) = .ok (i, tail) := by
  cases firstByte_complete h0 with
  | normal kind val => exact ⟨_, _, decode_normalByte kind val _⟩
  | extended kind high => exact ⟨_, _, decode_extendedByte_cons kind high h1 rest⟩
  | reservedFC => exact ⟨_, _, decode_reservedFC _⟩
  | reservedFD => exact ⟨_, _, decode_reservedFD _⟩
  | reservedFE => exact ⟨_, _, decode_reservedFE _⟩
  | terminator => exact ⟨_, _, decode_terminator _⟩

/-- Settles O5: of the rows of the first-byte map only format X reads a second byte, and its numbers
are `0xE0` to `0xFB`. -/
theorem everyByteStringDecodes : Obligations.EveryByteStringDecodes := by
  refine ⟨decode_two_bytes, rfl, fun h0 => ?_⟩
  cases firstByte_complete h0 with
  | normal kind val =>
    have hlt := normalByte_lt kind val
    exact ⟨fun _ => ⟨_, decode_normalByte kind val []⟩, fun h => by omega⟩
  | extended kind high =>
    have hbounds := extendedByte_bounds kind high
    exact ⟨fun h => by omega, fun _ => decode_extendedByte_alone kind high⟩
  | reservedFC => exact ⟨fun _ => ⟨_, decode_reservedFC []⟩, by decide⟩
  | reservedFD => exact ⟨fun _ => ⟨_, decode_reservedFD []⟩, by decide⟩
  | reservedFE => exact ⟨fun _ => ⟨_, decode_reservedFE []⟩, by decide⟩
  | terminator => exact ⟨fun _ => ⟨_, decode_terminator []⟩, by decide⟩

/-- Settles O3: the sample bytes are closed terms, so the decoder is evaluated on each. -/
theorem sampleHeaderWords : Obligations.SampleHeaderWords :=
  ⟨rfl, rfl, rfl, rfl, rfl, rfl, rfl, rfl, rfl, rfl, rfl⟩

end Sys2Proof

/-! ### The emitted header (R105, R106) -/

namespace Sys2Proof.Machine

/-- Settles O6: the emitted bytes are the encoding of the canonical command. -/
theorem emittedHeaderIsCanonical : Obligations.EmittedHeaderIsCanonical :=
  fun kind _ _ hmax => headerBytes_eq_encode kind (by omega)

/-- Settles O7: the first byte of either format has a kind's tag in its tag field, and 7 is none. -/
theorem emittedHeaderNeverReserved : Obligations.EmittedHeaderNeverReserved := by
  intro kind len _ hmax
  by_cases hle : len ≤ 32
  · have hlt := normalByte_lt kind (BitVec.ofNat 5 (len - 1))
    rw [headerBytes_of_le hle]
    exact ⟨normalByte kind _, [], rfl, by omega⟩
  · rw [headerBytes_of_gt (by omega) (by omega), extendedHeader_eq]
    exact ⟨extendedByte kind _, _, rfl, (extendedByte_bounds kind _).2⟩

end Sys2Proof.Machine

/-! ### MinusCopy up to its end (R173) -/

namespace Sys2Proof.Machine

theorem Decoder.fetchDistance_of_lt {d : Decoder} (h : d.sp < d.slen) (next : Decoder → Decoder) :
    d.fetchDistance next =
      next (d.advance.latchCopy ((d.olen : Int) - (d.stream.read d.sp).toNat) 0) :=
  Decoder.fetchByte_of_lt h _

/-- Either format of MinusCopy, its distance byte read, is the copy from `olen − m`
(R100, R124, R125, R173). -/
theorem Decoder.runInstr_minusCopy {i : Instr} {len m : Nat}
    (hi : i = .minusCopy len ∨ i = .minusCopyX len) {d : Decoder} (hsp : d.sp < d.slen)
    (hm : m = (d.stream.read d.sp).toNat) :
    d.runInstr i = ((d.latchHeader .minusCopy len).clearCount.advance.latchCopy
      ((d.olen : Int) - m) 0).copyAll := by
  subst hm
  have hfetch := Decoder.fetchDistance_of_lt (d := (d.latchHeader .minusCopy len).clearCount) hsp
    Decoder.copyAll
  rcases hi with rfl | rfl <;> exact hfetch

/-- A copy latched at its first byte, with a start that exists and room below the cap, appends its
whole length (R128, R129, R170). -/
theorem Decoder.copyAll_of_valid {d : Decoder} {from0 : Nat}
    (hkind : d.kind = .libraryCopy ∨ d.kind = .xorCopy ∨ d.kind = .minusCopy) (hk : d.k = 0)
    (hbase : d.base = from0) (hfrom : from0 < d.olen) (hcap : d.olen + d.len ≤ d.maxOut) :
    ∃ out, d.copyAll =
        { d with dstate := .readHeader, out := out, olen := d.olen + d.len, k := d.len } ∧
      d.out.Appended out d.olen d.len (fun j => out.read (from0 + j) ^^^ d.xm) := by
  obtain ⟨out, hloop, happ⟩ :=
    Decoder.byteLoop_copy d.len d from0 hkind (by simp [hbase, hk]) hfrom hcap
  exact ⟨out, by rw [Decoder.copyAll, hloop, hk, Nat.zero_add], happ⟩

/-- Settles O31: a distance from 1 to `olen` starts the copy at a byte that exists. -/
theorem minusCopyCompletes : Obligations.MinusCopyCompletes := by
  intro s len m i hi hsp hm hpos hle hcap
  have hbase : (s.dec.olen : Int) - m = ((s.dec.olen - m : Nat) : Int) := (Int.ofNat_sub hle).symm
  obtain ⟨out, hcopy, happ⟩ := Decoder.copyAll_of_valid
    (d := (s.dec.latchHeader .minusCopy len).clearCount.advance.latchCopy ((s.dec.olen : Int) - m) 0)
    (.inr (.inr rfl)) rfl hbase (Nat.sub_lt_self hpos hle) hcap
  refine ⟨out, ?_, by simpa using happ⟩
  rw [exec_eq, Decoder.runInstr_minusCopy hi hsp hm, hcopy]
  rfl

end Sys2Proof.Machine

/-! ### A command past its header: operands read, and the byte loop up to its end or the cap -/

namespace Sys2Proof.Machine

/-- A command of either format is the dispatch on its kind with its length latched (R124, R125). -/
theorem Decoder.runInstr_of_kind {i : Instr} {kind : Kind} {len : Nat}
    (hi : i = normalInstr kind len ∨ i = extendedInstr kind len) (d : Decoder) :
    d.runInstr i = (d.latchHeader kind len).execute := by
  rcases hi with rfl | rfl <;> cases kind <;> rfl

/-! #### Operands (R127) -/

theorem Decoder.fetchValue_of_lt {d : Decoder} (h : d.sp < d.slen) (next : Decoder → Decoder) :
    d.fetchValue next = next (d.advance.latchValue (d.stream.read d.sp)) :=
  Decoder.fetchByte_of_lt h _

theorem Decoder.fetchPair_of_lt {d : Decoder} (h : d.sp + 1 < d.slen) (next : Decoder → Decoder) :
    d.fetchPair next = next ((d.advance.latchLo (d.stream.read d.sp)).advance.latchHi
      (d.stream.read (d.sp + 1))) :=
  (Decoder.fetchByte_of_lt (Nat.lt_of_succ_lt h) _).trans
    (Decoder.fetchByte_of_lt (d := d.advance.latchLo (d.stream.read d.sp)) h _)

theorem Decoder.fetchOffset_of_lt {d : Decoder} (h : d.sp + 1 < d.slen) (xm : Byte)
    (next : Decoder → Decoder) :
    d.fetchOffset xm next = next (d.advance.advance.latchCopy
      (offsetOf (d.stream.read d.sp) (d.stream.read (d.sp + 1))) xm) :=
  (Decoder.fetchByte_of_lt (Nat.lt_of_succ_lt h) _).trans
    (Decoder.fetchByte_of_lt (d := d.advance) h _)

/-- With one stream byte left, the first of two operand bytes is consumed and the second raises. -/
theorem Decoder.fetchPair_underrun {d : Decoder} (h : d.sp + 1 = d.slen)
    (next : Decoder → Decoder) :
    d.fetchPair next =
      (d.advance.latchLo (d.stream.read d.sp)).raise .bufferUnderrun ((d.sp + 1 : Nat) : Int) :=
  (Decoder.fetchByte_of_lt (Nat.lt_of_succ_le h.le) _).trans
    (Decoder.fetchByte_of_le (d := d.advance.latchLo (d.stream.read d.sp)) h.ge _)

theorem Decoder.fetchOffset_underrun {d : Decoder} (h : d.sp + 1 = d.slen) (xm : Byte)
    (next : Decoder → Decoder) :
    d.fetchOffset xm next = d.advance.raise .bufferUnderrun ((d.sp + 1 : Nat) : Int) :=
  (Decoder.fetchByte_of_lt (Nat.lt_of_succ_le h.le) _).trans
    (Decoder.fetchByte_of_le (d := d.advance) h.ge _)

section Commands
variable {d : Decoder} {i : Instr} {len : Nat}

theorem Decoder.runInstr_directCopy (hi : i = .directCopy len ∨ i = .directCopyX len) :
    d.runInstr i = (d.latchHeader .directCopy len).clearCount.copyAll :=
  Decoder.runInstr_of_kind (kind := .directCopy) hi d

theorem Decoder.runInstr_byteFill (hi : i = .byteFill len ∨ i = .byteFillX len)
    (hsp : d.sp < d.slen) :
    d.runInstr i = ((d.latchHeader .byteFill len).clearCount.advance.latchValue
      (d.stream.read d.sp)).copyAll :=
  (Decoder.runInstr_of_kind (kind := .byteFill) hi d).trans
    (Decoder.fetchValue_of_lt (d := (d.latchHeader .byteFill len).clearCount) hsp _)

theorem Decoder.runInstr_sigmaFill (hi : i = .sigmaFill len ∨ i = .sigmaFillX len)
    (hsp : d.sp < d.slen) :
    d.runInstr i = ((d.latchHeader .sigmaFill len).clearCount.advance.latchValue
      (d.stream.read d.sp)).copyAll :=
  (Decoder.runInstr_of_kind (kind := .sigmaFill) hi d).trans
    (Decoder.fetchValue_of_lt (d := (d.latchHeader .sigmaFill len).clearCount) hsp _)

theorem Decoder.runInstr_wordFill (hi : i = .wordFill len ∨ i = .wordFillX len)
    (hsp : d.sp + 1 < d.slen) :
    d.runInstr i = (((d.latchHeader .wordFill len).clearCount.advance.latchLo
      (d.stream.read d.sp)).advance.latchHi (d.stream.read (d.sp + 1))).copyAll :=
  (Decoder.runInstr_of_kind (kind := .wordFill) hi d).trans
    (Decoder.fetchPair_of_lt (d := (d.latchHeader .wordFill len).clearCount) hsp _)

theorem Decoder.runInstr_libraryCopy (hi : i = .libraryCopy len ∨ i = .libraryCopyX len)
    (hsp : d.sp + 1 < d.slen) :
    d.runInstr i = ((d.latchHeader .libraryCopy len).clearCount.advance.advance.latchCopy
      (offsetOf (d.stream.read d.sp) (d.stream.read (d.sp + 1))) 0x00).copyAll :=
  (Decoder.runInstr_of_kind (kind := .libraryCopy) hi d).trans
    (Decoder.fetchOffset_of_lt (d := (d.latchHeader .libraryCopy len).clearCount) hsp _ _)

theorem Decoder.runInstr_xorCopy (hi : i = .xorCopy len ∨ i = .xorCopyX len)
    (hsp : d.sp + 1 < d.slen) :
    d.runInstr i = ((d.latchHeader .xorCopy len).clearCount.advance.advance.latchCopy
      (offsetOf (d.stream.read d.sp) (d.stream.read (d.sp + 1))) 0xFF).copyAll :=
  (Decoder.runInstr_of_kind (kind := .xorCopy) hi d).trans
    (Decoder.fetchOffset_of_lt (d := (d.latchHeader .xorCopy len).clearCount) hsp _ _)

end Commands

/-! #### The bytes of a fill (R152 to R154) -/

/-- Byte `k` of the command is a function of its count, whatever has been appended: the fill
multiplexer (R128). -/
def Decoder.Fills (d : Decoder) (byte : Nat → Byte) : Prop :=
  ∀ d' : Decoder, d'.kind = d.kind → d'.v = d.v → d'.lo = d.lo → d'.hi = d.hi →
    ∀ next, d'.nextByte next = next (byte d'.k) d'

theorem Decoder.fills_byteFill {d : Decoder} (hkind : d.kind = .byteFill) :
    d.Fills fun _ => d.v :=
  fun d' hk hv _ _ next => by simp [Decoder.nextByte, hk.trans hkind, hv]

theorem Decoder.fills_wordFill {d : Decoder} (hkind : d.kind = .wordFill) :
    d.Fills fun j => if j % 2 = 0 then d.lo else d.hi :=
  fun d' hk _ hlo hhi next => by simp [Decoder.nextByte, hk.trans hkind, hlo, hhi]

theorem Decoder.fills_sigmaFill {d : Decoder} (hkind : d.kind = .sigmaFill) :
    d.Fills fun j => BitVec.ofNat 8 ((d.v.toNat + j) % 256) := by
  intro d' hk hv _ _ next
  have hbyte : d.v + BitVec.ofNat 8 d'.k = BitVec.ofNat 8 ((d.v.toNat + d'.k) % 256) :=
    BitVec.eq_of_toNat_eq (by simp)
  simp [Decoder.nextByte, hk.trans hkind, hv, hbyte]

/-- A fill at its first byte with room below the cap appends its whole length (R128, R129). -/
theorem Decoder.copyAll_of_fills {d : Decoder} {byte : Nat → Byte} (hfills : d.Fills byte)
    (hk : d.k = 0) (hcap : d.olen + d.len ≤ d.maxOut) :
    ∃ out, d.copyAll =
        { d with dstate := .readHeader, out := out, olen := d.olen + d.len, k := d.len } ∧
      d.out.Appended out d.olen d.len byte := by
  obtain ⟨out, hloop, happ⟩ := Decoder.byteLoop_fill byte d.len d hfills hcap
  exact ⟨out, by rw [Decoder.copyAll, hloop, hk, Nat.zero_add], by simpa [hk] using happ⟩

/-! #### The cap inside a command (R128) -/

section Capped
variable {i : Instr} {s : State} {d : Decoder} {room : Nat}
  (hrun : s.dec.runInstr i = d.copyAll) (hroom : d.olen + room = d.maxOut) (hlt : room < d.len)
include hrun hroom hlt

/-- A command that the cap stops leaves what its first `room` bytes leave. -/
theorem exec_of_capped (hloop : (Decoder.byteLoop room d).dstate = .readHeader) :
    exec i s = .next { s with dec := (Decoder.byteLoop room d).finish .cap } := by
  rw [exec_eq, hrun, Decoder.copyAll, Decoder.byteLoop_capped room d.len d hroom hlt hloop]

theorem exec_of_capped_fill {byte : Nat → Byte} (hfills : d.Fills byte) (hk : d.k = 0) :
    ∃ t, exec i s = .next t ∧ t.dec.dstate = .done ∧ t.dec.stop = some .cap ∧ t.dec.sp = d.sp ∧
      t.dec.olen = d.maxOut ∧ d.out.Appended t.dec.out d.olen room byte := by
  obtain ⟨out, hloop, happ⟩ := Decoder.byteLoop_fill byte room d hfills hroom.le
  refine ⟨_, exec_of_capped hrun hroom hlt (by rw [hloop]), ?_⟩
  rw [hloop]
  exact ⟨rfl, rfl, rfl, hroom, by simpa [hk] using happ⟩

theorem exec_of_capped_copy {from0 : Nat}
    (hkind : d.kind = .libraryCopy ∨ d.kind = .xorCopy ∨ d.kind = .minusCopy) (hk : d.k = 0)
    (hbase : d.base = from0) (hfrom : from0 < d.olen) :
    ∃ t, exec i s = .next t ∧ t.dec.dstate = .done ∧ t.dec.stop = some .cap ∧ t.dec.sp = d.sp ∧
      t.dec.olen = d.maxOut ∧
      d.out.Appended t.dec.out d.olen room (fun j => t.dec.out.read (from0 + j) ^^^ d.xm) := by
  obtain ⟨out, hloop, happ⟩ :=
    Decoder.byteLoop_copy room d from0 hkind (by simp [hbase, hk]) hfrom hroom.le
  refine ⟨_, exec_of_capped hrun hroom hlt (by rw [hloop]), ?_⟩
  rw [hloop]
  exact ⟨rfl, rfl, rfl, hroom, happ⟩

end Capped

/-! #### DirectCopy and the fills: the statements -/

/-- Settles O21: a DirectCopy has no operand, and its loop reads the raw bytes. -/
theorem directCopyCompletes : Obligations.DirectCopyCompletes := by
  intro s len i hi hsp hcap
  obtain ⟨out, hloop, happ⟩ := Decoder.byteLoop_direct len
    (s.dec.latchHeader .directCopy len).clearCount rfl hcap hsp
  refine ⟨out, ?_, happ⟩
  rw [exec_eq, Decoder.runInstr_directCopy hi, Decoder.copyAll, Decoder.clearCount_len,
    Decoder.latchHeader_len, hloop]
  simp [Decoder.latchHeader, Decoder.clearCount]

/-- Settles O22: the first `room` raw bytes are read and appended before the cap stops the loop. -/
theorem directCopyStopsAtCap : Obligations.DirectCopyStopsAtCap := by
  intro s len room i hi hroom hlt hsp
  obtain ⟨out, hloop, happ⟩ := Decoder.byteLoop_direct room
    (s.dec.latchHeader .directCopy len).clearCount rfl hroom.le hsp
  refine ⟨out, ?_, happ⟩
  rw [exec_of_capped (Decoder.runInstr_directCopy hi) hroom hlt (by rw [hloop]), hloop]
  simp [Decoder.latchHeader, Decoder.clearCount, Decoder.finish, hroom]

/-- Settles O24: every byte of a ByteFill is the latched value. -/
theorem byteFillCompletes : Obligations.ByteFillCompletes := by
  intro s len i hi hsp hcap
  obtain ⟨out, hcopy, happ⟩ := Decoder.copyAll_of_fills
    (d := (s.dec.latchHeader .byteFill len).clearCount.advance.latchValue
      (s.dec.stream.read s.dec.sp)) (Decoder.fills_byteFill rfl) rfl hcap
  exact ⟨out, by rw [exec_eq, Decoder.runInstr_byteFill hi hsp, hcopy]; rfl, happ⟩

/-- Settles O25: the parity of the count selects the byte of the pair. -/
theorem wordFillCompletes : Obligations.WordFillCompletes := by
  intro s len i hi hsp hcap
  obtain ⟨out, hcopy, happ⟩ := Decoder.copyAll_of_fills
    (d := ((s.dec.latchHeader .wordFill len).clearCount.advance.latchLo
      (s.dec.stream.read s.dec.sp)).advance.latchHi (s.dec.stream.read (s.dec.sp + 1)))
    (Decoder.fills_wordFill rfl) rfl hcap
  exact ⟨out, by rw [exec_eq, Decoder.runInstr_wordFill hi hsp, hcopy]; rfl, happ⟩

/-- Settles O26: byte addition of the count to the seed is addition modulo 256. -/
theorem sigmaFillCompletes : Obligations.SigmaFillCompletes := by
  intro s len i hi hsp hcap
  obtain ⟨out, hcopy, happ⟩ := Decoder.copyAll_of_fills
    (d := (s.dec.latchHeader .sigmaFill len).clearCount.advance.latchValue
      (s.dec.stream.read s.dec.sp)) (Decoder.fills_sigmaFill rfl) rfl hcap
  exact ⟨out, by rw [exec_eq, Decoder.runInstr_sigmaFill hi hsp, hcopy]; rfl, happ⟩

/-- Settles O27: the operands are read before the loop, and the loop's bytes do not depend on its
length. -/
theorem fillStopsAtCap : Obligations.FillStopsAtCap := by
  intro s len room hroom hlt
  refine ⟨fun i hi hsp => ?_, fun i hi hsp => ?_, fun i hi hsp => ?_⟩
  · exact exec_of_capped_fill (Decoder.runInstr_byteFill hi hsp) hroom hlt
      (Decoder.fills_byteFill rfl) rfl
  · exact exec_of_capped_fill (Decoder.runInstr_wordFill hi hsp) hroom hlt
      (Decoder.fills_wordFill rfl) rfl
  · exact exec_of_capped_fill (Decoder.runInstr_sigmaFill hi hsp) hroom hlt
      (Decoder.fills_sigmaFill rfl) rfl

/-! #### The back references: the statements -/

/-- Settles O29: an offset below `olen` starts the copy at a byte that exists. -/
theorem libraryCopyCompletes : Obligations.LibraryCopyCompletes := by
  rintro s len _ i hi hsp rfl hlt hcap
  obtain ⟨out, hcopy, happ⟩ := Decoder.copyAll_of_valid
    (d := (s.dec.latchHeader .libraryCopy len).clearCount.advance.advance.latchCopy
      (offsetOf (s.dec.stream.read s.dec.sp) (s.dec.stream.read (s.dec.sp + 1))) 0x00)
    (.inl rfl) rfl rfl hlt hcap
  exact ⟨out, by rw [exec_eq, Decoder.runInstr_libraryCopy hi hsp, hcopy]; rfl,
    by simpa [offsetOf] using happ⟩

/-- Settles O30: the same copy with the mask that complements every bit. -/
theorem xorCopyCompletes : Obligations.XorCopyCompletes := by
  rintro s len _ i hi hsp rfl hlt hcap
  obtain ⟨out, hcopy, happ⟩ := Decoder.copyAll_of_valid
    (d := (s.dec.latchHeader .xorCopy len).clearCount.advance.advance.latchCopy
      (offsetOf (s.dec.stream.read s.dec.sp) (s.dec.stream.read (s.dec.sp + 1))) 0xFF)
    (.inr (.inl rfl)) rfl rfl hlt hcap
  exact ⟨out, by rw [exec_eq, Decoder.runInstr_xorCopy hi hsp, hcopy]; rfl, happ⟩

/-- Settles O32: the operands are read before the loop, and what the loop copies does not depend on
its length. -/
theorem backReferenceStopsAtCap : Obligations.BackReferenceStopsAtCap := by
  intro s len room hroom hlt
  refine ⟨?_, ?_, ?_⟩
  · rintro i _ hi hsp rfl hfrom
    have hcapped := exec_of_capped_copy (Decoder.runInstr_libraryCopy hi hsp) hroom hlt (.inl rfl)
      rfl rfl hfrom
    simp only [Decoder.latchCopy_xm, BitVec.ofNat_eq_ofNat, BitVec.xor_zero] at hcapped
    exact hcapped
  · rintro i _ hi hsp rfl hfrom
    exact exec_of_capped_copy (Decoder.runInstr_xorCopy hi hsp) hroom hlt (.inr (.inl rfl)) rfl
      rfl hfrom
  · intro i m hi hsp hm hpos hle
    have hbase : (s.dec.olen : Int) - m = ((s.dec.olen - m : Nat) : Int) := (Int.ofNat_sub hle).symm
    simpa using exec_of_capped_copy (Decoder.runInstr_minusCopy hi hsp hm) hroom hlt
      (.inr (.inr rfl)) rfl hbase (Nat.sub_lt_self hpos hle)

/-! #### Missing operands (R127, R251) -/

/-- A command whose operand fetch raises at `sp` ends with that fault, and OUT as it was (R256). -/
theorem exec_of_underrun {i : Instr} {s : State} {d : Decoder} {sp : Nat}
    (hrun : s.dec.runInstr i = d.raise .bufferUnderrun sp) (hsp : d.sp = sp)
    (holen : d.olen = s.dec.olen) (hout : d.out = s.dec.out) :
    ∃ t, exec i s = .next t ∧ t.dec.dstate = .fault ∧ t.dec.cause = some .bufferUnderrun ∧
      t.dec.info = some (sp : Int) ∧ t.dec.sp = sp ∧ t.dec.olen = s.dec.olen ∧
      t.dec.out = s.dec.out := by
  refine ⟨_, exec_eq i s, ?_⟩
  rw [hrun]
  exact ⟨rfl, rfl, rfl, hsp, holen, hout⟩

/-- With no stream byte left, every kind but DirectCopy raises at its first operand. -/
theorem Decoder.execute_underrun {d : Decoder} (hkind : d.kind ≠ .directCopy)
    (hsp : d.slen ≤ d.sp) : d.execute = d.clearCount.raise .bufferUnderrun d.sp := by
  have hfetch : ∀ next, d.clearCount.fetchByte next = d.clearCount.raise .bufferUnderrun d.sp :=
    fun next => Decoder.fetchByte_of_le (d := d.clearCount) hsp next
  unfold Decoder.execute
  cases hk : d.kind <;> simp only
  case directCopy => exact absurd hk hkind
  case byteFill => rw [Decoder.runByteFill, Decoder.fetchValue, hfetch]
  case wordFill => rw [Decoder.runWordFill, Decoder.fetchPair, hfetch]
  case sigmaFill => rw [Decoder.runSigmaFill, Decoder.fetchValue, hfetch]
  case libraryCopy => rw [Decoder.runLibraryCopy, Decoder.fetchOffset, hfetch]
  case xorCopy => rw [Decoder.runXorCopy, Decoder.fetchOffset, hfetch]
  case minusCopy => rw [Decoder.runMinusCopy, Decoder.fetchDistance, hfetch]

/-- With no stream byte left, a command with operands raises at the first of them. -/
theorem Decoder.runInstr_first_operand_underrun {i : Instr} {len : Nat}
    (hi : i = .byteFill len ∨ i = .byteFillX len ∨ i = .sigmaFill len ∨ i = .sigmaFillX len ∨
      i = .minusCopy len ∨ i = .minusCopyX len ∨
      i = .wordFill len ∨ i = .wordFillX len ∨ i = .libraryCopy len ∨ i = .libraryCopyX len ∨
      i = .xorCopy len ∨ i = .xorCopyX len) {d : Decoder} (hsp : d.slen ≤ d.sp) :
    ∃ d' : Decoder, d.runInstr i = d'.raise .bufferUnderrun d.sp ∧ d'.sp = d.sp ∧
      d'.olen = d.olen ∧ d'.out = d.out := by
  have hrun : ∀ kind, kind ≠ .directCopy → i = normalInstr kind len ∨ i = extendedInstr kind len →
      d.runInstr i = (d.latchHeader kind len).clearCount.raise .bufferUnderrun d.sp :=
    fun kind hne hi => (Decoder.runInstr_of_kind hi d).trans
      (Decoder.execute_underrun (d := d.latchHeader kind len) hne hsp)
  rcases hi with h | h | h | h | h | h | h | h | h | h | h | h
  · exact ⟨_, hrun .byteFill (by decide) (.inl h), rfl, rfl, rfl⟩
  · exact ⟨_, hrun .byteFill (by decide) (.inr h), rfl, rfl, rfl⟩
  · exact ⟨_, hrun .sigmaFill (by decide) (.inl h), rfl, rfl, rfl⟩
  · exact ⟨_, hrun .sigmaFill (by decide) (.inr h), rfl, rfl, rfl⟩
  · exact ⟨_, hrun .minusCopy (by decide) (.inl h), rfl, rfl, rfl⟩
  · exact ⟨_, hrun .minusCopy (by decide) (.inr h), rfl, rfl, rfl⟩
  · exact ⟨_, hrun .wordFill (by decide) (.inl h), rfl, rfl, rfl⟩
  · exact ⟨_, hrun .wordFill (by decide) (.inr h), rfl, rfl, rfl⟩
  · exact ⟨_, hrun .libraryCopy (by decide) (.inl h), rfl, rfl, rfl⟩
  · exact ⟨_, hrun .libraryCopy (by decide) (.inr h), rfl, rfl, rfl⟩
  · exact ⟨_, hrun .xorCopy (by decide) (.inl h), rfl, rfl, rfl⟩
  · exact ⟨_, hrun .xorCopy (by decide) (.inr h), rfl, rfl, rfl⟩

/-- A command with two operand bytes, only the first of which is there, consumes it and raises at the
second. -/
theorem Decoder.runInstr_second_operand_underrun {i : Instr} {len : Nat}
    (hi : i = .wordFill len ∨ i = .wordFillX len ∨ i = .libraryCopy len ∨ i = .libraryCopyX len ∨
      i = .xorCopy len ∨ i = .xorCopyX len) {d : Decoder} (hsp : d.sp + 1 = d.slen) :
    ∃ d' : Decoder, d.runInstr i = d'.raise .bufferUnderrun d.slen ∧ d'.sp = d.slen ∧
      d'.olen = d.olen ∧ d'.out = d.out := by
  have hpair := Decoder.fetchPair_underrun (d := (d.latchHeader .wordFill len).clearCount) hsp
    Decoder.copyAll
  have hoffset : ∀ kind xm, (d.latchHeader kind len).clearCount.fetchOffset xm Decoder.copyAll =
      (d.latchHeader kind len).clearCount.advance.raise .bufferUnderrun ((d.sp + 1 : Nat) : Int) :=
    fun kind xm => Decoder.fetchOffset_underrun (d := (d.latchHeader kind len).clearCount) hsp xm _
  rw [← hsp]
  rcases hi with rfl | rfl | rfl | rfl | rfl | rfl
  · exact ⟨_, hpair, rfl, rfl, rfl⟩
  · exact ⟨_, hpair, rfl, rfl, rfl⟩
  · exact ⟨_, hoffset .libraryCopy _, rfl, rfl, rfl⟩
  · exact ⟨_, hoffset .libraryCopy _, rfl, rfl, rfl⟩
  · exact ⟨_, hoffset .xorCopy _, rfl, rfl, rfl⟩
  · exact ⟨_, hoffset .xorCopy _, rfl, rfl, rfl⟩

/-- Settles O28: an operand fetch raises at its missing byte, before the loop appends anything. -/
theorem missingOperandUnderrun : Obligations.MissingOperandUnderrun := by
  refine fun s len i => ⟨fun hi hsp => ?_, fun hi hsp => ?_⟩
  · obtain ⟨d, hrun, hend, holen, hout⟩ := Decoder.runInstr_first_operand_underrun hi hsp
    exact exec_of_underrun hrun hend holen hout
  · obtain ⟨d, hrun, hend, holen, hout⟩ := Decoder.runInstr_second_operand_underrun hi hsp
    exact exec_of_underrun hrun hend holen hout

/-! #### The terminator and the reserved first bytes -/

/-- Settles O18: END is the Decoder's `finish` on the whole state. -/
theorem endOfStreamEndsCall : Obligations.EndOfStreamEndsCall :=
  fun s => exec_eq .endOfStream s

/-- Settles O19: the extension byte is there and is consumed before the fault. -/
theorem reservedByteRaisesInvalidCommand : Obligations.ReservedByteRaisesInvalidCommand := by
  intro s i h0 hi hsp
  have hrun : ∀ b, s.dec.runReserved b = s.dec.advance.raise .invalidCommand b.toNat :=
    fun b => Decoder.fetchByte_of_lt hsp _
  rw [exec_eq]
  rcases hi with ⟨rfl, rfl⟩ | ⟨rfl, rfl⟩ | ⟨rfl, rfl⟩ <;>
    (rw [Decoder.runInstr, hrun]; rfl)

/-- Settles O20: the read of the missing extension byte raises first. -/
theorem reservedByteUnderrun : Obligations.ReservedByteUnderrun := by
  intro s i hi hsp
  have hrun : ∀ b, s.dec.runReserved b = s.dec.raise .bufferUnderrun s.dec.sp :=
    fun b => Decoder.fetchByte_of_le hsp _
  rw [exec_eq]
  rcases hi with rfl | rfl | rfl <;> (rw [Decoder.runInstr, hrun]; rfl)

end Sys2Proof.Machine

/-! ### The Decoder's move from `ReadHeader`, and the end of a decode call -/

namespace Sys2Proof.Machine

section ReadHeader
variable {d : Decoder} (hstate : d.dstate = .readHeader)
include hstate

theorem Decoder.move_at_cap (hcap : d.olen = d.maxOut) : d.move = d.finish .cap := by
  simp only [Decoder.move, Decoder.fetch, hstate, Decoder.fetchHeader, if_pos hcap]

/-- Below the cap the bytes at the stream pointer decide the move: a command is run past its header
(R123 to R125). -/
theorem Decoder.move_of_decode {i : Instr} {tail : List Byte} (hroom : d.olen ≠ d.maxOut)
    (hdecode : decode (d.window 2) = .ok (i, tail)) :
    d.move = (d.takeHeader (headerSize i)).runInstr i := by
  simp only [Decoder.move, Decoder.fetch, hstate, Decoder.fetchHeader, if_neg hroom, hdecode]

theorem Decoder.move_of_noHeader (hroom : d.olen ≠ d.maxOut)
    (hdecode : decode (d.window 2) = .error .noHeader) :
    d.move = d.raise .bufferUnderrun d.sp := by
  simp only [Decoder.move, Decoder.fetch, hstate, Decoder.fetchHeader, if_neg hroom, hdecode]

theorem Decoder.move_of_noExtension {h0 : Byte} (hroom : d.olen ≠ d.maxOut)
    (hdecode : decode (d.window 2) = .error (.noExtension h0)) :
    d.move = (d.takeHeader 1).raise .bufferUnderrun ((d.sp + 1 : Nat) : Int) := by
  simp only [Decoder.move, Decoder.fetch, hstate, Decoder.fetchHeader, if_neg hroom, hdecode]

end ReadHeader

/-- With the turn at the Decoder and no start to give, the step is its move. -/
theorem step_of_mover {s : State} (hready : s.readyCommand = none)
    (hmover : s.mover = some .decoder) :
    step s = .next { s with dec := s.dec.move, turn := .encoder } := by
  simp only [step, hready, hmover, decoderMove_eq]

/-! #### The statements about one step -/

/-- Settles O12: the move is the command's Decoder function past the header. -/
theorem stepRunsDecodedCommand : Obligations.StepRunsDecodedCommand := by
  intro s i tail hready hmover hstate hroom hdecode
  rw [step_of_mover hready hmover, Decoder.move_of_decode hstate hroom hdecode, exec_eq,
    Decoder.takeHeader, hstate]

/-- Settles O13: the cap is tested before the fetch. -/
theorem stepStopsAtCap : Obligations.StepStopsAtCap := by
  intro s hready hmover hstate hcap
  rw [step_of_mover hready hmover, Decoder.move_at_cap hstate hcap]
  rfl

/-- Settles O14: with no byte left the decoder reads an empty window. -/
theorem stepHeaderUnderrun : Obligations.StepHeaderUnderrun := by
  intro s hready hmover hstate hroom hsp
  have hwindow : s.dec.window 2 = [] := by
    rw [Decoder.window, Nat.sub_eq_zero_of_le hsp]
    rfl
  rw [step_of_mover hready hmover, Decoder.move_of_noHeader hstate hroom (by rw [hwindow]; rfl)]
  rfl

/-- Settles O15: the window is the first byte alone, and format X has no command of one byte. -/
theorem stepExtensionUnderrun : Obligations.StepExtensionUnderrun := by
  intro s hready hmover hstate hroom hsp hlow hhigh
  have hleft : s.dec.slen - s.dec.sp = 1 := by omega
  have hwindow : s.dec.window 2 = [s.dec.stream.read s.dec.sp] := by
    rw [Decoder.window, hleft]
    rfl
  obtain ⟨-, -, hshort⟩ := everyByteStringDecodes
  obtain ⟨-, halone⟩ := hshort (s.dec.stream.read s.dec.sp)
  rw [step_of_mover hready hmover,
    Decoder.move_of_noExtension hstate hroom (hwindow ▸ halone ⟨hlow, hhigh⟩)]
  rfl

/-! #### Progress of a decode call (R136) -/

theorem headerSize_pos (i : Instr) : 0 < headerSize i := by
  cases i <;> exact Nat.succ_pos _

/-- A command ends the call or hands back to `ReadHeader` (R129, R130). -/
theorem Decoder.runInstr_ended_or_readHeader (i : Instr) (d : Decoder) :
    (d.runInstr i).ended = true ∨ (d.runInstr i).dstate = .readHeader := by
  obtain ⟨d', -, hends⟩ := Decoder.runInstr_ends d.extends_kept i (.refl d)
  generalize d.runInstr i = last at hends ⊢
  cases hends with
  | complete => exact .inr rfl
  | cap => exact .inl rfl
  | terminator => exact .inl rfl
  | raise => exact .inl rfl

/-- A move from `ReadHeader` ends the call, or has consumed at least the header of a command and is
back in `ReadHeader`. -/
theorem Decoder.move_ends_or_consumes {d : Decoder} (hstate : d.dstate = .readHeader) :
    d.move.ended = true ∨
    (d.move.dstate = .readHeader ∧ d.sp < d.move.sp ∧ d.sp < d.slen) := by
  by_cases hcap : d.olen = d.maxOut
  · exact .inl (by rw [Decoder.move_at_cap hstate hcap]; rfl)
  · match hdecode : decode (d.window 2) with
    | .error .noHeader =>
      exact .inl (by rw [Decoder.move_of_noHeader hstate hcap hdecode]; rfl)
    | .error (.noExtension _) =>
      exact .inl (by rw [Decoder.move_of_noExtension hstate hcap hdecode]; rfl)
    | .ok (i, tail) =>
      have hpos := headerSize_pos i
      have hsize := (headerSize_le_of_decode hdecode).trans (d.length_window_le 2)
      have hsp : d.sp + headerSize i ≤ ((d.takeHeader (headerSize i)).runInstr i).sp :=
        (Decoder.runInstr_extends i (d.takeHeader (headerSize i))).sp
      rw [Decoder.move_of_decode hstate hcap hdecode]
      exact (Decoder.runInstr_ended_or_readHeader i _).imp_right fun hback =>
        ⟨hback, by omega, by omega⟩

/-- Settles O43: the header of a command that completes has been consumed. -/
theorem decoderMoveConsumes : Obligations.DecoderMoveConsumes := by
  intro s t hstate hmove
  rw [decoderMove_eq] at hmove
  obtain rfl := Host.Outcome.next.inj hmove
  exact Decoder.move_ends_or_consumes hstate

/-- The moves of the Encoder before one of the Decoder, by the turn. -/
def Engine.movesBeforeDecoder : Engine → Nat
  | .decoder => 0
  | .encoder => 1

theorem Engine.movesBeforeDecoder_le (turn : Engine) : turn.movesBeforeDecoder ≤ 1 := by
  cases turn <;> decide

/-- What the rest of a decode call can still take, less its last step: two for each stream byte left,
one if the Encoder is to move first, and one for each pending start. -/
def State.decodeBudget (s : State) : Nat :=
  2 * (s.dec.slen - s.dec.sp) + s.turn.movesBeforeDecoder + s.host.length

theorem State.mover_of_dec_busy {s : State} (hbusy : s.dec.busy = true) :
    s.mover = some (if s.enc.busy then s.turn else .decoder) := by
  cases henc : s.enc.busy <;> simp [State.mover, hbusy, henc]

/-- Of two running engines the Encoder moves at its turn only. -/
theorem State.turn_of_encoder_moves {s : State} (hbusy : s.dec.busy = true)
    (hmover : s.mover = some .encoder) : s.turn = .encoder := by
  rw [State.mover_of_dec_busy hbusy] at hmover
  split_ifs at hmover
  · exact Option.some.inj hmover
  · cases hmover

/-- A start that is ready while the Decoder is busy is the Encoder's. -/
theorem State.begin_dec_of_ready {s : State} {c : HostCommand} (hbusy : s.dec.busy = true)
    (hready : s.readyCommand = some c) : (s.popStart.begin c).dec = s.dec := by
  cases c with
  | startEncode source => rfl
  | startDecode bs m =>
    obtain ⟨-, hfree⟩ := State.readyCommand_some hready
    simp [State.admits, hbusy] at hfree

@[simp] theorem State.begin_turn (s : State) (c : HostCommand) : (s.begin c).turn = s.turn := by
  cases c <;> rfl

@[simp] theorem State.begin_host (s : State) (c : HostCommand) : (s.begin c).host = s.host := by
  cases c <;> rfl

theorem State.host_length_of_ready {s : State} {c : HostCommand} (h : s.readyCommand = some c) :
    s.host.length = s.popStart.host.length + 1 := by
  obtain ⟨hhost, -⟩ := State.readyCommand_some h
  exact congrArg List.length hhost

/-- Every step of a decode call ends it or takes from its budget: a start is given or refused, the
Encoder moves and hands the turn on, or the Decoder consumes a byte. -/
theorem step_ends_or_spends {s t : State} (hstate : s.dec.dstate = .readHeader)
    (hstep : step s = .next t) :
    t.dec.ended = true ∨ (t.dec.dstate = .readHeader ∧ t.decodeBudget < s.decodeBudget) := by
  have hbusy : s.dec.busy = true := by simp [Decoder.busy, hstate]
  rcases step_cases hstep with ⟨c, hready, _, rfl⟩ | ⟨c, hready, _, rfl⟩ | ⟨_, _, rfl⟩ |
    ⟨_, hmover, rfl⟩ | ⟨_, hmover, rfl⟩
  · have hhost := State.host_length_of_ready hready
    refine .inr ⟨?_, ?_⟩
    · rw [State.begin_dec_of_ready hbusy hready, hstate]
    · simp only [State.decodeBudget, State.begin_dec_of_ready hbusy hready, State.begin_turn,
        State.begin_host, State.popStart_turn]
      omega
  · have hhost := State.host_length_of_ready hready
    refine .inr ⟨hstate, ?_⟩
    simp only [State.decodeBudget, State.refuseStart_dec, State.refuseStart_turn,
      State.refuseStart_host, State.popStart_dec, State.popStart_turn]
    omega
  · refine (Decoder.move_ends_or_consumes hstate).imp_right fun ⟨hback, hsp, hlt⟩ => ⟨hback, ?_⟩
    have hslen : s.dec.move.slen = s.dec.slen :=
      congrArg (fun ops => ops.2.1) s.dec.move_operands
    have hturn : Engine.encoder.movesBeforeDecoder = 1 := rfl
    simp only [State.decodeBudget, hslen, hturn]
    omega
  · refine .inr ⟨hstate, ?_⟩
    simp [State.decodeBudget, State.encoderMove, State.turn_of_encoder_moves hbusy hmover,
      Engine.movesBeforeDecoder]
  · simp [State.mover_of_dec_busy hbusy] at hmover

/-- A run reaches a goal within the measure of its first state and one step more, when each step
reaches it or goes on from a state of smaller measure. -/
theorem run_reaches_of_measure {P Q : State → Prop} (measure : State → Nat)
    (hprogress : ∀ s t, P s → step s = .next t → Q t ∨ (P t ∧ measure t < measure s)) :
    ∀ s, P s → ∃ k t, k ≤ measure s + 1 ∧ Host.Core.run Sys2Proof.core k s = .next t ∧ Q t := by
  intro s
  induction hn : measure s using Nat.strongRecOn generalizing s with
  | ind n ih =>
    intro hs
    obtain ⟨t, hstep⟩ := step_total s
    rcases hprogress s t hs hstep with hgoal | ⟨ht, hlt⟩
    · exact ⟨1, t, Nat.le_add_left 1 n, run_succ 0 hstep, hgoal⟩
    · obtain ⟨k, u, hk, hrun, hgoal⟩ := ih (measure t) (hn ▸ hlt) t rfl ht
      exact ⟨k + 1, u, by omega, (run_succ k hstep).trans hrun, hgoal⟩

/-- Settles O44: the budget bounds the steps of the call. -/
theorem decodeCallEnds : Obligations.DecodeCallEnds := by
  intro s hstate
  obtain ⟨k, t, hk, hrun, hended⟩ := run_reaches_of_measure (P := fun s => s.dec.dstate = .readHeader)
    (Q := fun t => t.dec.ended = true) State.decodeBudget (fun _ _ => step_ends_or_spends) s hstate
  refine ⟨k, t, ?_, hrun, hended⟩
  have hturn := s.turn.movesBeforeDecoder_le
  unfold State.decodeBudget at hk
  omega

end Sys2Proof.Machine

/-! ### DirectCopy and the end of the stream (R151, R251, R255) -/

namespace Sys2Proof.Machine

/-- Settles O23: the loop appends the `present` raw bytes and raises at the read that finds none. -/
theorem directCopyUnderrun : Obligations.DirectCopyUnderrun := by
  intro s len present i hi hpresent hlt hcap
  obtain ⟨out, hloop, happ⟩ := Decoder.byteLoop_direct_underrun present len
    (s.dec.latchHeader .directCopy len).clearCount rfl hpresent hlt hcap
  refine ⟨out, ?_, happ⟩
  rw [exec_eq, Decoder.runInstr_directCopy hi, Decoder.copyAll, Decoder.clearCount_len,
    Decoder.latchHeader_len, hloop]
  simp [Decoder.latchHeader, Decoder.clearCount]

end Sys2Proof.Machine

/-! ### The back references: validity at the first byte, and overlap (R170 to R175) -/

namespace Sys2Proof.Machine

/-! #### Where a copy starts -/

/-- A copy at its first byte, with a start that does not exist, raises there (R175, R253). -/
theorem exec_of_invalid_copy {i : Instr} {s : State} {d : Decoder}
    (hrun : s.dec.runInstr i = d.copyAll)
    (hkind : d.kind = .libraryCopy ∨ d.kind = .xorCopy ∨ d.kind = .minusCopy)
    (hk : d.k = 0) (hlen : 1 ≤ d.len) (hbase : d.base < 0 ∨ (d.olen : Int) ≤ d.base)
    (hroom : d.olen ≠ d.maxOut) :
    exec i s = .next { s with dec := d.raise .invalidBackReference d.base } := by
  have hindex : d.base + d.k = d.base := by simp [hk]
  obtain ⟨n, hn⟩ := Nat.exists_eq_add_of_le' hlen
  rw [exec_eq, hrun, Decoder.copyAll, hn, Decoder.byteLoop_invalid hkind (by rwa [hindex]) hroom,
    hindex]

/-- Settles O33: the offset read is not below `olen`, so the copy's first byte does not exist. -/
theorem absoluteOffsetOutOfRange : Obligations.AbsoluteOffsetOutOfRange := by
  rintro s len _ i hi hlen hsp rfl hout hroom
  have hbase : (s.dec.olen : Int) ≤
      offsetOf (s.dec.stream.read s.dec.sp) (s.dec.stream.read (s.dec.sp + 1)) :=
    Int.ofNat_le.mpr hout
  rcases or_assoc.mpr hi with hlibrary | hxor
  · exact ⟨_, exec_of_invalid_copy (Decoder.runInstr_libraryCopy hlibrary hsp) (.inl rfl) rfl hlen
      (.inr hbase) hroom, rfl, rfl, rfl, rfl, rfl, rfl⟩
  · exact ⟨_, exec_of_invalid_copy (Decoder.runInstr_xorCopy hxor hsp) (.inr (.inl rfl)) rfl hlen
      (.inr hbase) hroom, rfl, rfl, rfl, rfl, rfl, rfl⟩

/-- Settles O34: at distance 0 the start is `olen` itself, at a distance above `olen` it is negative. -/
theorem distanceOutOfRange : Obligations.DistanceOutOfRange := by
  intro s len m i hi hlen hsp hm hout hroom
  have hbase : (s.dec.olen : Int) - m < 0 ∨ (s.dec.olen : Int) ≤ s.dec.olen - m := by omega
  exact ⟨_, exec_of_invalid_copy (Decoder.runInstr_minusCopy hi hsp hm) (.inr (.inr rfl)) rfl hlen
    hbase hroom, rfl, rfl, rfl, rfl, rfl, rfl⟩

/-! #### A copy with a start that exists never faults (R175) -/

/-- If the command is a copy, its next byte exists (R170). -/
def Decoder.SourceExists (d : Decoder) : Prop :=
  d.kind = .libraryCopy ∨ d.kind = .xorCopy ∨ d.kind = .minusCopy →
    0 ≤ d.base + d.k ∧ d.base + d.k < d.olen

/-- Read index and frontier advance together, so the byte after an appended one exists as well. -/
theorem Decoder.SourceExists.append {d : Decoder} (h : d.SourceExists) (b : Byte) :
    (d.emit b).countByte.SourceExists := by
  intro hkind
  obtain ⟨hlow, hhigh⟩ := h hkind
  simp only [Decoder.countByte_base, Decoder.emit_base, Decoder.countByte_k, Decoder.emit_k,
    Decoder.countByte_olen, Decoder.emit_olen]
  omega

/-- Where the source exists, the multiplexer gives a byte or reads one from the stream (R128). -/
theorem Decoder.SourceExists.nextByte {d : Decoder} (h : d.SourceExists) :
    (∃ b, ∀ next, d.nextByte next = next b d) ∨ ∀ next, d.nextByte next = d.fetchByte next := by
  by_cases hcopy : d.kind = .libraryCopy ∨ d.kind = .xorCopy ∨ d.kind = .minusCopy
  · obtain ⟨hlow, hhigh⟩ := h hcopy
    exact .inl ⟨_, fun next =>
      (Decoder.nextByte_copy hcopy next).trans (Decoder.outRead_of_valid hlow hhigh _)⟩
  · unfold Decoder.nextByte
    cases hkind : d.kind
    case directCopy => exact .inr fun _ => rfl
    case byteFill => exact .inl ⟨_, fun _ => rfl⟩
    case wordFill => exact .inl ⟨_, fun _ => rfl⟩
    case sigmaFill => exact .inl ⟨_, fun _ => rfl⟩
    all_goals simp [hkind] at hcopy

theorem Decoder.SourceExists.byteLoop_cause : ∀ n {d : Decoder}, d.SourceExists →
    d.cause ≠ some .invalidBackReference →
    (Decoder.byteLoop n d).cause ≠ some .invalidBackReference := by
  intro n
  induction n with
  | zero => exact fun _ hcause => hcause
  | succ n ih =>
    intro d h hcause
    unfold Decoder.byteLoop
    split_ifs with hcap
    · exact hcause
    · rcases h.nextByte with ⟨b, hbyte⟩ | hread
      · rw [hbyte]
        exact ih (h.append b) hcause
      · rw [hread]
        by_cases hsp : d.sp < d.slen
        · rw [Decoder.fetchByte_of_lt hsp]
          exact ih (d := (d.advance.emit _).countByte)
            (Decoder.SourceExists.append (d := d.advance) h _) hcause
        · simp [Decoder.fetchByte_of_le (Nat.le_of_not_lt hsp)]

/-- Where the source does not exist, the loop ends before its first byte. -/
theorem Decoder.byteLoop_of_no_source (n : Nat) {d : Decoder} (h : ¬ d.SourceExists) :
    d.EndsFrom (Decoder.byteLoop n d) := by
  obtain ⟨hkind, hsource⟩ := Classical.not_imp.mp h
  cases n with
  | zero => exact .complete
  | succ n =>
    by_cases hcap : d.olen = d.maxOut
    · rw [Decoder.byteLoop, if_pos hcap]
      exact .cap hcap
    · rw [Decoder.byteLoop_invalid hkind (by omega) hcap]
      exact .raise _ _

/-! #### A command before its first byte -/

/-- A command at its start, from `d`: nothing counted, nothing appended, nothing raised (R127). -/
structure Decoder.Entered (d d' : Decoder) : Prop where
  k : d'.k = 0
  olen : d'.olen = d.olen
  out : d'.out = d.out
  cause : d'.cause = none

/-- What R175 asks of the Decoder `d'` that a command leaves from `d`. -/
def Decoder.FaultsAtFirstByte (d d' : Decoder) : Prop :=
  d'.cause = some .invalidBackReference → d'.olen = d.olen ∧ d'.out = d.out ∧ d'.k = 0

section Entered
variable {d d' : Decoder} (h : d.Entered d')
include h

theorem Decoder.Entered.of_ends {d'' : Decoder} (hends : d'.EndsFrom d'') :
    d.FaultsAtFirstByte d'' := by
  cases hends <;> exact fun _ => ⟨h.olen, h.out, h.k⟩

theorem Decoder.Entered.copyAll : d.FaultsAtFirstByte d'.copyAll := by
  by_cases hsource : d'.SourceExists
  · exact fun hfault => absurd hfault (hsource.byteLoop_cause _ (by simp [h.cause]))
  · exact h.of_ends (Decoder.byteLoop_of_no_source _ hsource)

theorem Decoder.Entered.fetchByte {next : Byte → Decoder → Decoder}
    (hnext : ∀ b d', d.Entered d' → d.FaultsAtFirstByte (next b d')) :
    d.FaultsAtFirstByte (d'.fetchByte next) := by
  unfold Decoder.fetchByte
  split_ifs
  · exact hnext _ _ { h with }
  · exact h.of_ends (.raise _ _)

theorem Decoder.Entered.fetchOffset (xm : Byte) :
    d.FaultsAtFirstByte (d'.fetchOffset xm Decoder.copyAll) :=
  h.fetchByte fun _ _ h => h.fetchByte fun _ _ h => Decoder.Entered.copyAll { h with }

theorem Decoder.Entered.fetchValue : d.FaultsAtFirstByte (d'.fetchValue Decoder.copyAll) :=
  h.fetchByte fun _ _ h => Decoder.Entered.copyAll { h with }

end Entered

/-- A command of any kind, dispatched with its length latched. -/
theorem Decoder.execute_faultsAtFirstByte {d : Decoder} (hcause : d.cause = none) :
    d.FaultsAtFirstByte d.execute := by
  have h : d.Entered d.clearCount := ⟨rfl, rfl, rfl, hcause⟩
  unfold Decoder.execute
  cases d.kind <;> simp only
  case directCopy => exact h.copyAll
  case byteFill => exact h.fetchValue
  case sigmaFill => exact h.fetchValue
  case wordFill =>
    exact h.fetchByte fun b d' h => Decoder.Entered.fetchByte (d' := d'.latchLo b) { h with }
      fun _ _ h => Decoder.Entered.copyAll { h with }
  case libraryCopy => exact h.fetchOffset _
  case xorCopy => exact h.fetchOffset _
  case minusCopy => exact h.fetchByte fun _ _ h => Decoder.Entered.copyAll { h with }

theorem Decoder.runReserved_cause {d : Decoder} (h0 : Byte) :
    (d.runReserved h0).cause ≠ some .invalidBackReference := by
  unfold Decoder.runReserved Decoder.fetchByte
  split_ifs <;> simp

/-- Settles O36: a copy with a start that exists never raises it, one without raises it before its
first byte, and no other command raises it. -/
theorem backReferenceFaultsAtFirstByte : Obligations.BackReferenceFaultsAtFirstByte := by
  intro s t i hcause hexec
  obtain rfl := exec_next hexec
  have hkind : ∀ kind len, i = normalInstr kind len ∨ i = extendedInstr kind len →
      s.dec.FaultsAtFirstByte (s.dec.runInstr i) := fun kind len hi => by
    rw [Decoder.runInstr_of_kind hi]
    exact Decoder.execute_faultsAtFirstByte (d := s.dec.latchHeader kind len) hcause
  rcases i.format_cases with ⟨kind, len, hi⟩ | ⟨kind, len, hi⟩ | rfl | rfl | rfl | rfl
  · exact hkind kind len (.inl hi)
  · exact hkind kind len (.inr hi)
  · exact fun hfault => absurd hfault (Decoder.runReserved_cause _)
  · exact fun hfault => absurd hfault (Decoder.runReserved_cause _)
  · exact fun hfault => absurd hfault (Decoder.runReserved_cause _)
  · exact fun hfault => absurd (hcause.symm.trans hfault) (by simp)

/-! #### Overlap (R174) -/

/-- Bytes copied from a start behind the frontier repeat, with period `p`, the `p` bytes between the
two, masked in the even periods: at `j ≥ p` the source is byte `j − p` of the copy itself. -/
theorem Memory.Appended.read_periodic {m m' : Memory} {first count start : Nat} {xm : Byte}
    (h : m.Appended m' first count fun j => m'.read (start + j) ^^^ xm) (hstart : start < first) :
    ∀ j < count, m'.read (first + j) =
      if j / (first - start) % 2 = 0 then m.read (start + j % (first - start)) ^^^ xm
      else m.read (start + j % (first - start)) := by
  intro j
  induction j using Nat.strongRecOn with
  | ind j ih =>
    intro hj
    rw [h.new j hj]
    by_cases hperiod : j < first - start
    · rw [h.old _ (.inl (by omega)), Nat.div_eq_of_lt hperiod, Nat.mod_eq_of_lt hperiod]
      rfl
    · obtain ⟨i, rfl⟩ := Nat.exists_eq_add_of_le' (Nat.le_of_not_lt hperiod)
      have hsource : start + (i + (first - start)) = first + i := by omega
      have hparity : (i / (first - start) + 1) % 2 = 0 ↔ ¬ i / (first - start) % 2 = 0 := by omega
      rw [hsource, ih i (by omega) (by omega), Nat.add_mod_right,
        Nat.add_div_right _ (Nat.sub_pos_of_lt hstart)]
      by_cases heven : i / (first - start) % 2 = 0 <;> simp [hparity, heven]

/-- What a copy from a start that exists has appended when it completes or stops at the cap:
`Decoder.byteLoop_copy` for any room below the cap. -/
theorem Decoder.byteLoop_copy_appended : ∀ n (d : Decoder) (from0 : Nat),
    (d.kind = .libraryCopy ∨ d.kind = .xorCopy ∨ d.kind = .minusCopy) →
    d.base + d.k = (from0 : Int) → from0 < d.olen →
    ∃ count, (Decoder.byteLoop n d).olen = d.olen + count ∧
      d.out.Appended (Decoder.byteLoop n d).out d.olen count
        (fun j => (Decoder.byteLoop n d).out.read (from0 + j) ^^^ d.xm) := by
  intro n
  induction n with
  | zero => exact fun d _ _ _ _ => ⟨0, rfl, Memory.appended_zero _ _ _⟩
  | succ n ih =>
    intro d from0 hkind hfrom hlt
    by_cases hcap : d.olen = d.maxOut
    · rw [Decoder.byteLoop, if_pos hcap]
      exact ⟨0, rfl, Memory.appended_zero _ _ _⟩
    · have hbyte : Decoder.byteLoop (n + 1) d =
          Decoder.byteLoop n (d.emit (d.out.read from0 ^^^ d.xm)).countByte := by
        rw [Decoder.byteLoop, if_neg hcap, Decoder.nextByte_copy hkind, hfrom,
          Decoder.outRead_of_valid (by omega) (by omega), Int.toNat_natCast]
      obtain ⟨count, holen, happ⟩ := ih (d.emit (d.out.read from0 ^^^ d.xm)).countByte (from0 + 1)
        hkind (by simp; omega) (Nat.succ_lt_succ hlt)
      rw [hbyte]
      refine ⟨count + 1, holen.trans (by simp; omega), Memory.appended_cons happ ?_ fun j _ => ?_⟩
      · rw [Nat.add_zero, happ.old from0 (.inl (Nat.lt_succ_of_lt hlt))]
        exact congrArg (· ^^^ d.xm) (Memory.read_write_other _ _ hlt.ne)
      · rw [Nat.add_comm j 1, ← Nat.add_assoc]
        rfl

/-- A copy whose start exists repeats, as `Memory.Appended.read_periodic` says, the output as it
stood at the first byte. -/
theorem Decoder.copyAll_repeats {d : Decoder} {start : Nat}
    (hkind : d.kind = .libraryCopy ∨ d.kind = .xorCopy ∨ d.kind = .minusCopy) (hk : d.k = 0)
    (hbase : d.copyAll.base = start) (hstart : start < d.olen) {j : Nat}
    (hj : d.olen + j < d.copyAll.olen) :
    d.copyAll.out.read (d.olen + j) =
      if j / (d.olen - start) % 2 = 0 then d.out.read (start + j % (d.olen - start)) ^^^ d.xm
      else d.out.read (start + j % (d.olen - start)) := by
  have hlatched : d.copyAll.base = d.base :=
    (Prod.mk.inj (Decoder.copyLatches_untouched.copyAll d)).1
  obtain ⟨count, holen, happ⟩ := Decoder.byteLoop_copy_appended d.len d start hkind
    (by rw [hk, ← hlatched, hbase]; simp) hstart
  exact happ.read_periodic hstart j (Nat.lt_of_add_lt_add_left (hj.trans_eq holen))

/-! #### A command that does not fault has its operands -/

theorem Decoder.lt_of_fetchByte_ne_fault {d : Decoder} {next : Byte → Decoder → Decoder}
    (h : (d.fetchByte next).dstate ≠ .fault) : d.sp < d.slen := by
  by_contra hsp
  simp [Decoder.fetchByte_of_le (Nat.le_of_not_lt hsp)] at h

theorem Decoder.lt_of_fetchOffset_ne_fault {d : Decoder} {xm : Byte} {next : Decoder → Decoder}
    (h : (d.fetchOffset xm next).dstate ≠ .fault) : d.sp + 1 < d.slen := by
  have hfirst := Decoder.lt_of_fetchByte_ne_fault h
  rw [Decoder.fetchOffset, Decoder.fetchByte_of_lt hfirst] at h
  exact Decoder.lt_of_fetchByte_ne_fault h

theorem Decoder.offset_present_of_not_fault {i : Instr} {len : Nat} {d : Decoder}
    (hi : i = .libraryCopy len ∨ i = .libraryCopyX len ∨ i = .xorCopy len ∨ i = .xorCopyX len)
    (h : (d.runInstr i).dstate ≠ .fault) : d.sp + 1 < d.slen := by
  have hoffset : ∀ kind xm,
      ((d.latchHeader kind len).clearCount.fetchOffset xm Decoder.copyAll).dstate ≠ .fault →
      d.sp + 1 < d.slen := fun _ _ => Decoder.lt_of_fetchOffset_ne_fault
  rcases hi with rfl | rfl | rfl | rfl <;> exact hoffset _ _ h

theorem Decoder.distance_present_of_not_fault {i : Instr} {len : Nat} {d : Decoder}
    (hi : i = .minusCopy len ∨ i = .minusCopyX len) (h : (d.runInstr i).dstate ≠ .fault) :
    d.sp < d.slen := by
  have hdistance :
      ((d.latchHeader .minusCopy len).clearCount.fetchDistance Decoder.copyAll).dstate ≠ .fault →
      d.sp < d.slen := Decoder.lt_of_fetchByte_ne_fault
  rcases hi with rfl | rfl <;> exact hdistance h

/-- Settles O35: a command that has not faulted has read its operands, and its loop copies from the
latched start. -/
theorem overlapRepeats : Obligations.OverlapRepeats := by
  intro s t len start i hexec hfault hstart hbase
  obtain rfl := exec_next hexec
  dsimp only at hfault hbase ⊢
  refine ⟨fun hi j hj => ?_, fun hi j hj => ?_⟩
  · rcases or_assoc.mpr hi with hlibrary | hminus
    · have hsp := Decoder.offset_present_of_not_fault (hlibrary.imp_right .inl) hfault
      rw [Decoder.runInstr_libraryCopy hlibrary hsp] at hbase hj ⊢
      simpa using Decoder.copyAll_repeats (.inl rfl) rfl hbase hstart hj
    · have hsp := Decoder.distance_present_of_not_fault hminus hfault
      rw [Decoder.runInstr_minusCopy hminus hsp rfl] at hbase hj ⊢
      simpa using Decoder.copyAll_repeats (.inr (.inr rfl)) rfl hbase hstart hj
  · have hsp := Decoder.offset_present_of_not_fault (.inr (.inr hi)) hfault
    rw [Decoder.runInstr_xorCopy hi hsp] at hbase hj ⊢
    exact Decoder.copyAll_repeats (.inr (.inl rfl)) rfl hbase hstart hj

end Sys2Proof.Machine

/-! ### The match finders (R193 to R199) -/

namespace Sys2Proof.Machine

/-- Settles O48: each finder's candidate was shown valid by itself. -/
theorem findersReturnValidCandidates : Obligations.FindersReturnValidCandidates :=
  fun src n c _ => ⟨byteSigmaFinder_valid src n c, wordFinder_valid src n c,
    libraryFinder_valid src n c, xorFinder_valid src n c, minusFinder_valid src n c⟩

/-- Settles O49: a longer match would hold at the position where the extension stopped. -/
theorem matchLengthIsGreatest : Obligations.MatchLengthIsGreatest := by
  intro src n c j x hj hc
  obtain ⟨hlim, hmatch, hstop⟩ := matchLength_spec src n c j x
  refine ⟨hlim, hmatch, fun k hk hall => ?_, fun i hi => by omega⟩
  by_contra hlonger
  have hlt : matchLength src n c x j < k := Nat.lt_of_not_le hlonger
  exact hstop (Nat.lt_of_lt_of_le hlt hk) (hall _ hlt)

/-! #### Runs from the pair at the cursor (R194, R195) -/

/-- The extension of the pair at the cursor stops within the limit only where a position does not
fit (R194, R195). -/
theorem extendWhile_pair_stop (fits : Nat → Bool) {n c : Nat} (h : c + 1 < n)
    (hlt : extendWhile fits (runLimit n c - 2) 2 < runLimit n c) :
    fits (extendWhile fits (runLimit n c - 2) 2) = false := by
  obtain ⟨_, _, _, hstop⟩ := extendWhile_spec fits (runLimit n c - 2) 2
  have hlim : 2 ≤ runLimit n c := by unfold runLimit maxRun; omega
  exact hstop (by omega)

/-- In a run of increments each byte is the first one plus its index, without wrap (R194). -/
theorem toNat_of_increments {src : Nat → Byte} {c len : Nat}
    (h1 : (src (c + 1)).toNat = (src c).toNat + 1)
    (h : ∀ k, 2 ≤ k → k < len → (src (c + k)).toNat = (src (c + k - 1)).toNat + 1) :
    ∀ k < len, (src (c + k)).toNat = (src c).toNat + k
  | 0, _ => rfl
  | 1, _ => h1
  | k + 2, hk => by
    have hprev := toNat_of_increments h1 h (k + 1) (by omega)
    have hstep := h (k + 2) (by omega) hk
    rw [show c + (k + 2) - 1 = c + (k + 1) by omega] at hstep
    omega

theorem byteSigmaFinder_of_last {src : Nat → Byte} {n c : Nat} (h : n ≤ c + 1) :
    byteSigmaFinder src n c = .empty :=
  if_pos h

theorem byteSigmaFinder_of_repeat {src : Nat → Byte} {n c : Nat} (h : c + 1 < n)
    (heq : src (c + 1) = src c) :
    byteSigmaFinder src n c = candidateAt src c .byteFill
      (extendWhile (fun len => src (c + len) = src (c + len - 1)) (runLimit n c - 2) 2) 0 :=
  (if_neg (Nat.not_le.mpr h)).trans (if_pos heq)

theorem byteSigmaFinder_of_increment {src : Nat → Byte} {n c : Nat} (h : c + 1 < n)
    (hinc : (src (c + 1)).toNat = (src c).toNat + 1) :
    byteSigmaFinder src n c = candidateAt src c .sigmaFill
      (extendWhile (fun len => (src (c + len)).toNat = (src (c + len - 1)).toNat + 1)
        (runLimit n c - 2) 2) 0 := by
  have hne : src (c + 1) ≠ src c := fun heq => by simp [heq] at hinc
  exact (if_neg (Nat.not_le.mpr h)).trans ((if_neg hne).trans (if_pos hinc))

theorem byteSigmaFinder_of_neither {src : Nat → Byte} {n c : Nat} (hne : src (c + 1) ≠ src c)
    (hinc : (src (c + 1)).toNat ≠ (src c).toNat + 1) : byteSigmaFinder src n c = .empty := by
  unfold byteSigmaFinder
  rw [if_neg hne, if_neg hinc, ite_self]

/-- Settles O50: the finder's equation for each kind of pair, with the run that extends the pair. -/
theorem byteSigmaFinderFixesMode : Obligations.ByteSigmaFinderFixesMode := by
  refine fun src n c => ⟨byteSigmaFinder_of_last, fun hc heq => ?_, fun hc hinc => ?_,
    byteSigmaFinder_of_neither⟩
  · obtain ⟨_, _, hfits⟩ := extendWhile_pair_spec (fun len => src (c + len) = src (c + len - 1)) hc
    refine ⟨_, byteSigmaFinder_of_repeat hc heq,
      byteFill_fits heq fun k hk hlt => by simpa using hfits k hk hlt, fun hlt => ?_⟩
    simpa using extendWhile_pair_stop _ hc hlt
  · obtain ⟨_, _, hfits⟩ := extendWhile_pair_spec
      (fun len => (src (c + len)).toNat = (src (c + len - 1)).toNat + 1) hc
    refine ⟨_, byteSigmaFinder_of_increment hc hinc,
      toNat_of_increments hinc fun k hk hlt => by simpa using hfits k hk hlt, fun hlt => ?_⟩
    simpa using extendWhile_pair_stop _ hc hlt

/-- Settles O51: a run of fewer than 4 bytes within a limit of at least 4 stopped at the third or the
fourth byte. -/
theorem wordFinderIsLongest : Obligations.WordFinderIsLongest := by
  intro src n c
  unfold wordFinder
  by_cases hc : n ≤ c + 1
  · rw [if_pos hc]
    exact .inl (by omega)
  · rw [if_neg hc]
    have hrun := extendWhile_pair_spec (fun len => src (c + len) = src (c + len - 2))
      (Nat.lt_of_not_le hc)
    have hstop := extendWhile_pair_stop (fun len => src (c + len) = src (c + len - 2))
      (Nat.lt_of_not_le hc)
    generalize extendWhile _ _ _ = len at hrun hstop ⊢
    obtain ⟨hge, hle, hfits⟩ := hrun
    simp only [decide_eq_true_eq, decide_eq_false_iff_not] at hfits hstop
    by_cases hmin : len < minWord
    · simp only [if_pos hmin]
      by_cases hlim : runLimit n c < 4
      · exact .inl hlim
      · unfold minWord at hmin
        have hne := hstop (by omega)
        obtain rfl | rfl : len = 2 ∨ len = 3 := by omega
        · exact .inr (.inl hne)
        · exact .inr (.inr hne)
    · simp only [if_neg hmin]
      exact ⟨rfl, Nat.le_of_not_lt hmin, hle, hfits, hstop, rfl, rfl⟩

/-! #### Backward searches (R197 to R199) -/

/-- Among the admissible starts this one has the greatest length, and it is the rightmost of those
with that length (R197). -/
def LongestRightmost (lengthAt : Nat → Nat) (admissible : Nat → Prop) (start : Nat) : Prop :=
  ∀ j, admissible j → lengthAt j ≤ lengthAt start ∧ (start < j → lengthAt j < lengthAt start)

/-- A finder that searches back over exactly the admissible starts answers the empty candidate when
every match is shorter than its minimum, and the candidate of the longest, then rightmost start
otherwise (R197 to R199). -/
theorem searchBack_candidate {lengthAt : Nat → Nat} {admissible : Nat → Prop}
    {lowest count minimum : Nat} {cand : Candidate} (found : Nat → Nat → Candidate)
    (hcand : cand = if (searchBack lengthAt lowest count (0, 0)).2 < minimum then .empty else
      found (searchBack lengthAt lowest count (0, 0)).2 (searchBack lengthAt lowest count (0, 0)).1)
    (hrange : ∀ j, admissible j ↔ lowest ≤ j ∧ j < lowest + count) (hmin : 0 < minimum) :
    (cand = .empty ∧ ∀ j, admissible j → lengthAt j < minimum) ∨
    ∃ start, cand = found (lengthAt start) start ∧ minimum ≤ lengthAt start ∧ admissible start ∧
      LongestRightmost lengthAt admissible start := by
  obtain ⟨hmax, hcases, _⟩ := searchBack_spec lengthAt lowest count (0, 0)
  generalize searchBack lengthAt lowest count (0, 0) = best at hcand hmax hcases
  have hmax : ∀ j, admissible j → lengthAt j ≤ best.2 := fun j hj =>
    hmax j ((hrange j).mp hj).1 ((hrange j).mp hj).2
  by_cases hshort : best.2 < minimum
  · exact .inl ⟨hcand.trans (if_pos hshort), fun j hj => Nat.lt_of_le_of_lt (hmax j hj) hshort⟩
  · obtain rfl | ⟨hlow, hhigh, hlen, _, hright⟩ := hcases
    · exact absurd hmin hshort
    · rw [if_neg hshort] at hcand
      rw [hlen] at hcand hshort hmax hright
      exact .inr ⟨best.1, hcand, Nat.le_of_not_lt hshort, (hrange _).mpr ⟨hlow, hhigh⟩,
        fun j hj => ⟨hmax j hj, fun hlt => hright j hlt ((hrange j).mp hj).2⟩⟩

/-- The starts below the cursor that a 16-bit offset can name are those LibraryCopy and XorCopy
search (R197). -/
theorem absoluteStart_iff (c j : Nat) :
    (j < c ∧ j ≤ 65535) ↔ 0 ≤ j ∧ j < 0 + min c offsetReach := by
  unfold offsetReach
  omega

/-- The starts at most 255 before the cursor are those MinusCopy searches (R199). -/
theorem minusStart_iff (c j : Nat) :
    (j < c ∧ c ≤ j + 255) ↔ c - minusReach ≤ j ∧ j < c - minusReach + min c minusReach := by
  unfold minusReach
  omega

/-- What R197 and R198 ask of a finder for the mask `x`: the longest match of at least 3 bytes over the
starts a 16-bit offset can name, from the rightmost such start; no candidate when there is none. -/
def AbsoluteAnswer (src : Nat → Byte) (n c : Nat) (kind : Kind) (x : Byte) : Candidate → Prop
  | .empty => ∀ j, j < c → j ≤ 65535 → matchLength src n c x j < 3
  | .found kind' len _ j => kind' = kind ∧ 3 ≤ len ∧ j < c ∧ j ≤ 65535 ∧
      len = matchLength src n c x j ∧
      ∀ j', j' < c → j' ≤ 65535 → matchLength src n c x j' ≤ len ∧
        (j < j' → matchLength src n c x j' < len)

theorem absoluteAnswer_of_searchBack {src : Nat → Byte} {n c : Nat} {kind : Kind} {x : Byte}
    {cand : Candidate}
    (hcand : cand = let best := searchBack (matchLength src n c x) 0 (min c offsetReach) (0, 0)
      if best.2 < 3 then .empty else candidateAt src c kind best.2 best.1) :
    AbsoluteAnswer src n c kind x cand := by
  obtain ⟨rfl, hshort⟩ | ⟨start, rfl, hmin, ⟨hlt, hreach⟩, hbest⟩ :=
    searchBack_candidate (candidateAt src c kind) hcand (absoluteStart_iff c) (by decide)
  · exact fun j hj hjreach => hshort j ⟨hj, hjreach⟩
  · exact ⟨rfl, hmin, hlt, hreach, rfl, fun j hj hjreach => hbest j ⟨hj, hjreach⟩⟩

/-- Settles O52: both finders search back over the same starts, each under its own mask. -/
theorem absoluteFindersAreLongestRightmost : Obligations.AbsoluteFindersAreLongestRightmost :=
  fun src n c => ⟨absoluteAnswer_of_searchBack (cand := libraryFinder src n c) rfl,
    absoluteAnswer_of_searchBack (cand := xorFinder src n c) rfl⟩

/-- Settles O53: the distance carried is the one from the start found to the cursor. -/
theorem minusFinderIsLongestRightmost : Obligations.MinusFinderIsLongestRightmost := by
  intro src n c
  obtain ⟨hcand, hshort⟩ | ⟨start, hcand, hmin, ⟨hlt, hreach⟩, hbest⟩ :=
    searchBack_candidate (cand := minusFinder src n c)
      (fun len start => candidateAt src c .minusCopy len (c - start)) rfl
      (minusStart_iff c) (by decide)
  · rw [hcand]
    exact fun j hj hjreach => hshort j ⟨hj, hjreach⟩
  · have hstart : c - (c - start) = start := Nat.sub_sub_self (Nat.le_of_lt hlt)
    rw [hcand]
    dsimp only [candidateAt]
    rw [hstart]
    exact ⟨rfl, hmin, by omega, by omega, by omega, rfl, fun j hj hjreach => hbest j ⟨hj, hjreach⟩⟩

end Sys2Proof.Machine

/-! ### The selector and the Encoder's moves (R222 to R230) -/

namespace Sys2Proof.Machine

/-! #### The selection (R224) -/

/-- `best` stands in the sequence, nothing in it is longer, and everything before it is shorter. -/
def FirstLongest (cands : List Candidate) (best : Candidate) : Prop :=
  ∃ i, cands[i]? = some best ∧ ∀ (j : Nat) (other : Candidate), cands[j]? = some other →
    other.length ≤ best.length ∧ (j < i → other.length < best.length)

theorem firstLongest_singleton (cand : Candidate) : FirstLongest [cand] cand := by
  refine ⟨0, rfl, fun j other hj => ⟨?_, fun hlt => absurd hlt (Nat.not_lt_zero j)⟩⟩
  have hmem : other ∈ [cand] := List.mem_of_getElem? hj
  rw [List.mem_singleton.mp hmem]

/-- One more candidate takes the place of the first longest only when strictly longer. -/
theorem FirstLongest.concat {cands : List Candidate} {best : Candidate}
    (h : FirstLongest cands best) (later : Candidate) :
    FirstLongest (cands ++ [later]) (longer best later) := by
  obtain ⟨i, hi, hbest⟩ := h
  obtain ⟨hlt, -⟩ := List.getElem?_eq_some_iff.mp hi
  have hother : ∀ (j : Nat) (other : Candidate), (cands ++ [later])[j]? = some other →
      cands[j]? = some other ∨ (cands.length ≤ j ∧ other = later) := by
    intro j other hj
    rcases Nat.lt_or_ge j cands.length with hin | hout
    · exact .inl (by rwa [List.getElem?_append_left hin] at hj)
    · rw [List.getElem?_append_right hout] at hj
      exact .inr ⟨hout, List.mem_singleton.mp (List.mem_of_getElem? hj)⟩
  rcases longer_cases best later with ⟨heq, hle⟩ | ⟨heq, hlonger⟩
  · rw [heq]
    refine ⟨i, by rwa [List.getElem?_append_left hlt], fun j other hj => ?_⟩
    rcases hother j other hj with hin | ⟨hout, rfl⟩
    · exact hbest j other hin
    · exact ⟨hle, fun hji => absurd hji (by omega)⟩
  · rw [heq]
    refine ⟨cands.length, List.getElem?_concat_length, fun j other hj => ?_⟩
    rcases hother j other hj with hin | ⟨hout, rfl⟩
    · have hshorter := Nat.lt_of_le_of_lt (hbest j other hin).1 hlonger
      exact ⟨Nat.le_of_lt hshorter, fun _ => hshorter⟩
    · exact ⟨Nat.le_refl _, fun hj => absurd hj (Nat.not_lt.mpr hout)⟩

/-- Settles O54: the selector extends the first longest of one candidate by the other four in turn. -/
theorem selectorTakesFirstLongest : Obligations.SelectorTakesFirstLongest := fun cand =>
  ((((firstLongest_singleton cand.byteSigma).concat cand.word).concat cand.library).concat
    cand.xor).concat cand.minus

/-! #### What a move puts (R227 to R230) -/

/-- Putting bytes does not look at the literal run. -/
theorem Encoder.putAll_of_emptied (e : Encoder) (bs : List Byte) :
    Encoder.putAll { e with lit := [] } bs = { e.putAll bs with lit := [] } := by
  simp only [Encoder.putAll_eq]

/-- Bytes put after a flush: COMP is loaded at its end with the run's command and those bytes, and
the run is empty. -/
theorem Encoder.flush_putAll (e : Encoder) (bs : List Byte) :
    e.flush.putAll bs = { e with
      lit := []
      comp := e.comp.load e.clen (flushBytes e.lit ++ bs)
      clen := e.clen + (flushBytes e.lit ++ bs).length } := by
  rw [Encoder.flush_eq, Encoder.putAll_of_emptied, ← Encoder.putAll_append, Encoder.putAll_eq]

/-- Settles O55: a flush is the run's command loaded at the end of COMP. -/
theorem flushPutsLiteralRun : Obligations.FlushPutsLiteralRun := by
  intro e
  refine ⟨fun hnil => if_pos hnil, fun hne => ⟨e.comp.load e.clen (literalBytes e.lit), ?_, rfl,
    Memory.appended_load e.comp e.clen (literalBytes e.lit)⟩⟩
  have hflush := e.flush_putAll []
  rwa [List.append_nil, flushBytes, if_neg hne] at hflush

section Scan
variable {e : Encoder} (hscan : e.estate = .scan)
include hscan

theorem Encoder.move_of_lt (hcur : e.cur < e.n) : e.move = e.iterate := by
  simp only [Encoder.move, hscan, if_pos hcur]

theorem Encoder.move_at_end (hcur : e.n ≤ e.cur) : e.move = e.finish := by
  simp only [Encoder.move, hscan, if_neg (Nat.not_lt.mpr hcur)]

end Scan

/-- Settles O56: the flushed Encoder stands at the same cursor, still in `Scan`. -/
theorem fullRunIsFlushedFirst : Obligations.FullRunIsFlushedFirst := by
  intro e hscan hcur hfull
  have hflushed : e.flush.move = e.flush.iterate :=
    Encoder.move_of_lt (by simpa using hscan) (by simpa using hcur)
  exact ⟨by rw [Encoder.move_of_lt hscan hcur, Encoder.iterate_of_full hfull, hflushed],
    e.flush_lit⟩

/-- Settles O57: with room in the run and nothing selected, the evaluated Encoder takes the byte. -/
theorem literalIteration : Obligations.LiteralIteration := by
  intro e hscan hcur hroom hnone
  rw [Encoder.move_of_lt hscan hcur, Encoder.iterate_of_room hroom]
  exact if_pos hnone

/-- Settles O58: the candidate's bytes are put after the flush of the evaluated Encoder. -/
theorem candidateIteration : Obligations.CandidateIteration := by
  intro e kind len backOffset seq put hscan hcur hroom hbest hlen hput
  have hput : put = flushBytes e.lit ++
      (headerBytes kind len ++ payloadBytes e.src.read e.cur kind backOffset) := hput
  have hselected : e.evaluate.select.best = .found kind len seq backOffset := hbest
  have hcommit : e.evaluate.select.commit = e.evaluate.select.flush.emitBest.skipBest :=
    if_neg (by rwa [hselected])
  have hemit : e.evaluate.select.flush.emitBest = e.evaluate.select.flush.putAll
      (headerBytes kind len ++ payloadBytes e.src.read e.cur kind backOffset) := by
    simp [Encoder.emitBest, hbest, candidateBytes]
  refine ⟨e.comp.load e.clen put, ?_, Memory.appended_load e.comp e.clen put⟩
  rw [Encoder.move_of_lt hscan hcur, Encoder.iterate_of_room hroom, hcommit, hemit,
    Encoder.flush_putAll, hput]
  simp [Encoder.skipBest, hbest, Candidate.length]

/-- Settles O59: the terminator is put after the flush. -/
theorem endIteration : Obligations.EndIteration := by
  intro e put hscan hcur hput
  have hfinish : e.finish = { e.flush.putAll [0xFF] with estate := .done } := rfl
  refine ⟨e.comp.load e.clen put, ?_, Memory.appended_load e.comp e.clen put⟩
  rw [Encoder.move_at_end hscan (Nat.le_of_eq hcur.symm), hfinish, Encoder.flush_putAll, hput]
  rfl

/-! #### Progress of an encode call (R231) -/

/-- A valid candidate that is not empty covers two bytes or more, and none past the source (R193). -/
theorem CandidateValid.length_bounds {src : Nat → Byte} {n c : Nat} {cand : Candidate}
    (h : CandidateValid src n c cand) (hlen : cand.length ≠ 0) :
    2 ≤ cand.length ∧ cand.length ≤ n - c := by
  cases cand with
  | empty => exact absurd rfl hlen
  | found kind len seq back =>
    obtain ⟨hmin, _, hlim, _⟩ := h
    exact ⟨hmin, hlim⟩

/-- From `e` to `e'` the cursor has moved past one literal or past the selected candidate, within the
source. -/
def Encoder.Advances (e e' : Encoder) : Prop :=
  e'.cur ≤ e.n ∧ ((e'.best.length = 0 ∧ e'.cur = e.cur + 1) ∨
    (2 ≤ e'.best.length ∧ e'.cur = e.cur + e'.best.length))

theorem Encoder.Advances.cur_lt {e e' : Encoder} (h : e.Advances e') : e.cur < e'.cur := by
  obtain ⟨-, ⟨-, hcur⟩ | ⟨hlen, hcur⟩⟩ := h <;> omega

theorem Encoder.iterate_of_room_advances {e : Encoder} (hcur : e.cur < e.n)
    (hroom : e.lit.length ≠ 1023) : e.Advances e.iterate := by
  rw [Encoder.iterate_of_room hroom, Encoder.commit]
  split_ifs with hlen
  · exact ⟨hcur, .inl ⟨hlen, rfl⟩⟩
  · obtain ⟨hmin, hlim⟩ := (selectBest_valid e.src.read e.n e.cur).length_bounds hlen
    have hbest : e.evaluate.select.flush.emitBest.skipBest.best.length =
        (selectBest (findAll e.src.read e.n e.cur)).length := by simp
    have hnext : e.evaluate.select.flush.emitBest.skipBest.cur =
        e.cur + (selectBest (findAll e.src.read e.n e.cur)).length := by simp
    exact ⟨by omega, .inr ⟨by omega, by omega⟩⟩

/-- Every iteration advances: the flush of a full run leaves the cursor and the source alone. -/
theorem Encoder.iterate_advances {e : Encoder} (hcur : e.cur < e.n) : e.Advances e.iterate := by
  by_cases hfull : e.lit.length = 1023
  · have hflushed : e.flush.Advances e.flush.iterate :=
      Encoder.iterate_of_room_advances (by simpa using hcur) (by simp)
    rw [Encoder.iterate_of_full hfull]
    simpa [Encoder.Advances] using hflushed
  · exact Encoder.iterate_of_room_advances hcur hfull

theorem Encoder.commit_estate (e : Encoder) : e.commit.estate = e.estate := by
  unfold Encoder.commit
  split_ifs
  · rfl
  · rw [Encoder.emitBest, Encoder.putAll_eq]
    exact e.flush_estate

theorem Encoder.iterate_estate (e : Encoder) : e.iterate.estate = e.estate := by
  have hcap : e.capFlush.estate = e.estate := by
    unfold Encoder.capFlush
    split_ifs
    · exact e.flush_estate
    · rfl
  exact (Encoder.commit_estate _).trans hcap

/-- A move from `Scan` ends the call, or is back in `Scan` further on in the source. -/
theorem Encoder.move_done_or_advances {e : Encoder} (hscan : e.estate = .scan) :
    e.move.estate = .done ∨
    (e.move.estate = .scan ∧ e.cur < e.move.cur ∧ e.cur < e.n) := by
  rcases Nat.lt_or_ge e.cur e.n with hcur | hend
  · rw [Encoder.move_of_lt hscan hcur]
    exact .inr ⟨e.iterate_estate.trans hscan, (Encoder.iterate_advances hcur).cur_lt, hcur⟩
  · rw [Encoder.move_at_end hscan hend]
    exact .inl rfl

/-- The moves of the Decoder before one of the Encoder, by the turn. -/
def Engine.movesBeforeEncoder : Engine → Nat
  | .decoder => 1
  | .encoder => 0

theorem Engine.movesBeforeEncoder_le (turn : Engine) : turn.movesBeforeEncoder ≤ 1 := by
  cases turn <;> decide

/-- What the rest of an encode call can still take, less its last step: two for each source byte left,
one if the Decoder is to move first, and one for each pending start. -/
def State.encodeBudget (s : State) : Nat :=
  2 * (s.enc.n - s.enc.cur) + s.turn.movesBeforeEncoder + s.host.length

theorem State.mover_of_enc_busy {s : State} (hbusy : s.enc.busy = true) :
    s.mover = some (if s.dec.busy then s.turn else .encoder) := by
  cases hdec : s.dec.busy <;> simp [State.mover, hbusy, hdec]

/-- Of two running engines the Decoder moves at its turn only. -/
theorem State.turn_of_decoder_moves {s : State} (hbusy : s.enc.busy = true)
    (hmover : s.mover = some .decoder) : s.turn = .decoder := by
  rw [State.mover_of_enc_busy hbusy] at hmover
  split_ifs at hmover
  · exact Option.some.inj hmover
  · cases hmover

/-- A start that is ready while the Encoder is busy is the Decoder's. -/
theorem State.begin_enc_of_ready {s : State} {c : HostCommand} (hbusy : s.enc.busy = true)
    (hready : s.readyCommand = some c) : (s.popStart.begin c).enc = s.enc := by
  cases c with
  | startDecode bs m => rfl
  | startEncode source =>
    obtain ⟨-, hfree⟩ := State.readyCommand_some hready
    simp [State.admits, hbusy] at hfree

/-- Every step of an encode call ends it or takes from its budget: a start is given or refused, the
Decoder moves and hands the turn on, or the Encoder's cursor advances. -/
theorem step_done_or_spends {s t : State} (hscan : s.enc.estate = .scan)
    (hstep : step s = .next t) :
    t.enc.estate = .done ∨ (t.enc.estate = .scan ∧ t.encodeBudget < s.encodeBudget) := by
  have hbusy : s.enc.busy = true := by simp [Encoder.busy, hscan]
  rcases step_cases hstep with ⟨c, hready, _, rfl⟩ | ⟨c, hready, _, rfl⟩ | ⟨_, hmover, rfl⟩ |
    ⟨_, _, rfl⟩ | ⟨_, hmover, rfl⟩
  · have hhost := State.host_length_of_ready hready
    refine .inr ⟨?_, ?_⟩
    · rw [State.begin_enc_of_ready hbusy hready, hscan]
    · simp only [State.encodeBudget, State.begin_enc_of_ready hbusy hready, State.begin_turn,
        State.begin_host, State.popStart_turn]
      omega
  · have hhost := State.host_length_of_ready hready
    refine .inr ⟨hscan, ?_⟩
    simp only [State.encodeBudget, State.refuseStart_enc, State.refuseStart_turn,
      State.refuseStart_host, State.popStart_enc, State.popStart_turn]
    omega
  · refine .inr ⟨hscan, ?_⟩
    simp [State.encodeBudget, State.turn_of_decoder_moves hbusy hmover, Engine.movesBeforeEncoder]
  · refine (Encoder.move_done_or_advances hscan).imp_right fun ⟨hback, hcur, hlt⟩ => ⟨hback, ?_⟩
    have hn : s.enc.move.n = s.enc.n := congrArg Prod.snd s.enc.move_operands
    have hturn : Engine.decoder.movesBeforeEncoder = 1 := rfl
    simp only [State.encodeBudget, State.encoderMove, hn, hturn]
    omega
  · simp [State.mover_of_enc_busy hbusy] at hmover

/-- Settles O45: an iteration advances, and the budget bounds the steps of the call. -/
theorem encodeCallEnds : Obligations.EncodeCallEnds := by
  refine ⟨fun e hscan hcur => ?_, fun s hscan => ?_⟩
  · rw [Encoder.move_of_lt hscan hcur]
    exact Encoder.iterate_advances hcur
  · obtain ⟨k, t, hk, hrun, hdone⟩ := run_reaches_of_measure (P := fun s => s.enc.estate = .scan)
      (Q := fun t => t.enc.estate = .done) State.encodeBudget (fun _ _ => step_done_or_spends) s
      hscan
    refine ⟨k, t, ?_, hrun, hdone⟩
    have hturn := s.turn.movesBeforeEncoder_le
    unfold State.encodeBudget at hk
    omega

end Sys2Proof.Machine

/-! ### Reset -/

namespace Sys2Proof.Machine

@[simp] theorem Decoder.reset_dstate : Decoder.reset.dstate = .idle := rfl

@[simp] theorem Encoder.reset_estate : Encoder.reset.estate = .idle := rfl

/-- Settles O8: the machine's reset is the reset of its two engines, and each of them is idle (R280). -/
theorem resetIsIdle : Obligations.ResetIsIdle :=
  ⟨Decoder.reset_dstate, Encoder.reset_estate⟩

end Sys2Proof.Machine
